-- ==== Sys2Proof/Word.lean ====
section
/-! DEFINITION. The widths the spec gives: a symbol is one byte (R3, R4), a host data word has 32 bits and a register
index 18 bits (R3, R40), the parameter and length registers have 16 bits (R16 to R18). All unsigned (R4). -/

namespace Sys2Proof

/-- A symbol, one field element of GF(256) (R4). -/
abbrev Byte := BitVec 8

/-- The width of `N`, `K`, `IN_LEN` and `OUT_LEN` (R16 to R18). -/
abbrev Half := BitVec 16

/-- A host data word and a command word (R40, R60). -/
abbrev Word := BitVec 32

/-- A host register index (R40). -/
abbrev RegIndex := BitVec 18

end Sys2Proof
end

