-- ==== Sys2Proof/Syntax.lean ====
section
/-! DEFINITION. The twelve commands (R64), one constructor per row of spec/opcode_table.json, with the immediates their
format uses (R62, R63). -/

namespace Sys2Proof

inductive Instr where
  /-- Format Z, op 0x00 (R98). -/
  | nop
  /-- Format B, op 0x01 (R93). -/
  | gfAdd (a b : Byte)
  /-- Format B, op 0x02 (R94). -/
  | gfMul (a b : Byte)
  /-- Format B, op 0x03 (R95). -/
  | gfDiv (a b : Byte)
  /-- Format U, op 0x04 (R96). -/
  | gfInv (a : Byte)
  /-- Format U, op 0x05 (R97). -/
  | polyEval (a : Byte)
  /-- Format Z, op 0x10 (R114). -/
  | encBlk
  /-- Format Z, op 0x11 (R144). -/
  | decBlk
  /-- Format Z, op 0x12 (R115). -/
  | encPkt
  /-- Format Z, op 0x13 (R145). -/
  | decPkt
  /-- Format U, op 0x20 (R171). -/
  | ladderGet (a : Byte)
  /-- Format U, op 0x21 (R172). -/
  | ladderNext (a : Byte)
  deriving DecidableEq, Repr

end Sys2Proof
end

