-- ==== Sys2Proof/WellFormed.lean ====
section
/-! DEFINITION. The fields of a command word and the form they must have (R61, R62, R65): an assigned `op`, `zero` = 0,
and every immediate its format does not use = 0. -/

namespace Sys2Proof

/-- The three formats (R62). -/
inductive Format where
  | z
  | u
  | b
  deriving DecidableEq, Repr

/-- The four fields of a command word (R61). -/
structure CommandFields where
  op : Byte
  a : Byte
  b : Byte
  zero : Byte
  deriving DecidableEq, Repr

/-- The format of each assigned `op` value, none for an unassigned one (R62, R64, R65). -/
def formatOf (op : Byte) : Option Format :=
  if op = 0x00 then some .z
  else if op = 0x01 then some .b
  else if op = 0x02 then some .b
  else if op = 0x03 then some .b
  else if op = 0x04 then some .u
  else if op = 0x05 then some .u
  else if op = 0x10 then some .z
  else if op = 0x11 then some .z
  else if op = 0x12 then some .z
  else if op = 0x13 then some .z
  else if op = 0x20 then some .u
  else if op = 0x21 then some .u
  else none

/-- The form a command word must have to be legal (R62, R65). -/
def CommandFields.wellFormed (f : CommandFields) : Bool :=
  match formatOf f.op with
  | none => false
  | some .z => f.zero == 0 && f.b == 0 && f.a == 0
  | some .u => f.zero == 0 && f.b == 0
  | some .b => f.zero == 0

/-- The fields that stand for an instruction, unused ones zero (R62, R64). -/
def Instr.fields : Instr → CommandFields
  | .nop => ⟨0x00, 0, 0, 0⟩
  | .gfAdd a b => ⟨0x01, a, b, 0⟩
  | .gfMul a b => ⟨0x02, a, b, 0⟩
  | .gfDiv a b => ⟨0x03, a, b, 0⟩
  | .gfInv a => ⟨0x04, a, 0, 0⟩
  | .polyEval a => ⟨0x05, a, 0, 0⟩
  | .encBlk => ⟨0x10, 0, 0, 0⟩
  | .decBlk => ⟨0x11, 0, 0, 0⟩
  | .encPkt => ⟨0x12, 0, 0, 0⟩
  | .decPkt => ⟨0x13, 0, 0, 0⟩
  | .ladderGet a => ⟨0x20, a, 0, 0⟩
  | .ladderNext a => ⟨0x21, a, 0, 0⟩

/-- An instruction is well-formed when its fields are. Immediates are bytes by type (R63), so every instruction is. -/
def Instr.wellFormed (i : Instr) : Bool := i.fields.wellFormed

end Sys2Proof
end

