-- ==== Sys2Proof/Decode.lean ====
section
/-! DEFINITION. Decoding a command word by the mask and match of the opcode map (R60 to R66), total over all 2^32 words,
and the encoder (R61, R67). -/

namespace Sys2Proof

/-- `op` = word[7:0] (R61). -/
def opField (w : Word) : Byte := w.extractLsb' 0 8

/-- `a` = word[15:8] (R61, R63). -/
def aField (w : Word) : Byte := w.extractLsb' 8 8

/-- `b` = word[23:16] (R61, R63). -/
def bField (w : Word) : Byte := w.extractLsb' 16 8

/-- `zero` = word[31:24] (R61). -/
def zeroField (w : Word) : Byte := w.extractLsb' 24 8

/-- The four fields of a word (R61). -/
def fieldsOf (w : Word) : CommandFields := ⟨opField w, aField w, bField w, zeroField w⟩

/-- One row of the opcode map: a word `w` selects it when `w & mask = pattern` (R64). -/
structure OpRow where
  mask : Word
  pattern : Word
  build : Byte → Byte → Instr

/-- The opcode map of rule R64, row by row. -/
def opcodeTable : List OpRow := [
  ⟨0xFFFFFFFF, 0x00000000, fun _ _ => .nop⟩,
  ⟨0xFF0000FF, 0x00000001, fun a b => .gfAdd a b⟩,
  ⟨0xFF0000FF, 0x00000002, fun a b => .gfMul a b⟩,
  ⟨0xFF0000FF, 0x00000003, fun a b => .gfDiv a b⟩,
  ⟨0xFFFF00FF, 0x00000004, fun a _ => .gfInv a⟩,
  ⟨0xFFFF00FF, 0x00000005, fun a _ => .polyEval a⟩,
  ⟨0xFFFFFFFF, 0x00000010, fun _ _ => .encBlk⟩,
  ⟨0xFFFFFFFF, 0x00000011, fun _ _ => .decBlk⟩,
  ⟨0xFFFFFFFF, 0x00000012, fun _ _ => .encPkt⟩,
  ⟨0xFFFFFFFF, 0x00000013, fun _ _ => .decPkt⟩,
  ⟨0xFFFF00FF, 0x00000020, fun a _ => .ladderGet a⟩,
  ⟨0xFFFF00FF, 0x00000021, fun a _ => .ladderNext a⟩]

/-- Why a word is illegal: the four cases of rule R65. The machine answers each with `ILLEGAL_COMMAND`
(DESIGN CHOICE, log entry 18: safe). -/
inductive IllegalWord where
  /-- The `op` value is none of the twelve. -/
  | unassignedOp
  /-- `zero` is not 0. -/
  | zeroFieldSet
  /-- `b` is not 0 in a word of format U or Z. -/
  | unusedB
  /-- `a` is not 0 in a word of format Z. -/
  | unusedA
  deriving DecidableEq, Repr

/-- The reason for which a word that matches no row is illegal, in the order the list of rule R65 names them. -/
def whyIllegal (w : Word) : IllegalWord :=
  if formatOf (opField w) = none then .unassignedOp
  else if zeroField w ≠ 0 then .zeroFieldSet
  else if bField w ≠ 0 then .unusedB
  else .unusedA

/-- Decode a command word: the row it matches, or the reason why it is illegal (R60, R64, R65). -/
def decode (w : Word) : Except IllegalWord Instr :=
  match opcodeTable.find? (fun row => w &&& row.mask == row.pattern) with
  | some row => .ok (row.build (aField w) (bField w))
  | none => .error (whyIllegal w)

/-- The command word of an instruction: `zero`, `b`, `a`, `op` from the most significant byte down (R61),
that is op + (a << 8) + (b << 16) (R67). -/
def encode (i : Instr) : Word :=
  i.fields.zero ++ i.fields.b ++ i.fields.a ++ i.fields.op

/-- The instruction whose bits are `w`, numbered as spec/opcode_table.json numbers them: a command is one 32-bit word
(R60), so the bits above `nbits` are 0 and the word is decoded as it stands (DEDUCED, log entry 17: safe). -/
def decodeTableWord (nbits w : Nat) : Option Instr :=
  match decode (BitVec.ofNat 32 (w % 2 ^ nbits)) with
  | .ok i => some i
  | .error _ => none

end Sys2Proof
end

