-- ==== Sys2Proof/Config.lean ====
section
/-! DEFINITION. What is fixed for the engine (the parameters of rule R3; DESIGN CHOICE, log entry 14: unsafe for an engine
built with other parameters only) and the free values: what the spec leaves
unspecified (93_implementation_defined.md U1 to U3). A free value is a constant with no body, so no proof can see it. -/

namespace Sys2Proof.Config

/-- `FIELD_POLY`, x^8 + x^4 + x^3 + x^2 + 1 (R3). -/
def fieldPoly : BitVec 9 := 0x11D

/-- `N_MAX`, the largest block length (R3, R110). -/
def nMax : Nat := 255

/-- `LADDER_K`, the data length of every ladder level (R3, R170). -/
def ladderK : Nat := 223

/-- `LADDER_MAX_LEVELS`, the most levels the ladder array could hold (R3, R170). -/
def ladderMaxLevels : Nat := 8

/-- `BUF_BYTES`, the capacity of `IN` and of `OUT` in symbols (R3, D7). -/
def bufBytes : Nat := 65535

/-- The value of `LOG[0]`, the unused sentinel (R81, U1). Nothing reads it. DESIGN CHOICE, log entry 3: safe, a free value. -/
opaque logSentinel : Byte

/-- The content of `IN[i]` that no host write has set since the reset numbered `epoch` (R28, R33, U2): `unwrittenIn epoch i`.
DESIGN CHOICE, log entry 1: safe, a free value. -/
opaque unwrittenIn : Nat → Nat → Byte

/-- The unspecified content of `OUT[i]`: for `i >= OUT_LEN`, after reset, after an error (R29, U3): `unspecifiedOut epoch i`,
where `epoch` numbers the events that made it unspecified. DESIGN CHOICE, log entry 2: safe, a free value. -/
opaque unspecifiedOut : Nat → Nat → Byte

end Sys2Proof.Config
end

