-- ==== Sys2Proof/Machine/State.lean ====
section
/-! DEFINITION. The engine's state as plain data: every register, register file and buffer of 10_state.md, and the host
port's events and answer. -/

namespace Sys2Proof.Machine

/-- The completion codes (R181); 7 to 15 are never produced (U4; DESIGN CHOICE, log entry 16: safe). -/
inductive Completion where
  | ok
  | invalidCodeParams
  | invalidPacketSize
  | uncorrectable
  | divideByZero
  | illegalCommand
  | capacity
  deriving DecidableEq, Repr

/-- A register file of 256 symbols (10_state.md section 6). -/
abbrev RegFile := Vector Byte 256

/-- Every element 0x00 (R20, R33). -/
def RegFile.zero : RegFile := Vector.replicate 256 0

/-- The symbols that `IN` and `OUT` are known to hold, by host register index. The canonical form: addresses strictly
rising. An unlisted address reads as nothing, and a read of it answers the free value, so no entry is redundant
(DESIGN CHOICE, log entry 5: safe). -/
abbrev Memory := List Host.Cell

/-- The canonical form of memory. -/
abbrev Memory.wf (m : Memory) : Prop := m.Pairwise (fun c d => c.1 < d.1)

/-- What the host, or the outside, does to the engine: one transaction (R41, R42) or a reset between two (R200;
DESIGN CHOICE, log entries 4 and 8: safe). -/
inductive HostEvent where
  | read (idx : RegIndex)
  | write (idx : RegIndex) (v : Word)
  | reset
  deriving DecidableEq, Repr

/-- The answer on the host port: none yet, a read's data, a write's acknowledgement, or a bus error (R41, R42, R186;
DESIGN CHOICE, log entry 6: safe). -/
inductive BusResponse where
  | idle
  | data (w : Word)
  | ack
  | busError
  deriving DecidableEq, Repr

/-- Why the machine stops. Nothing stops it: an error is a completion code or a bus error response, and the next
transaction is accepted as if nothing had happened (R180, R208). So no constructor (DEDUCED, log entry 7: safe, no meaning stops). -/
inductive Fault where
  deriving DecidableEq, Repr

/-- Why an instruction has no meaning. -/
inductive Refusal where
  /-- Raised by no meaning; it could stand only in an arm of `exec` that rejects an instruction not yet modelled, and no
  arm does. Safe: the model would stop. -/
  | notModelled (mnemonic : String)
  deriving DecidableEq, Repr

structure State where
  /-- `CMD`, the last word written to it (R13). -/
  cmd : Word
  /-- `STATUS.CODE` (R14). -/
  code : Completion
  /-- `R` (R15). -/
  r : Byte
  /-- `N` (R16). -/
  n : Half
  /-- `K` (R16). -/
  k : Half
  /-- `IN_LEN` (R17). -/
  inLen : Half
  /-- `OUT_LEN` (R18). -/
  outLen : Half
  /-- `ECOUNT` (R24). -/
  ecount : Byte
  /-- `ROOTCNT` (R25). -/
  rootcnt : Byte
  /-- `SYN` (R21). -/
  syn : RegFile
  /-- `LAMBDA` (R22). -/
  lambda : RegFile
  /-- `OMEGA` (R23). -/
  omega : RegFile
  /-- `ERRPOS` (R26). -/
  errpos : RegFile
  /-- `ERRMAG` (R26). -/
  errmag : RegFile
  /-- `GPOLY` (R27). -/
  gpoly : RegFile
  /-- The known symbols of `IN` and `OUT` (R28, R29), keyed by host register index (R40). -/
  mem : Memory
  /-- The model's own: how many reset events have passed (log entry 1). -/
  inEpoch : Nat
  /-- The model's own: how many events have made the content of `OUT` unspecified (log entry 2). -/
  outEpoch : Nat
  /-- The model's own: the host's events not yet taken, first one first (R210, log entry 4). -/
  pending : List HostEvent
  /-- The model's own: the answer to the last event (log entry 6). -/
  response : BusResponse
  deriving DecidableEq, Repr

/-- The machine after reset (R33, R200), with no host event pending and the model's own counters at 0 (DESIGN CHOICE,
log entries 1, 2, 4 and 6). -/
def State.reset : State where
  cmd := 0
  code := .ok
  r := 0
  n := 0
  k := 0
  inLen := 0
  outLen := 0
  ecount := 0
  rootcnt := 0
  syn := .zero
  lambda := .zero
  omega := .zero
  errpos := .zero
  errmag := .zero
  gpoly := .zero
  mem := []
  inEpoch := 0
  outEpoch := 0
  pending := []
  response := .idle

end Sys2Proof.Machine
end

