-- ==== Sys2Proof/Machine/Flags.lean ====
section
/-! DEFINITION. The only condition state is the completion code (R12): its numbers and the write of it. -/

namespace Sys2Proof.Machine

/-- The number of each completion code (R181), the four bits of `STATUS.CODE` (R14). -/
def Completion.toBits : Completion → BitVec 4
  | .ok => 0
  | .invalidCodeParams => 1
  | .invalidPacketSize => 2
  | .uncorrectable => 3
  | .divideByZero => 4
  | .illegalCommand => 5
  | .capacity => 6

/-- `complete(CODE)`: the last action of every command, `STATUS.CODE <- CODE` (R7, R14, R60). -/
def State.complete (s : State) (c : Completion) : State := { s with code := c }

end Sys2Proof.Machine
end

