-- ==== Sys2Proof/Machine/Ops.lean ====
section
/-! DEFINITION. The named operations over memory and registers, and the error completion of a command (R187), which is
the engine's form of taking an exception. There is no return from one and nothing to restore (R188). -/

namespace Sys2Proof.Machine

/-- The byte listed at an address, if any. -/
def Memory.read? : Memory → Nat → Option Byte
  | [], _ => none
  | (a, v) :: m, x => if a = x then some v else Memory.read? m x

/-- List a byte at an address, keeping the addresses rising. -/
def Memory.write : Memory → Nat → Byte → Memory
  | [], x, v => [(x, v)]
  | (a, w) :: m, x, v =>
    if x < a then (x, v) :: (a, w) :: m
    else if x = a then (x, v) :: m
    else (a, w) :: Memory.write m x v

/-- The cells below an address. -/
def Memory.below (m : Memory) (b : Nat) : Memory := m.filter (fun c => decide (c.1 < b))

/-- A run of symbols from an address up. -/
def cellsFrom (b : Nat) : List Byte → Memory
  | [] => []
  | v :: l => (b, v) :: cellsFrom (b + 1) l

/-- The register index of `IN[0]` (R28, R40). -/
def inBase : Nat := 0x10000

/-- The register index of `OUT[0]` (R29, R40). -/
def outBase : Nat := 0x20000

/-- `IN[i]`: the byte last written, or the free value where nothing has been written since reset (R28, U2, log entry 1). -/
def State.readIn (s : State) (i : Nat) : Byte :=
  (s.mem.read? (inBase + i)).getD (Config.unwrittenIn s.inEpoch i)

/-- `OUT[i]`: the result symbol for i < `OUT_LEN`, else the free value (R29, U3, log entry 2). -/
def State.readOut (s : State) (i : Nat) : Byte :=
  (s.mem.read? (outBase + i)).getD (Config.unspecifiedOut s.outEpoch i)

/-- `IN[i] <- v`: a host write only, no command does it (R28, R52). -/
def State.writeIn (s : State) (i : Nat) (v : Byte) : State :=
  { s with mem := s.mem.write (inBase + i) v }

/-- `OUT[0 .. len-1] <- l; OUT_LEN <- len` for a result of len symbols (R18, R52). The rest of `OUT` becomes unspecified
(R29, U3), so it is unlisted and its free value is a fresh one. -/
def State.setOut (s : State) (l : List Byte) : State :=
  { s with
    mem := s.mem.below outBase ++ cellsFrom outBase l
    outLen := BitVec.ofNat 16 l.length
    outEpoch := s.outEpoch + 1 }

/-- `R <- v` (R15). -/
def State.setR (s : State) (v : Byte) : State := { s with r := v }

/-- `N <- n; K <- k` (R171). -/
def State.setParams (s : State) (n k : Nat) : State :=
  { s with n := BitVec.ofNat 16 n, k := BitVec.ofNat 16 k }

/-- The register file whose first elements are `l` and whose other elements are 0x00 (R21, R23, R26, R27). -/
def RegFile.load (l : List Byte) : RegFile :=
  ⟨((l ++ List.replicate 256 0).take 256).toArray, by
    rw [List.size_toArray, List.length_take, List.length_append, List.length_replicate]; omega⟩

/-- `write GPOLY` from a generator polynomial (R27, R111). -/
def State.setGpoly (s : State) (g : List Byte) : State := { s with gpoly := RegFile.load g }

/-- Error completion of a codec command (R187): `OUT_LEN <- 0`, the content of `OUT` becomes unspecified, the code is
recorded, nothing else changes (DEDUCED, log entry 19: safe). -/
def State.fail (s : State) (c : Completion) : State := (s.setOut []).complete c

/-- The effect of a reset event (R200): every piece of state takes its reset value (R33), `IN` and `OUT` become
unspecified anew, the host's further events stay (DEDUCED, log entry 8: safe). -/
def State.resetNow (s : State) : State :=
  { State.reset with
    inEpoch := s.inEpoch + 1
    outEpoch := s.outEpoch + 1
    pending := s.pending }

end Sys2Proof.Machine
end

