-- ==== Sys2Proof/Machine/Ladder.lean ====
section
/-! DEFINITION. The code ladder (43_code_ladder.md, R170 to R172) and `LADDER_GET`, `LADDER_NEXT`. -/

namespace Sys2Proof.Machine

/-- CodeParams, n and k (R8, R170). -/
structure CodeParams where
  n : Nat
  k : Nat
  deriving DecidableEq, Repr

/-- `LADDER` by the generation rule of R170: level i has 2^i parity symbols, and the ladder stops once n would exceed 255. -/
def ladder : List CodeParams :=
  ((List.range Config.ladderMaxLevels).map (fun i => ⟨Config.ladderK + 2 ^ i, Config.ladderK⟩)).takeWhile
    (fun c => decide (c.n ≤ Config.nMax))

/-- `LADDER_LEN`, the number of levels (R19, R170). -/
def ladderLen : Nat := ladder.length

/-- `LADDER_GET a` (R171): a level that does not exist names no CodeParams. -/
def execLadderGet (a : Byte) (s : State) : Host.Outcome State Fault Refusal :=
  match ladder[a.toNat]? with
  | none => .next (s.complete .invalidCodeParams)
  | some c => .next ((s.setParams c.n c.k).complete .ok)

/-- The level after level `a`, saturating at the highest (R172). -/
def nextLevel (a : Nat) : Nat := if ladderLen - 1 ≤ a then ladderLen - 1 else a + 1

/-- `LADDER_NEXT a` (R172). -/
def execLadderNext (a : Byte) (s : State) : Host.Outcome State Fault Refusal :=
  .next ((s.setR (BitVec.ofNat 8 (nextLevel a.toNat))).complete .ok)

end Sys2Proof.Machine
end

