-- ==== Sys2Proof/Machine/Bus.lean ====
section
/-! DEFINITION. The host register space (20_memory.md, R40 to R43): the map, host reads, host writes, bus errors (R186),
and what a write to `CMD` asks the engine to run (R13, R60). -/

namespace Sys2Proof.Machine

/-- The six register files of 10_state.md section 6. -/
inductive FileName where
  | syn
  | lambda
  | omega
  | errpos
  | errmag
  | gpoly
  deriving DecidableEq, Repr

/-- The locations of the register space (R40). -/
inductive Location where
  | cmd
  | status
  | r
  | n
  | k
  | inLen
  | outLen
  | ecount
  | rootcnt
  | ladderLen
  | file (f : FileName) (i : Fin 256)
  | inBuf (i : Nat)
  | outBuf (i : Nat)
  deriving DecidableEq, Repr

/-- The element of a register file that an index names, from its low byte (10_state.md section 6). -/
def elementOf (idx : RegIndex) : Fin 256 := (idx.setWidth 8).toFin

/-- The symbol of `IN` or `OUT` that an index names, from its low 16 bits: both buffers start at a multiple of 0x10000 (R40). -/
def symbolOf (idx : RegIndex) : Nat := (idx.setWidth 16).toNat

/-- The scalar registers, index 0x00000 to 0x00009; 0x0000A to 0x000FF are unmapped (R40). -/
def scalarAt : Nat → Option Location
  | 0 => some .cmd
  | 1 => some .status
  | 2 => some .r
  | 3 => some .n
  | 4 => some .k
  | 5 => some .inLen
  | 6 => some .outLen
  | 7 => some .ecount
  | 8 => some .rootcnt
  | 9 => some .ladderLen
  | _ => none

/-- The register file of 256 indices from `p * 0x100` up; from 0x00700 to 0x0FFFF nothing is mapped (R40). -/
def fileAt : Nat → Option FileName
  | 1 => some .syn
  | 2 => some .lambda
  | 3 => some .omega
  | 4 => some .errpos
  | 5 => some .errmag
  | 6 => some .gpoly
  | _ => none

/-- The map of rule R40; none for an unmapped index. -/
def locate (idx : RegIndex) : Option Location :=
  let x := idx.toNat
  if x < 0x00100 then scalarAt x
  else if x < 0x10000 then (fileAt (x / 0x100)).map (fun f => .file f (elementOf idx))
  else if x < 0x1FFFF then some (.inBuf (symbolOf idx))
  else if x < 0x20000 then none
  else if x < 0x2FFFF then some (.outBuf (symbolOf idx))
  else none

/-- A register file of the state. -/
def State.file (s : State) : FileName → RegFile
  | .syn => s.syn
  | .lambda => s.lambda
  | .omega => s.omega
  | .errpos => s.errpos
  | .errmag => s.errmag
  | .gpoly => s.gpoly

/-- The content of a location, zero-extended to 32 bits (R41, R14, R19). `LADDER_LEN` is hard-wired (DEDUCED, log entry 10: safe). -/
def State.readLocation (s : State) : Location → Word
  | .cmd => s.cmd
  | .status => s.code.toBits.setWidth 32
  | .r => s.r.setWidth 32
  | .n => s.n.setWidth 32
  | .k => s.k.setWidth 32
  | .inLen => s.inLen.setWidth 32
  | .outLen => s.outLen.setWidth 32
  | .ecount => s.ecount.setWidth 32
  | .rootcnt => s.rootcnt.setWidth 32
  | .ladderLen => BitVec.ofNat 32 Machine.ladderLen
  | .file f i => ((s.file f)[i]).setWidth 32
  | .inBuf i => (s.readIn i).setWidth 32
  | .outBuf i => (s.readOut i).setWidth 32

/-- The state after the low bits of a word are stored in a location; none where the location is read-only (R40, R42). -/
def State.writeLocation (s : State) (v : Word) : Location → Option State
  | .cmd => some { s with cmd := v }
  | .n => some { s with n := v.setWidth 16 }
  | .k => some { s with k := v.setWidth 16 }
  | .inLen => some { s with inLen := v.setWidth 16 }
  | .inBuf i => some (s.writeIn i (v.setWidth 8))
  | .status => none
  | .r => none
  | .outLen => none
  | .ecount => none
  | .rootcnt => none
  | .ladderLen => none
  | .file _ _ => none
  | .outBuf _ => none

/-- The port answers an event; nothing else changes. -/
def State.answer (s : State) (a : BusResponse) : State := { s with response := a }

/-- A host read transaction (R41): data, or a bus error for an unmapped index (R186). -/
def State.hostRead (s : State) (idx : RegIndex) : State :=
  match locate idx with
  | none => s.answer .busError
  | some l => s.answer (.data (s.readLocation l))

/-- The storing part of a host write transaction (R42): acknowledged, or a bus error for an unmapped or read-only index (R186). -/
def State.hostWrite (s : State) (idx : RegIndex) (v : Word) : State :=
  match (locate idx).bind (s.writeLocation v) with
  | none => s.answer .busError
  | some t => t.answer .ack

/-- What an event asks of the engine: nothing more, or to run a command in the state where its word is stored. -/
inductive Request where
  | done (s : State)
  | run (i : Instr) (s : State)
  deriving DecidableEq, Repr

/-- A word has been written to `CMD` (R13, R60): run the command it decodes to; an illegal word completes with
`ILLEGAL_COMMAND` and changes nothing else (R65). -/
def State.command (s : State) (v : Word) : Request :=
  match decode v with
  | .ok i => .run i s
  | .error _ => .done (s.complete .illegalCommand)

/-- Take one event of the host (R41, R42) or of the outside (R200). -/
def State.take (s : State) : HostEvent → Request
  | .read idx => .done (s.hostRead idx)
  | .write idx v => if locate idx = some .cmd then (s.hostWrite idx v).command v else .done (s.hostWrite idx v)
  | .reset => .done s.resetNow

/-- The engine's next event and the state without it; none where the host issues nothing (R210). -/
def State.nextEvent (s : State) : Option (HostEvent × State) :=
  match s.pending with
  | [] => none
  | e :: rest => some (e, { s with pending := rest })

/-- A state in which the host's next event is a write of `w` to `CMD` (R60), before all that was pending. -/
def State.issue (s : State) (w : Word) : State := { s with pending := .write 0 w :: s.pending }

end Sys2Proof.Machine
end

