-- ==== Sys2Proof/Machine/Poly.lean ====
section
/-! DEFINITION. The polynomial helpers (R89 to R92) on sequences of symbols. Degree-indexed: entry j is the coefficient
of x^j. Position-indexed: entry 0 is the highest-degree coefficient (R6). -/

namespace Sys2Proof.Machine

/-- `padd(P, Q)`, a missing element counting as 0 (R89). -/
def padd : List Byte → List Byte → List Byte
  | [], q => q
  | p, [] => p
  | a :: p, b :: q => gfAdd a b :: padd p q

/-- `pscale(P, c)` (R90). -/
def pscale (p : List Byte) (c : Byte) : List Byte := p.map (fun a => gfMul a c)

/-- `pmul(P, Q)`, the convolution of two non-empty sequences (R91): P[0]*Q plus x times the rest of P times Q. -/
def pmul : List Byte → List Byte → List Byte
  | [], _ => []
  | [a], q => pscale q a
  | a :: b :: p, q => padd (pscale q a) (0 :: pmul (b :: p) q)

/-- `horner_pos(c, x)`, position-indexed (R92). -/
def hornerPos (c : List Byte) (x : Byte) : Byte :=
  c.foldl (fun acc s => gfAdd (gfMul acc x) s) 0

/-- `horner_deg(P, x)`, degree-indexed (R92). -/
def hornerDeg (p : List Byte) (x : Byte) : Byte :=
  p.foldr (fun s acc => gfAdd (gfMul acc x) s) 0

end Sys2Proof.Machine
end

