-- ==== Sys2Proof/Machine/DecoderStages.lean ====
section
/-! DEFINITION. The stages of the block decoder (42_rs_decoder.md, R132 to R141) as functions on sequences. -/

namespace Sys2Proof.Machine

/-- The syndrome stage (R132): S_i is the block evaluated at alpha^(i+1), for i in 0 .. p-1. -/
def syndromes (w : List Byte) (p : Nat) : List Byte :=
  (List.range p).map (fun i => hornerPos w (alphaPow (i + 1)))

/-- The variables of the Berlekamp-Massey stage: Lam, B, L, m, b (R134). -/
structure BmVars where
  lam : List Byte
  prev : List Byte
  len : Nat
  shift : Nat
  disc : Byte
  deriving DecidableEq, Repr

/-- Their values at the start; the arrays have 256 elements (R134). -/
def bmInit : BmVars where
  lam := 0x01 :: List.replicate 255 0
  prev := 0x01 :: List.replicate 255 0
  len := 0
  shift := 1
  disc := 0x01

/-- The discrepancy d of step i: S[i] plus Lam[j]*S[i-j] for j in 1 .. L (R134). Here L <= i (R135 (iii)), so no
index is cut off (DEDUCED, log entry 11: unsafe only if R135 (iii) were false). -/
def discrepancy (syn : List Byte) (v : BmVars) (i : Nat) : Byte :=
  (List.range v.len).foldl
    (fun d j => gfAdd d (gfMul (v.lam.getD (j + 1) 0) (syn.getD (i - (j + 1)) 0)))
    (syn.getD i 0)

/-- Lam plus c * x^m * B, on the same number of elements as Lam (R134). -/
def bmUpdate (lam prev : List Byte) (m : Nat) (c : Byte) : List Byte :=
  List.zipWith gfAdd lam (List.replicate m 0 ++ pscale prev c)

/-- Step i of the Berlekamp-Massey stage (R134). The divisor b is never 0 (R135 (i)), so the quotient always exists
(DEDUCED, log entry 11). -/
def bmStep (syn : List Byte) (v : BmVars) (i : Nat) : BmVars :=
  let d := discrepancy syn v i
  if d = 0 then { v with shift := v.shift + 1 }
  else
    let lam := bmUpdate v.lam v.prev v.shift ((gfDiv d v.disc).getD 0)
    if 2 * v.len ≤ i then
      { lam := lam, prev := v.lam, len := i + 1 - v.len, shift := 1, disc := d }
    else { v with lam := lam, shift := v.shift + 1 }

/-- The Berlekamp-Massey stage over all the syndromes, S_0 first (R134). -/
def berlekampMassey (syn : List Byte) : BmVars :=
  (List.range syn.length).foldl (bmStep syn) bmInit

/-- The Chien stage (R137): the powers m of the error locators alpha^m found, m upward. -/
def rootPowers (lam : List Byte) : List Nat :=
  (List.range 255).filter (fun m => hornerDeg lam (alphaPowNeg m) == 0)

/-- The error-evaluator polynomial, S * Lambda mod x^p (R139). -/
def evaluator (syn lam : List Byte) (p : Nat) : List Byte :=
  (List.range p).map (fun j =>
    (List.range (j + 1)).foldl (fun acc i => gfAdd acc (gfMul (syn.getD i 0) (lam.getD (j - i) 0))) 0)

/-- The formal derivative of Lambda, `LP[0 .. 254]` (R140). -/
def derivative (lam : List Byte) : List Byte :=
  (List.range 255).map (fun i => if i % 2 = 0 then lam.getD (i + 1) 0 else 0)

/-- What the Forney stage leaves: the work copy, `ERRPOS`, `ERRMAG`, and whether no denominator was zero (R141). -/
structure ForneyRun where
  w : List Byte
  pos : List Byte
  mag : List Byte
  ok : Bool
  deriving DecidableEq, Repr

/-- The Forney stage over the root powers in the order found (R141): each root's magnitude is XORed into its symbol. A
zero denominator fails the block there and then (U14; DEDUCED, log entry 9: safe). -/
def forney (omega lp : List Byte) (n : Nat) : List Nat → List Byte → ForneyRun
  | [], w => ⟨w, [], [], true⟩
  | m :: ms, w =>
    let xinv := alphaPowNeg m
    match gfDiv (hornerDeg omega xinv) (hornerDeg lp xinv) with
    | none => ⟨w, [], [], false⟩
    | some y =>
      let j := n - 1 - m
      let rest := forney omega lp n ms (w.set j (gfAdd (w.getD j 0) y))
      { rest with pos := BitVec.ofNat 8 j :: rest.pos, mag := y :: rest.mag }

end Sys2Proof.Machine
end

