-- ==== Sys2Proof/Machine/Operands.lean ====
section
/-! DEFINITION. The implicit operands of the commands (R63) and the parameter check (R110). -/

namespace Sys2Proof.Machine

/-- `valid_params(n, k)` (R110). -/
def validParams (n k : Nat) : Bool := decide (0 < k ∧ k ≤ n ∧ n ≤ Config.nMax)

/-- `IN[start .. start + len - 1]` (R5, R28). -/
def State.inSymbols (s : State) (start len : Nat) : List Byte :=
  (List.range len).map (fun j => s.readIn (start + j))

/-- `IN[0 .. IN_LEN-1]`, the operand of the packet commands and of `POLY_EVAL` (R17, R63). -/
def State.operand (s : State) : List Byte := s.inSymbols 0 s.inLen.toNat

/-- ceil(len / k), the number of blocks of a payload (R115). -/
def blockCount (len k : Nat) : Nat := (len + k - 1) / k

/-- Block `b` of a payload: k symbols, zero where the payload has ended (R115). -/
def payloadBlock (payload : List Byte) (k b : Nat) : List Byte :=
  (List.range k).map (fun j => payload.getD (b * k + j) 0)

/-- The blocks of the frame `IN[0 .. IN_LEN-1]`, n symbols each, in order (R145). -/
def State.frameBlocks (s : State) (n : Nat) : List (List Byte) :=
  (List.range (s.inLen.toNat / n)).map (fun b => s.inSymbols (b * n) n)

end Sys2Proof.Machine
end

