-- ==== Sys2Proof/Machine/Decoder.lean ====
section
/-! DEFINITION. The block decoder as a whole (R130), the packet decoder's loop and de-padding (R145, R146), and
`DEC_BLK`, `DEC_PKT`. -/

namespace Sys2Proof.Machine

/-- What decoding one block leaves in the pipeline registers, and its result, none for Uncorrectable (R130). -/
structure BlockRun where
  syn : List Byte
  lambda : List Byte
  omega : List Byte
  errpos : List Byte
  errmag : List Byte
  ecount : Nat
  rootcnt : Nat
  data : Option (List Byte)
  deriving DecidableEq, Repr

/-- The pipeline as cleared at the start of every block (R20), with no result yet. -/
def BlockRun.cleared : BlockRun := ⟨[], [], [], [], [], 0, 0, none⟩

/-- The Forney stage and the result, once the root checks have passed (R139 to R142). -/
def correctBlock (w : List Byte) (n k : Nat) (lam : List Byte) (roots : List Nat) (run : BlockRun) : BlockRun :=
  let omega := evaluator run.syn lam (n - k)
  let f := forney omega (derivative lam) n roots w
  { run with
    omega := omega
    errpos := f.pos
    errmag := f.mag
    data := if f.ok then some (f.w.take k) else none }

/-- The stages after the syndromes, for a block whose syndromes are not all zero (R130, R134 to R142). -/
def solveBlock (w : List Byte) (n k : Nat) (run : BlockRun) : BlockRun :=
  let bm := berlekampMassey run.syn
  let run := { run with lambda := bm.lam, ecount := bm.len }
  if (n - k) / 2 < bm.len then run
  else
    let roots := rootPowers bm.lam
    let run := { run with rootcnt := roots.length }
    if roots.length ≠ bm.len then run
    else if roots.any (fun m => decide (n ≤ m)) then run
    else correctBlock w n k bm.lam roots run

/-- `decode_block(r, n, k)` (R130) on a private copy of the block. -/
def decodeBlock (r : List Byte) (n k : Nat) : BlockRun :=
  let run := { BlockRun.cleared with syn := syndromes r (n - k) }
  if run.syn.all (fun v => v == 0) then { run with data := some (r.take k) }
  else solveBlock r n k run

/-- The pipeline registers take what a block's decoding left; everything it did not write is cleared (R20 to R26).
The counts fit their eight bits (DEDUCED, log entry 12: safe). -/
def State.setPipeline (s : State) (run : BlockRun) : State :=
  { s with
    syn := RegFile.load run.syn
    lambda := RegFile.load run.lambda
    omega := RegFile.load run.omega
    errpos := RegFile.load run.errpos
    errmag := RegFile.load run.errmag
    ecount := BitVec.ofNat 8 run.ecount
    rootcnt := BitVec.ofNat 8 run.rootcnt }

/-- The end of a decoding command: the pipeline of the last block worked on, and the result, or `UNCORRECTABLE` (R144, R145, R187). -/
def finishDecode (run : BlockRun) (result : Option (List Byte)) (s : State) : Host.Outcome State Fault Refusal :=
  match result with
  | none => .next ((s.setPipeline run).fail .uncorrectable)
  | some data => .next (((s.setPipeline run).setOut data).complete .ok)

/-- The block loop of `DEC_PKT`: blocks in order, the first failure aborts; `last` is the latest block's run and `acc` the
data so far (R145). -/
def decodeBlocks (n k : Nat) : List (List Byte) → List Byte → BlockRun → BlockRun × Option (List Byte)
  | [], acc, last => (last, some acc)
  | blk :: rest, acc, _ =>
    let run := decodeBlock blk n k
    match run.data with
    | none => (run, none)
    | some d => decodeBlocks n k rest (acc ++ d) run

/-- De-padding: every trailing 0x00 is removed (R146). -/
def stripZeros (l : List Byte) : List Byte := (l.reverse.dropWhile (fun v => v == 0)).reverse

/-- `DEC_BLK` (R144). -/
def execDecBlk (s : State) : Host.Outcome State Fault Refusal :=
  let n := s.n.toNat
  let k := s.k.toNat
  if validParams n k = false then .next (s.fail .invalidCodeParams)
  else if s.inLen.toNat < n then .next (s.fail .invalidPacketSize)
  else
    let run := decodeBlock (s.inSymbols 0 n) n k
    finishDecode run run.data s

/-- `DEC_PKT` (R145). -/
def execDecPkt (s : State) : Host.Outcome State Fault Refusal :=
  let n := s.n.toNat
  let k := s.k.toNat
  if validParams n k = false then .next (s.fail .invalidCodeParams)
  else if s.inLen.toNat = 0 ∨ s.inLen.toNat % n ≠ 0 then .next (s.fail .invalidPacketSize)
  else
    let res := decodeBlocks n k (s.frameBlocks n) [] BlockRun.cleared
    finishDecode res.1 (res.2.map stripZeros) s

end Sys2Proof.Machine
end

