-- ==== Sys2Proof/Machine/Encoder.lean ====
section
/-! DEFINITION. The Reed-Solomon encoder (41_rs_encoder.md, R111 to R116) and `ENC_BLK`, `ENC_PKT`. -/

namespace Sys2Proof.Machine

/-- `genpoly(p)` (R111), degree-indexed: the product of (x + alpha^i) for i = 1 .. p. -/
def genpoly : Nat → List Byte
  | 0 => [0x01]
  | p + 1 => pmul (genpoly p) [alphaPow (p + 1), 0x01]

/-- One data symbol entering the feedback shift register (R112): `fb <- d + reg[0]`, each stage takes the stage after it
plus `fb` times its coefficient, g[p-1] for stage 0 down to g[0] for the last. -/
def shiftStep (g : List Byte) (p : Nat) (reg : List Byte) (d : Byte) : List Byte :=
  let fb := gfAdd d (reg.getD 0 0)
  (List.range p).map (fun s =>
    if s + 1 < p then gfAdd (reg.getD (s + 1) 0) (gfMul fb (g.getD (p - 1 - s) 0)) else gfMul fb (g.getD 0 0))

/-- `encode_block(d, n, k)` (R112): the register, p stages all 0x00, after the data symbols in order. -/
def encodeBlock (d : List Byte) (n k : Nat) : List Byte :=
  d.foldl (shiftStep (genpoly (n - k)) (n - k)) (List.replicate (n - k) 0)

/-- The codeword of data `d`: data first, then parity (R113). -/
def codeword (d : List Byte) (n k : Nat) : List Byte := d ++ encodeBlock d n k

/-- The frame of a payload: its blocks, the last one zero-padded, each followed by its parity (R115, R116). -/
def encodeFrame (payload : List Byte) (n k : Nat) : List Byte :=
  (List.range (blockCount payload.length k)).flatMap (fun b => codeword (payloadBlock payload k b) n k)

/-- `ENC_BLK` (R114). -/
def execEncBlk (s : State) : Host.Outcome State Fault Refusal :=
  let n := s.n.toNat
  let k := s.k.toNat
  if validParams n k = false then .next (s.fail .invalidCodeParams)
  else if s.inLen.toNat < k then .next (s.fail .invalidPacketSize)
  else .next (((s.setGpoly (genpoly (n - k))).setOut (encodeBlock (s.inSymbols 0 k) n k)).complete .ok)

/-- `ENC_PKT` (R115). -/
def execEncPkt (s : State) : Host.Outcome State Fault Refusal :=
  let n := s.n.toNat
  let k := s.k.toNat
  if validParams n k = false then .next (s.fail .invalidCodeParams)
  else if Config.bufBytes < blockCount s.inLen.toNat k * n then .next (s.fail .capacity)
  else .next (((s.setGpoly (genpoly (n - k))).setOut (encodeFrame s.operand n k)).complete .ok)

end Sys2Proof.Machine
end

