-- ==== Sys2Proof/Machine/GfCommands.lean ====
section
/-! DEFINITION. The commands of 40_gf_arithmetic.md: `NOP`, `GF_ADD`, `GF_MUL`, `GF_DIV`, `GF_INV`, `POLY_EVAL`. -/

namespace Sys2Proof.Machine

/-- `R <- v; complete(OK)` (R15). -/
def deliver (v : Byte) (s : State) : Host.Outcome State Fault Refusal :=
  .next ((s.setR v).complete .ok)

/-- `R <-` a quotient, or `complete(DIVIDE_BY_ZERO)` with `R` unchanged where there is none (R95, R96). -/
def deliverQuotient (q : Option Byte) (s : State) : Host.Outcome State Fault Refusal :=
  match q with
  | none => .next (s.complete .divideByZero)
  | some v => deliver v s

/-- `NOP` (R98). -/
def execNop (s : State) : Host.Outcome State Fault Refusal := .next (s.complete .ok)

/-- `GF_ADD a, b` (R93). -/
def execGfAdd (a b : Byte) (s : State) : Host.Outcome State Fault Refusal := deliver (gfAdd a b) s

/-- `GF_MUL a, b` (R94). -/
def execGfMul (a b : Byte) (s : State) : Host.Outcome State Fault Refusal := deliver (gfMul a b) s

/-- `GF_DIV a, b` (R95). -/
def execGfDiv (a b : Byte) (s : State) : Host.Outcome State Fault Refusal := deliverQuotient (gfDiv a b) s

/-- `GF_INV a` (R96). -/
def execGfInv (a : Byte) (s : State) : Host.Outcome State Fault Refusal := deliverQuotient (gfInv a) s

/-- `POLY_EVAL a` (R97): `N` and `K` are not used and not checked. -/
def execPolyEval (a : Byte) (s : State) : Host.Outcome State Fault Refusal := deliver (hornerPos s.operand a) s

end Sys2Proof.Machine
end

