-- ==== Sys2Proof/Machine/Dispatch.lean ====
section
/-! DEFINITION. The meaning of each command, one arm per constructor (R64). -/

namespace Sys2Proof.Machine

def exec (i : Instr) (s : State) : Host.Outcome State Fault Refusal :=
  match i with
  | .nop => Sys2Proof.Machine.execNop s
  | .gfAdd a b => Sys2Proof.Machine.execGfAdd a b s
  | .gfMul a b => Sys2Proof.Machine.execGfMul a b s
  | .gfDiv a b => Sys2Proof.Machine.execGfDiv a b s
  | .gfInv a => Sys2Proof.Machine.execGfInv a s
  | .polyEval a => Sys2Proof.Machine.execPolyEval a s
  | .encBlk => Sys2Proof.Machine.execEncBlk s
  | .decBlk => Sys2Proof.Machine.execDecBlk s
  | .encPkt => Sys2Proof.Machine.execEncPkt s
  | .decPkt => Sys2Proof.Machine.execDecPkt s
  | .ladderGet a => Sys2Proof.Machine.execLadderGet a s
  | .ladderNext a => Sys2Proof.Machine.execLadderNext a s

end Sys2Proof.Machine
end

