-- ==== Sys2Proof/Machine/Step.lean ====
section
/-! DEFINITION. One step: the host's next event, whole, with the whole execution of the command where it is a write to
`CMD` (R47, R205, R210). With no event pending nothing happens (DEDUCED, log entry 4: safe). -/

namespace Sys2Proof.Machine

/-- Carry out what an event asks. -/
def serve : Request → Host.Outcome State Fault Refusal
  | .done s => .next s
  | .run i s => exec i s

def step (s : State) : Host.Outcome State Fault Refusal :=
  match s.nextEvent with
  | none => .next s
  | some (e, t) => serve (t.take e)

/-- `s` with the command word `w` where the next step takes it: the host's next transaction writes it to `CMD` (R60).
The engine fetches nothing (R11, R50). -/
def State.withFetchWord (s : State) (nbits w : Nat) : State := s.issue (BitVec.ofNat 32 (w % 2 ^ nbits))

end Sys2Proof.Machine
end

