-- ==== Sys2Proof/Safety.lean ====
section
/-! DEFINITION. The terms the statements use: the invariants of the state, the classes of commands, what a command may
read and write, and arithmetic written without the tables. -/

namespace Sys2Proof.Machine

/-- `N` and `K` hold valid CodeParams, 0 < k <= n <= 255 (R110). -/
def State.paramsValid (s : State) : Prop := 0 < s.k.toNat ∧ s.k.toNat ≤ s.n.toNat ∧ s.n.toNat ≤ 255

/-- The syndromes of a block are all zero: the block, read position-indexed, vanishes at alpha^1 .. alpha^p (R113, R133). -/
def IsCodeword (c : List Byte) (p : Nat) : Prop := ∀ i, i < p → hornerPos c (alphaPow (i + 1)) = 0

/-! ### Invariants -/

/-- Memory is in its canonical form, lists symbols of `IN` and of `OUT[0 .. OUT_LEN-1]` only, and lists all of the latter:
so `OUT` is unspecified exactly from `OUT_LEN` on (R28, R29, R40). -/
structure State.MemInv (s : State) : Prop where
  wf : s.mem.wf
  windows : ∀ c ∈ s.mem, (inBase ≤ c.1 ∧ c.1 < inBase + Config.bufBytes) ∨
    (outBase ≤ c.1 ∧ c.1 < outBase + s.outLen.toNat)
  result : ∀ i, i < s.outLen.toNat → (s.mem.read? (outBase + i)).isSome = true

/-- What the result registers can hold: `LAMBDA` is cleared or has constant term 1 (R22), `ECOUNT` is at most 254 (R24),
`ERRPOS` and `ERRMAG` are 0 from `ROOTCNT` on (R26), `GPOLY` is cleared or a generator polynomial (R27). -/
structure State.PipelineInv (s : State) : Prop where
  lambda : s.lambda = RegFile.zero ∨ s.lambda[0] = 1
  ecount : s.ecount.toNat ≤ 254
  errpos : ∀ i : Fin 256, s.rootcnt.toNat ≤ i.val → s.errpos[i] = 0
  errmag : ∀ i : Fin 256, s.rootcnt.toNat ≤ i.val → s.errmag[i] = 0
  gpoly : s.gpoly = RegFile.zero ∨ ∃ p, p ≤ 254 ∧ s.gpoly = RegFile.load (genpoly p)

/-! ### Classes of commands (R222) -/

/-- The six commands that write `R` when they complete with `OK` (R15). -/
def writesR : Instr → Bool
  | .nop => false
  | .gfAdd _ _ => true
  | .gfMul _ _ => true
  | .gfDiv _ _ => true
  | .gfInv _ => true
  | .polyEval _ => true
  | .encBlk => false
  | .decBlk => false
  | .encPkt => false
  | .decPkt => false
  | .ladderGet _ => false
  | .ladderNext _ => true

/-- The two commands that write `GPOLY` (R27). -/
def isEncoder (i : Instr) : Bool := i == .encBlk || i == .encPkt

/-- The two commands that write the pipeline registers (R20). -/
def isDecoder (i : Instr) : Bool := i == .decBlk || i == .decPkt

/-- The four codec commands, which write `OUT` and `OUT_LEN` (R18). -/
def isCodec (i : Instr) : Bool := isEncoder i || isDecoder i

/-- `LADDER_GET`, the only command that writes `N` and `K` (R16). -/
def isLadderGet : Instr → Bool
  | .ladderGet _ => true
  | .nop => false
  | .gfAdd _ _ => false
  | .gfMul _ _ => false
  | .gfDiv _ _ => false
  | .gfInv _ => false
  | .polyEval _ => false
  | .encBlk => false
  | .decBlk => false
  | .encPkt => false
  | .decPkt => false
  | .ladderNext _ => false

/-- The codes a command may complete with, from the column "raised by" of rule R181. -/
def mayComplete : Instr → List Completion
  | .nop => [.ok]
  | .gfAdd _ _ => [.ok]
  | .gfMul _ _ => [.ok]
  | .gfDiv _ _ => [.ok, .divideByZero]
  | .gfInv _ => [.ok, .divideByZero]
  | .polyEval _ => [.ok]
  | .encBlk => [.ok, .invalidCodeParams, .invalidPacketSize]
  | .decBlk => [.ok, .invalidCodeParams, .invalidPacketSize, .uncorrectable]
  | .encPkt => [.ok, .invalidCodeParams, .capacity]
  | .decPkt => [.ok, .invalidCodeParams, .invalidPacketSize, .uncorrectable]
  | .ladderGet _ => [.ok, .invalidCodeParams]
  | .ladderNext _ => [.ok]

/-! ### What two states share -/

/-- The pipeline registers of two states agree (R20, R222). -/
def State.samePipeline (s t : State) : Prop :=
  s.syn = t.syn ∧ s.lambda = t.lambda ∧ s.omega = t.omega ∧ s.errpos = t.errpos ∧ s.errmag = t.errmag ∧
  s.ecount = t.ecount ∧ s.rootcnt = t.rootcnt

/-- Every symbol of `IN` reads the same (R28). -/
def State.sameIn (s t : State) : Prop := ∀ i, i < Config.bufBytes → s.readIn i = t.readIn i

/-- Every symbol of `OUT` reads the same (R29). -/
def State.sameOut (s t : State) : Prop := ∀ i, i < Config.bufBytes → s.readOut i = t.readOut i

/-- `t` differs from `s` at most in what a codec command may write beside the pipeline and `GPOLY`: the code, `OUT_LEN`
and `OUT` (R222). The memory is compared by reading: every symbol of `IN` reads as before. -/
def State.codecFrame (s t : State) : Prop :=
  t.cmd = s.cmd ∧ t.r = s.r ∧ t.n = s.n ∧ t.k = s.k ∧ t.inLen = s.inLen ∧ t.inEpoch = s.inEpoch ∧
  t.pending = s.pending ∧ t.response = s.response ∧ s.sameIn t

/-- The inputs a command is defined to read agree: `N`, `K`, `IN_LEN`, `IN[0 .. IN_LEN-1]` (R206). -/
def State.sameInputs (s t : State) : Prop :=
  s.n = t.n ∧ s.k = t.k ∧ s.inLen = t.inLen ∧ ∀ i, i < s.inLen.toNat → s.readIn i = t.readIn i

/-- `OUT[0 .. OUT_LEN-1]` of `t` is the sequence `l` (R18, R29). -/
def State.outIs (t : State) (l : List Byte) : Prop :=
  t.outLen.toNat = l.length ∧ ∀ j, j < l.length → t.readOut j = l.getD j 0

/-- The pipeline registers of `t` are those a block's decoding left (R20). -/
def State.pipelineIs (t : State) (run : BlockRun) : Prop :=
  t.syn = RegFile.load run.syn ∧ t.lambda = RegFile.load run.lambda ∧ t.omega = RegFile.load run.omega ∧
  t.errpos = RegFile.load run.errpos ∧ t.errmag = RegFile.load run.errmag ∧
  t.ecount.toNat = run.ecount ∧ t.rootcnt.toNat = run.rootcnt

/-- The codec command `i` completes with the error `c` before any block is worked on: `OUT_LEN` becomes 0, and beside the
code and `OUT` nothing changes (R110, R187). -/
def State.failsWith (s : State) (i : Instr) (c : Completion) : Prop :=
  ∃ t, exec i s = .next t ∧ t.code = c ∧ t.outLen = 0 ∧ s.codecFrame t ∧ s.samePipeline t ∧ t.gpoly = s.gpoly

/-! ### The register map, as the table of rule R40 prints it -/

/-- The indices of rule R40 that name no location. -/
def unmappedIndex (x : Nat) : Prop :=
  (0x0000A ≤ x ∧ x ≤ 0x000FF) ∨ (0x00700 ≤ x ∧ x ≤ 0x0FFFF) ∨ x = 0x1FFFF ∨ (0x2FFFF ≤ x ∧ x ≤ 0x3FFFF)

/-- The indices of rule R40 that are read-only. -/
def readOnlyIndex (x : Nat) : Prop :=
  x = 0x00001 ∨ x = 0x00002 ∨ (0x00006 ≤ x ∧ x ≤ 0x00009) ∨ (0x00100 ≤ x ∧ x ≤ 0x006FF) ∨
  (0x20000 ≤ x ∧ x ≤ 0x2FFFE)

/-- The word a read of each mapped index returns, zero-extended (R40, R41). -/
inductive ReadsAs (s : State) : Nat → Word → Prop where
  | cmd : ReadsAs s 0x00000 s.cmd
  | status : ReadsAs s 0x00001 (s.code.toBits.setWidth 32)
  | r : ReadsAs s 0x00002 (s.r.setWidth 32)
  | n : ReadsAs s 0x00003 (s.n.setWidth 32)
  | k : ReadsAs s 0x00004 (s.k.setWidth 32)
  | inLen : ReadsAs s 0x00005 (s.inLen.setWidth 32)
  | outLen : ReadsAs s 0x00006 (s.outLen.setWidth 32)
  | ecount : ReadsAs s 0x00007 (s.ecount.setWidth 32)
  | rootcnt : ReadsAs s 0x00008 (s.rootcnt.setWidth 32)
  | ladderLen : ReadsAs s 0x00009 6
  | syn (i : Fin 256) : ReadsAs s (0x00100 + i.val) (s.syn[i].setWidth 32)
  | lambda (i : Fin 256) : ReadsAs s (0x00200 + i.val) (s.lambda[i].setWidth 32)
  | omega (i : Fin 256) : ReadsAs s (0x00300 + i.val) (s.omega[i].setWidth 32)
  | errpos (i : Fin 256) : ReadsAs s (0x00400 + i.val) (s.errpos[i].setWidth 32)
  | errmag (i : Fin 256) : ReadsAs s (0x00500 + i.val) (s.errmag[i].setWidth 32)
  | gpoly (i : Fin 256) : ReadsAs s (0x00600 + i.val) (s.gpoly[i].setWidth 32)
  | inSymbol (i : Nat) (h : i < 65535) : ReadsAs s (0x10000 + i) ((s.readIn i).setWidth 32)
  | outSymbol (i : Nat) (h : i < 65535) : ReadsAs s (0x20000 + i) ((s.readOut i).setWidth 32)

/-! ### Arithmetic without the tables -/

/-- The exclusive-or of a sequence of symbols. -/
def xorSum (l : List Byte) : Byte := l.foldl (fun a b => a ^^^ b) 0

/-- Carry-less multiplication of two symbols as polynomials over GF(2) (R88 (iv)). -/
def carrylessMul (a b : Byte) : BitVec 16 :=
  (List.range 8).foldl (fun acc i => if b.getLsbD i then acc ^^^ (a.setWidth 16 <<< i) else acc) 0

/-- Reduction modulo 0x11D by long division (R88 (iv)). -/
def reduceModPoly (v : BitVec 16) : Byte :=
  ((List.range 8).foldl (fun v i => if v.getLsbD (15 - i) then v ^^^ ((0x11D : BitVec 16) <<< (7 - i)) else v) v).setWidth 8

/-- The product in GF(256): carry-less multiplication reduced modulo 0x11D (R88 (iv)). -/
def polyProduct (a b : Byte) : Byte := reduceModPoly (carrylessMul a b)

/-- `a` to the power `e` (R92's x^e), with a^0 = 1. -/
def fieldPow (a : Byte) : Nat → Byte
  | 0 => 1
  | e + 1 => gfMul (fieldPow a e) a

/-! ### What the pipeline registers say of a block, read from the registers alone -/

/-- Element `i` of a register file, 0x00 beyond its end. -/
def RegFile.symbolAt (f : RegFile) (i : Nat) : Byte := f.toList.getD i 0

/-- The polynomial whose coefficients, degree-indexed, stand in a register file, at alpha^(-m) (R92, R137), with
alpha^(-m) = alpha^(255-m). -/
def RegFile.valueAt (f : RegFile) (m : Nat) : Byte :=
  xorSum ((List.range 256).map (fun j => gfMul (f.symbolAt j) (alphaPow (j * (255 - m)))))

/-- The formal derivative of that polynomial, its odd-degree terms over x, at alpha^(-m) (R140). -/
def RegFile.derivativeAt (f : RegFile) (m : Nat) : Byte :=
  xorSum ((List.range 255).map
    (fun j => if j % 2 = 0 then gfMul (f.symbolAt (j + 1)) (alphaPow (j * (255 - m))) else 0))

/-- The root powers that `LAMBDA` shows, m upward: the m < 255 with Lambda(alpha^(-m)) = 0 (R137). -/
def State.locatorPowers (t : State) : List Nat :=
  (List.range 255).filter (fun m => t.lambda.valueAt m == 0)

/-- The magnitude that `ERRPOS` and `ERRMAG` record for block position `j`: the sum over r < `ROOTCNT`, 0x00 for a
position not named (R26, R141). -/
def State.errorAt (t : State) (j : Nat) : Byte :=
  xorSum ((List.range t.rootcnt.toNat).map
    (fun r => if (t.errpos.symbolAt r).toNat = j then t.errmag.symbolAt r else 0))

/-- The block in `IN` of `s` with the magnitudes recorded in `t` XORed into its symbols (R141). -/
def State.corrected (s t : State) : List Byte :=
  (List.range s.n.toNat).map (fun j => s.readIn j ^^^ t.errorAt j)

/-- In how many positions the block in `IN` differs from the block `c`. -/
def State.distanceTo (s : State) (c : List Byte) : Nat :=
  (List.range c.length).countP (fun j => s.readIn j != c.getD j 0)

end Sys2Proof.Machine
end

