-- ==== Sys2Proof/Certificates/Slice0/Obligations.lean ====
section
/-! DEFINITION. The statements for the provers, each from the numbered rules of spec/. A statement about a free value
(`Config.unwrittenIn`, `Config.unspecifiedOut`) holds whatever the value is. -/

open Sys2Proof Sys2Proof.Machine

/-! ### Encoding (30_encoding.md) -/

/-- R61 to R64: decoding the word of an instruction gives it back, with every immediate; and every instruction is well-formed. -/
def Obligations.DecodeOfEncode : Prop :=
  ∀ i : Instr, i.wellFormed = true ∧ decode (encode i) = .ok i

/-- R61 to R65: a legal word is the word of the instruction it decodes to, so no bit of a legal word is ignored. -/
def Obligations.EncodeOfDecode : Prop :=
  ∀ (w : Word) (i : Instr), decode w = .ok i → encode i = w

/-- R62, R65: exactly the words whose `op` is assigned, whose `zero` is 0 and whose unused immediates are 0 are legal. -/
def Obligations.LegalIffFieldsWellFormed : Prop :=
  ∀ w : Word, (∃ i, decode w = .ok i) ↔ (fieldsOf w).wellFormed = true

/-- R64: no two rows of the opcode map match the same word. -/
def Obligations.OpcodeRowsDisjoint : Prop :=
  opcodeTable.Pairwise (fun x y => ∀ w : Word, ¬(w &&& x.mask = x.pattern ∧ w &&& y.mask = y.pattern))

/-- Words written out in 40 to 43 and 95_test_vectors.md decode to the commands they stand for; illegal ones do not decode. -/
def Obligations.SampleWordsDecode : Prop :=
  decode 0x00835702 = .ok (.gfMul 0x57 0x83) ∧ decode 0x00000204 = .ok (.gfInv 0x02) ∧
  decode 0x00835703 = .ok (.gfDiv 0x57 0x83) ∧ decode 0x00000205 = .ok (.polyEval 0x02) ∧
  decode 0x00000010 = .ok .encBlk ∧ decode 0x00000011 = .ok .decBlk ∧ decode 0x00000012 = .ok .encPkt ∧
  decode 0x00000013 = .ok .decPkt ∧ decode 0x00000320 = .ok (.ladderGet 3) ∧
  decode 0x01835702 = .error .zeroFieldSet ∧ decode 0x00000006 = .error .unassignedOp ∧
  decode 0x00010520 = .error .unusedB ∧ decode 0x00000110 = .error .unusedA

/-! ### Host transactions and reset (10_state.md, 20_memory.md, 60_exceptions.md, 70_reset_and_hazards.md) -/

/-- R13, R60: a step that takes a write of a legal word to `CMD` stores the word, acknowledges, and runs the command it
decodes to; the transaction is taken from the pending ones (log entries 4, 6). -/
def Obligations.StepRunsDecodedCommand : Prop :=
  ∀ (s : State) (rest : List HostEvent) (w : Word) (i : Instr),
    s.pending = .write 0 w :: rest → decode w = .ok i →
    step s = exec i { s with pending := rest, cmd := w, response := .ack }

/-- R65: an illegal word completes with `ILLEGAL_COMMAND`, is recorded in `CMD`, and changes nothing else. -/
def Obligations.IllegalWordCompletes : Prop :=
  ∀ (s : State) (rest : List HostEvent) (w : Word) (e : IllegalWord),
    s.pending = .write 0 w :: rest → decode w = .error e →
    step s = .next { s with pending := rest, cmd := w, response := .ack, code := .illegalCommand }

/-- R186, with the ranges of R40: a read of an unmapped index, or a write to an unmapped or read-only index, is answered
with a bus error and changes no state of the engine. -/
def Obligations.BusErrorChangesNothing : Prop :=
  ∀ (s : State) (rest : List HostEvent) (idx : RegIndex),
    (s.pending = .read idx :: rest → unmappedIndex idx.toNat →
      step s = .next { s with pending := rest, response := .busError }) ∧
    (∀ v : Word, s.pending = .write idx v :: rest → unmappedIndex idx.toNat ∨ readOnlyIndex idx.toNat →
      step s = .next { s with pending := rest, response := .busError })

/-- R41, with the map of R40: a read of a mapped index returns its content, zero-extended, and has no side effect. -/
def Obligations.HostReadReturnsContent : Prop :=
  ∀ (s : State) (rest : List HostEvent) (idx : RegIndex) (w : Word),
    s.pending = .read idx :: rest → ReadsAs s idx.toNat w →
    step s = .next { s with pending := rest, response := .data w }

/-- R42: a write to `N`, `K` or `IN_LEN` keeps the low 16 bits of the word and has no other effect. -/
def Obligations.HostWriteParameter : Prop :=
  ∀ (s : State) (rest : List HostEvent) (v : Word),
    (s.pending = .write 3 v :: rest →
      step s = .next { s with pending := rest, response := .ack, n := v.setWidth 16 }) ∧
    (s.pending = .write 4 v :: rest →
      step s = .next { s with pending := rest, response := .ack, k := v.setWidth 16 }) ∧
    (s.pending = .write 5 v :: rest →
      step s = .next { s with pending := rest, response := .ack, inLen := v.setWidth 16 })

/-- R42, R28: a write to index 0x10000 + i keeps the low 8 bits in `IN[i]`; every other symbol of `IN`, all of `OUT` and
every register stay. -/
def Obligations.HostWriteInSymbol : Prop :=
  ∀ (s : State) (rest : List HostEvent) (idx : RegIndex) (v : Word) (i : Nat),
    s.pending = .write idx v :: rest → i < 65535 → idx.toNat = 0x10000 + i →
    ∃ t, step s = .next t ∧ t = { s with pending := rest, response := .ack, mem := t.mem } ∧
      t.readIn i = v.setWidth 8 ∧ (∀ j, j < 65535 → j ≠ i → t.readIn j = s.readIn j) ∧ s.sameOut t

/-- R200, R33: a reset puts every piece of state into its reset value; `IN` and `OUT` get fresh free values, and the host's
further events stay (the model's own fields: log entries 1, 2, 4, 6, 8). -/
def Obligations.ResetEventRestores : Prop :=
  ∀ (s : State) (rest : List HostEvent), s.pending = .reset :: rest →
    step s = .next { State.reset with
      inEpoch := s.inEpoch + 1, outEpoch := s.outEpoch + 1, pending := rest }

/-- R33: what the registers and register files hold after reset. -/
def Obligations.ResetValues : Prop :=
  State.reset.cmd = 0 ∧ State.reset.code = .ok ∧ State.reset.r = 0 ∧ State.reset.n = 0 ∧ State.reset.k = 0 ∧
  State.reset.inLen = 0 ∧ State.reset.outLen = 0 ∧ State.reset.ecount = 0 ∧ State.reset.rootcnt = 0 ∧
  State.reset.readLocation .ladderLen = 6 ∧
  ∀ (f : FileName) (i : Fin 256), State.reset.readLocation (.file f i) = 0

/-- R180, R205, R208: no transaction stops the engine; each is taken whole, in order, and leaves the next one to be taken. -/
def Obligations.StepAlwaysAnswers : Prop :=
  ∀ s : State, ∃ t, step s = .next t ∧ t.pending = s.pending.tail

/-- R28, R52, R200: a symbol of `IN` changes only by a host write to its index or by a reset; no command changes it. -/
def Obligations.OnlyHostWritesIn : Prop :=
  ∀ (s t : State) (i : Nat), i < 65535 → step s = .next t → t.readIn i ≠ s.readIn i →
    (∃ rest, s.pending = .reset :: rest) ∨
    (∃ (rest : List HostEvent) (idx : RegIndex) (v : Word), s.pending = .write idx v :: rest ∧ idx.toNat = 0x10000 + i)

/-! ### The field and its commands (40_gf_arithmetic.md) -/

/-- R80, R81: the tables, checked against multiplication by x reduced by long division. -/
def Obligations.ExpLogTables : Prop :=
  expAt 0 = 1 ∧ expAt 255 = 1 ∧ (∀ i, i < 255 → expAt (i + 1) = polyProduct (expAt i) 2) ∧
  (∀ i, i < 255 → logAt (expAt i) = i) ∧ (∀ v : Byte, v ≠ 0 → expAt (logAt v) = v)

/-- R88 (iii): `mul` is commutative, associative, distributes over `add`, and has identity 0x01. -/
def Obligations.FieldLaws : Prop :=
  ∀ a b c : Byte, gfMul a b = gfMul b a ∧ gfMul (gfMul a b) c = gfMul a (gfMul b c) ∧
    gfMul a (gfAdd b c) = gfAdd (gfMul a b) (gfMul a c) ∧ gfMul a 1 = a

/-- R98: `NOP`, the all-zero word, does nothing but report `OK`. -/
def Obligations.NopReportsOk : Prop :=
  decode 0x00000000 = .ok .nop ∧ ∀ s : State, exec .nop s = .next { s with code := .ok }

/-- R93: `GF_ADD`, whose word is 0, b, a, 0x01 from the most significant byte down, leaves the exclusive-or of its immediates in `R`, with code `OK`, and changes nothing else. -/
def Obligations.GfAddResult : Prop :=
  ∀ a b : Byte, decode (0x00#8 ++ b ++ a ++ 0x01#8) = .ok (.gfAdd a b) ∧
    ∀ s : State, exec (.gfAdd a b) s = .next { s with r := a ^^^ b, code := .ok }

/-- R94, R88 (iv): `GF_MUL` leaves in `R` the carry-less product reduced modulo 0x11D, with code `OK`, and changes nothing
else. -/
def Obligations.GfMulResult : Prop :=
  ∀ (a b : Byte) (s : State), exec (.gfMul a b) s = .next { s with r := polyProduct a b, code := .ok }

/-- R95, R88 (iii): for b nonzero `GF_DIV` leaves in `R` the q with q * b = a, with code `OK`, and changes nothing else. -/
def Obligations.GfDivResult : Prop :=
  ∀ (a b : Byte) (s : State), b ≠ 0 →
    ∃ q : Byte, polyProduct q b = a ∧ exec (.gfDiv a b) s = .next { s with r := q, code := .ok }

/-- R96, R88 (i): for a nonzero `GF_INV` leaves in `R` the q with a * q = 1, with code `OK`, and changes nothing else. -/
def Obligations.GfInvResult : Prop :=
  ∀ (a : Byte) (s : State), a ≠ 0 →
    ∃ q : Byte, polyProduct a q = 1 ∧ exec (.gfInv a) s = .next { s with r := q, code := .ok }

/-- R95, R96: division by zero and the inverse of zero complete with `DIVIDE_BY_ZERO` and change nothing else. -/
def Obligations.DivideByZeroCompletes : Prop :=
  ∀ (a : Byte) (s : State), exec (.gfDiv a 0) s = .next { s with code := .divideByZero } ∧
    exec (.gfInv 0) s = .next { s with code := .divideByZero }

/-- R97, R92: `POLY_EVAL a` leaves in `R` the sum of `IN[j]` * a^(IN_LEN-1-j), with code `OK`, and changes nothing else. -/
def Obligations.PolyEvalResult : Prop :=
  ∀ (a : Byte) (s : State), exec (.polyEval a) s = .next { s with
    r := xorSum ((List.range s.inLen.toNat).map (fun j => gfMul (s.readIn j) (fieldPow a (s.inLen.toNat - 1 - j)))),
    code := .ok }

/-! ### The ladder (43_code_ladder.md) -/

/-- R170: the six levels, each with valid parameters. -/
def Obligations.LadderTable : Prop :=
  ladder.length = 6 ∧ (∀ i, i < 6 → ladder[i]? = some ⟨223 + 2 ^ i, 223⟩) ∧
  ∀ c ∈ ladder, 0 < c.k ∧ c.k ≤ c.n ∧ c.n ≤ 255

/-- R171: `LADDER_GET a` is the word 0, 0, a, 0x20: a level of the ladder is loaded into `N` and `K`; any other completes with `INVALID_CODE_PARAMS`; nothing else changes. -/
def Obligations.LadderGetResult : Prop :=
  ∀ a : Byte, decode (0x00#8 ++ 0x00#8 ++ a ++ 0x20#8) = .ok (.ladderGet a) ∧
    ∀ s : State, exec (.ladderGet a) s =
    if a.toNat < 6 then .next { s with n := BitVec.ofNat 16 (223 + 2 ^ a.toNat), k := 223, code := .ok }
    else .next { s with code := .invalidCodeParams }

/-- R172: `LADDER_NEXT a`, the word 0, 0, a, 0x21, leaves min(a + 1, 5) in `R`, with code `OK`, and changes nothing else. -/
def Obligations.LadderNextResult : Prop :=
  ∀ a : Byte, decode (0x00#8 ++ 0x00#8 ++ a ++ 0x21#8) = .ok (.ladderNext a) ∧
    ∀ s : State, exec (.ladderNext a) s =
    .next { s with r := BitVec.ofNat 8 (min (a.toNat + 1) 5), code := .ok }

/-! ### The codec commands (41_rs_encoder.md, 42_rs_decoder.md) -/

/-- R110, R184: with invalid parameters each codec command sets `OUT_LEN` to 0 and completes with `INVALID_CODE_PARAMS`,
whatever `IN_LEN` is, and changes nothing else but the unspecified `OUT`. -/
def Obligations.InvalidParamsComplete : Prop :=
  ∀ (s : State) (i : Instr), isCodec i = true → ¬s.paramsValid → s.failsWith i .invalidCodeParams

/-- R114, R144, R145: too little input for `ENC_BLK` and `DEC_BLK`, and a frame that is empty or no multiple of n for
`DEC_PKT`, complete with `INVALID_PACKET_SIZE`. -/
def Obligations.WrongSizeCompletes : Prop :=
  ∀ s : State, s.paramsValid →
    (s.inLen.toNat < s.k.toNat → s.failsWith .encBlk .invalidPacketSize) ∧
    (s.inLen.toNat < s.n.toNat → s.failsWith .decBlk .invalidPacketSize) ∧
    (s.inLen.toNat = 0 ∨ s.inLen.toNat % s.n.toNat ≠ 0 → s.failsWith .decPkt .invalidPacketSize)

/-- R115: a frame of more than 65535 symbols completes `ENC_PKT` with `CAPACITY`. -/
def Obligations.CapacityCompletes : Prop :=
  ∀ s : State, s.paramsValid → 65535 < (s.inLen.toNat + s.k.toNat - 1) / s.k.toNat * s.n.toNat →
    s.failsWith .encPkt .capacity

/-- R111: the generator polynomial of p parity symbols has degree p, is monic, has constant term alpha^(p(p+1)/2), and
vanishes at alpha^1 .. alpha^p. -/
def Obligations.GenpolyMonicWithRoots : Prop :=
  ∀ p, (genpoly p).length = p + 1 ∧ (genpoly p).getD p 0 = 1 ∧
    (genpoly p).getD 0 0 = alphaPow (p * (p + 1) / 2) ∧
    ∀ i, 1 ≤ i → i ≤ p → hornerDeg (genpoly p) (alphaPow i) = 0

/-- R114, R27: `ENC_BLK` with valid parameters and enough input completes with `OK`: the n - k parity symbols in `OUT`, the
generator polynomial in `GPOLY`, the pipeline and everything else unchanged. -/
def Obligations.EncBlkResult : Prop :=
  ∀ s : State, s.paramsValid → s.k.toNat ≤ s.inLen.toNat →
    ∃ t, exec .encBlk s = .next t ∧ t.code = .ok ∧ t.outLen.toNat = s.n.toNat - s.k.toNat ∧
      t.outIs (encodeBlock (s.inSymbols 0 s.k.toNat) s.n.toNat s.k.toNat) ∧
      t.gpoly = RegFile.load (genpoly (s.n.toNat - s.k.toNat)) ∧ s.codecFrame t ∧ s.samePipeline t

/-- R113: the data symbols followed by the parity that `ENC_BLK` leaves in `OUT` form a codeword: every syndrome is zero. -/
def Obligations.EncBlkMakesCodeword : Prop :=
  ∀ s t : State, s.paramsValid → s.k.toNat ≤ s.inLen.toNat → exec .encBlk s = .next t →
    IsCodeword (s.inSymbols 0 s.k.toNat ++ (List.range (s.n.toNat - s.k.toNat)).map t.readOut)
      (s.n.toNat - s.k.toNat)

/-- R115, R116: `ENC_PKT` whose frame fits completes with `OK`: block b of the frame holds the k payload symbols from b*k,
zero where the payload has ended, then their parity; `GPOLY` is written, everything else unchanged. -/
def Obligations.EncPktResult : Prop :=
  ∀ s : State, s.paramsValid → (s.inLen.toNat + s.k.toNat - 1) / s.k.toNat * s.n.toNat ≤ 65535 →
    ∃ t, exec .encPkt s = .next t ∧ t.code = .ok ∧
      t.outLen.toNat = (s.inLen.toNat + s.k.toNat - 1) / s.k.toNat * s.n.toNat ∧
      (∀ b, b < (s.inLen.toNat + s.k.toNat - 1) / s.k.toNat →
        (∀ j, j < s.k.toNat → t.readOut (b * s.n.toNat + j) =
          if b * s.k.toNat + j < s.inLen.toNat then s.readIn (b * s.k.toNat + j) else 0) ∧
        (∀ q, q < s.n.toNat - s.k.toNat → t.readOut (b * s.n.toNat + s.k.toNat + q) =
          (encodeBlock ((List.range s.k.toNat).map (fun j => t.readOut (b * s.n.toNat + j)))
            s.n.toNat s.k.toNat).getD q 0)) ∧
      t.gpoly = RegFile.load (genpoly (s.n.toNat - s.k.toNat)) ∧ s.codecFrame t ∧ s.samePipeline t

/-- R132, R21: `DEC_BLK` leaves in `SYN[i]`, i < p, the sum over all positions j of `IN[j]` * alpha^((i+1)(n-1-j)), and 0
from p on, whether the block can be corrected or not. -/
def Obligations.DecBlkSyndromes : Prop :=
  ∀ s : State, s.paramsValid → s.n.toNat ≤ s.inLen.toNat →
    ∃ t, exec .decBlk s = .next t ∧
      (∀ i : Fin 256, i.val < s.n.toNat - s.k.toNat → t.syn[i] =
        xorSum ((List.range s.n.toNat).map
          (fun j => gfMul (s.readIn j) (alphaPow ((i.val + 1) * (s.n.toNat - 1 - j)))))) ∧
      (∀ i : Fin 256, s.n.toNat - s.k.toNat ≤ i.val → t.syn[i] = 0)

/-- R133: a block whose syndromes are all zero completes `DEC_BLK` with `OK` and its first k symbols verbatim; the pipeline
shows no error. -/
def Obligations.DecBlkCleanBlock : Prop :=
  ∀ s : State, s.paramsValid → s.n.toNat ≤ s.inLen.toNat →
    IsCodeword (s.inSymbols 0 s.n.toNat) (s.n.toNat - s.k.toNat) →
    ∃ t, exec .decBlk s = .next t ∧ t.code = .ok ∧ t.outIs (s.inSymbols 0 s.k.toNat) ∧
      t.syn = RegFile.zero ∧ t.lambda = RegFile.zero ∧ t.omega = RegFile.zero ∧ t.errpos = RegFile.zero ∧
      t.errmag = RegFile.zero ∧ t.ecount = 0 ∧ t.rootcnt = 0 ∧ t.gpoly = s.gpoly ∧ s.codecFrame t

/-- R130, R136, R138, R144: `DEC_BLK` on n symbols with valid parameters leaves in the pipeline what decoding the block
leaves, and completes with `OK` and the k symbols or with `UNCORRECTABLE` and none. It is the latter whenever `ECOUNT` exceeds
floor((n-k)/2), and then the Chien stage did not run; `ROOTCNT` differs from `ECOUNT`; or the counts agree but a root power
is >= n; and in all three cases the Forney stage did not run. -/
def Obligations.DecBlkOutcome : Prop :=
  ∀ s : State, s.paramsValid → s.n.toNat ≤ s.inLen.toNat →
    ∃ t, exec .decBlk s = .next t ∧
      t.pipelineIs (decodeBlock (s.inSymbols 0 s.n.toNat) s.n.toNat s.k.toNat) ∧
      (∀ d, (decodeBlock (s.inSymbols 0 s.n.toNat) s.n.toNat s.k.toNat).data = some d →
        t.code = .ok ∧ t.outLen = s.k ∧ t.outIs d) ∧
      ((decodeBlock (s.inSymbols 0 s.n.toNat) s.n.toNat s.k.toNat).data = none →
        t.code = .uncorrectable ∧ t.outLen = 0) ∧
      ((s.n.toNat - s.k.toNat) / 2 < t.ecount.toNat → t.code = .uncorrectable ∧ t.rootcnt = 0) ∧
      (t.rootcnt ≠ t.ecount → t.code = .uncorrectable ∧ t.omega = RegFile.zero ∧ t.errpos = RegFile.zero ∧
        t.errmag = RegFile.zero) ∧
      (t.ecount ≠ 0 → t.rootcnt = t.ecount → (∃ m ∈ t.locatorPowers, s.n.toNat ≤ m) →
        t.code = .uncorrectable ∧ t.omega = RegFile.zero ∧ t.errpos = RegFile.zero ∧ t.errmag = RegFile.zero) ∧
      t.gpoly = s.gpoly ∧ s.codecFrame t

/-- R138: "decoding goes on exactly when Lambda has e distinct roots, all of them locators of positions 0..n-1". The registers
show whether `DEC_BLK` completed with `OK`: no error was counted, or at most floor((n-k)/2) were, as many as `LAMBDA` has
roots, all inside the block. So the zero denominator of R141 never fails a block. -/
def Obligations.DecBlkOkExactly : Prop :=
  ∀ s : State, s.paramsValid → s.n.toNat ≤ s.inLen.toNat →
    ∃ t, exec .decBlk s = .next t ∧
      (t.code = .ok ↔ t.ecount = 0 ∨ (t.ecount.toNat ≤ (s.n.toNat - s.k.toNat) / 2 ∧
        t.locatorPowers.length = t.ecount.toNat ∧ ∀ m ∈ t.locatorPowers, m < s.n.toNat))

/-- R137, R139, R140, R141, R23, R25, R26: where the Chien stage ran, `ROOTCNT` is the number of powers m < 255 with
Lambda(alpha^(-m)) = 0. Where the block is not failed, `OMEGA` is S*Lambda mod x^p, and the r-th root power m, m upward, is
inside the block and has `ERRPOS[r]` = n-1-m and `ERRMAG[r]` the quotient of Omega(alpha^(-m)) by Lambda'(alpha^(-m)). -/
def Obligations.DecBlkPipelineContent : Prop :=
  ∀ s : State, s.paramsValid → s.n.toNat ≤ s.inLen.toNat →
    ∃ t, exec .decBlk s = .next t ∧
      (t.ecount ≠ 0 → t.ecount.toNat ≤ (s.n.toNat - s.k.toNat) / 2 → t.rootcnt.toNat = t.locatorPowers.length) ∧
      (t.code = .ok →
        (∀ j, j < 256 → t.omega.symbolAt j =
          if j < s.n.toNat - s.k.toNat then
            xorSum ((List.range (j + 1)).map (fun i => gfMul (t.syn.symbolAt i) (t.lambda.symbolAt (j - i))))
          else 0) ∧
        (∀ r, r < t.rootcnt.toNat → ∃ m, t.locatorPowers[r]? = some m ∧ m < s.n.toNat ∧
          (t.errpos.symbolAt r).toNat = s.n.toNat - 1 - m ∧ t.lambda.derivativeAt m ≠ 0 ∧
          gfMul (t.errmag.symbolAt r) (t.lambda.derivativeAt m) = t.omega.valueAt m))

/-- R143 (i) for one error: a codeword with one symbol altered, at any position and by any nonzero value, is recovered by
`DEC_BLK` whenever n - k >= 2, and the pipeline names the position and the magnitude. -/
def Obligations.SingleErrorCorrected : Prop :=
  ∀ (s : State) (c : List Byte) (q : Nat) (e : Byte),
    s.paramsValid → 2 ≤ s.n.toNat - s.k.toNat → s.n.toNat ≤ s.inLen.toNat →
    c.length = s.n.toNat → IsCodeword c (s.n.toNat - s.k.toNat) → q < s.n.toNat → e ≠ 0 →
    (∀ j, j < s.n.toNat → s.readIn j = if j = q then c.getD j 0 ^^^ e else c.getD j 0) →
    ∃ t, exec .decBlk s = .next t ∧ t.code = .ok ∧ t.outIs (c.take s.k.toNat) ∧
      t.ecount = 1 ∧ t.rootcnt = 1 ∧ t.errpos[0] = BitVec.ofNat 8 q ∧ t.errmag[0] = e

/-- R143 (i): a codeword with at most floor((n-k)/2) symbols altered, in any positions and by any values, is recovered by
`DEC_BLK`; `ECOUNT` and `ROOTCNT` are the number of altered symbols, and `ERRPOS` and `ERRMAG` name every one of them. -/
def Obligations.ErrorsUpToCapacityCorrected : Prop :=
  ∀ (s : State) (c : List Byte), s.paramsValid → s.n.toNat ≤ s.inLen.toNat →
    c.length = s.n.toNat → IsCodeword c (s.n.toNat - s.k.toNat) →
    s.distanceTo c ≤ (s.n.toNat - s.k.toNat) / 2 →
    ∃ t, exec .decBlk s = .next t ∧ t.code = .ok ∧ t.outIs (c.take s.k.toNat) ∧
      t.ecount.toNat = s.distanceTo c ∧ t.rootcnt.toNat = s.distanceTo c ∧
      ∀ j, j < s.n.toNat → t.errorAt j = s.readIn j ^^^ c.getD j 0

/-- R143 (iii), R139, R142: whenever `DEC_BLK` completes with `OK`, the block corrected by `ERRPOS` and `ERRMAG` is a codeword
at distance `ROOTCNT` or less from the received one, `OUT` is its first k symbols, and `OMEGA[j]` = 0 for j >= `ECOUNT`. -/
def Obligations.CorrectedBlockIsCodeword : Prop :=
  ∀ s t : State, s.paramsValid → s.n.toNat ≤ s.inLen.toNat → exec .decBlk s = .next t → t.code = .ok →
    IsCodeword (s.corrected t) (s.n.toNat - s.k.toNat) ∧
    s.distanceTo (s.corrected t) ≤ t.rootcnt.toNat ∧ t.rootcnt.toNat ≤ (s.n.toNat - s.k.toNat) / 2 ∧
    t.outIs ((s.corrected t).take s.k.toNat) ∧
    ∀ j, t.ecount.toNat ≤ j → t.omega.symbolAt j = 0

/-- R135 (i) to (iii): the Berlekamp-Massey stage ends with Lam[0] = 1, a nonzero saved discrepancy, L at most the number
of syndromes, and no coefficient of Lam above L. -/
def Obligations.BerlekampMasseyFacts : Prop :=
  ∀ syn : List Byte, syn.length ≤ 254 →
    (berlekampMassey syn).lam.length = 256 ∧ (berlekampMassey syn).lam.getD 0 0 = 1 ∧
    (berlekampMassey syn).disc ≠ 0 ∧ (berlekampMassey syn).len ≤ syn.length ∧
    ∀ j, (berlekampMassey syn).len < j → (berlekampMassey syn).lam.getD j 0 = 0

/-- R145, R20: `DEC_PKT` on a frame of whole blocks that all decode completes with `OK`: `OUT` is the blocks' data in order
with every trailing zero removed, and the pipeline is that of the last block. -/
def Obligations.DecPktResult : Prop :=
  ∀ (s : State) (data : List (List Byte)), s.paramsValid → 0 < s.inLen.toNat → s.inLen.toNat % s.n.toNat = 0 →
    data.length = s.inLen.toNat / s.n.toNat →
    (∀ b, b < data.length →
      (decodeBlock (s.inSymbols (b * s.n.toNat) s.n.toNat) s.n.toNat s.k.toNat).data = some (data.getD b [])) →
    ∃ t, exec .decPkt s = .next t ∧ t.code = .ok ∧ t.outIs (stripZeros data.flatten) ∧
      t.pipelineIs (decodeBlock (s.inSymbols ((data.length - 1) * s.n.toNat) s.n.toNat) s.n.toNat s.k.toNat) ∧
      t.gpoly = s.gpoly ∧ s.codecFrame t

/-- R145, R184, R20: the first block that does not decode aborts `DEC_PKT` with `UNCORRECTABLE`: `OUT_LEN` is 0 and the
pipeline is that of the failing block, whatever the later blocks are. -/
def Obligations.DecPktAbortsAtFirstFailure : Prop :=
  ∀ (s : State) (b : Nat), s.paramsValid → 0 < s.inLen.toNat → s.inLen.toNat % s.n.toNat = 0 →
    b < s.inLen.toNat / s.n.toNat →
    (∀ c, c < b → (decodeBlock (s.inSymbols (c * s.n.toNat) s.n.toNat) s.n.toNat s.k.toNat).data ≠ none) →
    (decodeBlock (s.inSymbols (b * s.n.toNat) s.n.toNat) s.n.toNat s.k.toNat).data = none →
    ∃ t, exec .decPkt s = .next t ∧ t.code = .uncorrectable ∧ t.outLen = 0 ∧
      t.pipelineIs (decodeBlock (s.inSymbols (b * s.n.toNat) s.n.toNat) s.n.toNat s.k.toNat) ∧
      t.gpoly = s.gpoly ∧ s.codecFrame t

/-- R146: de-padding removes every trailing zero and nothing else. -/
def Obligations.DepaddingRemovesTrailingZeros : Prop :=
  ∀ l : List Byte, ∃ m, l = stripZeros l ++ List.replicate m 0 ∧ (stripZeros l).getLast? ≠ some 0

/-- R146: for every non-empty payload whose frame fits and valid parameters, `DEC_PKT` of the frame that `ENC_PKT` made
completes with `OK` and the payload with its trailing zeros removed. -/
def Obligations.PacketRoundTrip : Prop :=
  ∀ s t u : State, s.paramsValid → 0 < s.inLen.toNat →
    (s.inLen.toNat + s.k.toNat - 1) / s.k.toNat * s.n.toNat ≤ 65535 → exec .encPkt s = .next t →
    u.n = s.n → u.k = s.k → u.inLen = t.outLen → (∀ i, i < t.outLen.toNat → u.readIn i = t.readOut i) →
    ∃ v, exec .decPkt u = .next v ∧ v.code = .ok ∧ v.outIs (stripZeros (s.inSymbols 0 s.inLen.toNat))

/-! ### All commands (44_control_memory_system.md, 60_exceptions.md, 70_reset_and_hazards.md) -/

/-- R222, R15, R16, R18, R20, R27, R28: what each command leaves unchanged. `OUT` and the memory that holds it change only
under the four codec commands, `IN` under none. -/
def Obligations.CommandsWriteOnlyTheirOwn : Prop :=
  ∀ (i : Instr) (s t : State), exec i s = .next t →
    (t.cmd = s.cmd ∧ t.inLen = s.inLen ∧ t.inEpoch = s.inEpoch ∧ t.pending = s.pending ∧ t.response = s.response ∧
      s.sameIn t) ∧
    (writesR i = false → t.r = s.r) ∧
    (isLadderGet i = false → t.n = s.n ∧ t.k = s.k) ∧
    (isCodec i = false → t.outLen = s.outLen ∧ t.outEpoch = s.outEpoch ∧ t.mem = s.mem ∧ s.sameOut t) ∧
    (isDecoder i = false → s.samePipeline t) ∧
    (isEncoder i = false → t.gpoly = s.gpoly)

/-- R187: when a command completes with a nonzero code, `R`, `N`, `K`, `IN_LEN`, `IN` and `GPOLY` are unchanged, the pipeline
too unless the code is `UNCORRECTABLE`; a codec command has set `OUT_LEN` to 0 and `OUT` holds fresh free values (log entry 2). -/
def Obligations.ErrorCompletionChanges : Prop :=
  ∀ (i : Instr) (s t : State), exec i s = .next t → t.code ≠ .ok →
    t.r = s.r ∧ t.n = s.n ∧ t.k = s.k ∧ t.inLen = s.inLen ∧ s.sameIn t ∧ t.gpoly = s.gpoly ∧
    (t.code ≠ .uncorrectable → s.samePipeline t) ∧
    (isCodec i = true → t.outLen = 0 ∧ t.outEpoch = s.outEpoch + 1 ∧
      ∀ j, j < 65535 → t.readOut j = Config.unspecifiedOut t.outEpoch j)

/-- R181: each command completes only with the codes the table lists it under. -/
def Obligations.CodesEachCommandRaises : Prop :=
  ∀ (i : Instr) (s t : State), exec i s = .next t → t.code ∈ mayComplete i

/-- R12: no command reads the completion code, and every command writes it. -/
def Obligations.CodeIsNeverRead : Prop :=
  ∀ (i : Instr) (s : State) (c : Completion), exec i { s with code := c } = exec i s

/-- R206: the code, the results and the registers a command writes depend on the command word, `N`, `K`, `IN_LEN` and
`IN[0 .. IN_LEN-1]` only. -/
def Obligations.CommandsAreFunctions : Prop :=
  ∀ (i : Instr) (s t : State), s.sameInputs t →
    ∃ s' t', exec i s = .next s' ∧ exec i t = .next t' ∧ s'.code = t'.code ∧ s'.n = t'.n ∧ s'.k = t'.k ∧
      (writesR i = true → s'.code = .ok → s'.r = t'.r) ∧
      (isCodec i = true → s'.outLen = t'.outLen ∧ ∀ j, j < s'.outLen.toNat → s'.readOut j = t'.readOut j) ∧
      (isDecoder i = true → s'.code = .ok ∨ s'.code = .uncorrectable → s'.samePipeline t') ∧
      (isEncoder i = true → s'.code = .ok → s'.gpoly = t'.gpoly)

/-! ### Invariants of every step -/

/-- R28, R29, R40: every step keeps memory in its canonical form, with only symbols of `IN` and of `OUT[0 .. OUT_LEN-1]` listed. -/
def Obligations.StepKeepsMemInv : Prop :=
  ∀ s t : State, s.MemInv → step s = .next t → t.MemInv

/-- The memory invariant holds after reset. -/
def Obligations.ResetMemInv : Prop := State.reset.MemInv

/-- R22, R24, R26, R27: every step keeps what the pipeline registers and `GPOLY` can hold. -/
def Obligations.StepKeepsPipelineInv : Prop :=
  ∀ s t : State, s.PipelineInv → step s = .next t → t.PipelineInv

/-- The pipeline invariant holds after reset. -/
def Obligations.ResetPipelineInv : Prop := State.reset.PipelineInv

/-- R25: every step keeps `ROOTCNT` in its range 0..127. -/
def Obligations.StepKeepsRootcntRange : Prop :=
  ∀ s t : State, s.rootcnt.toNat ≤ 127 → step s = .next t → t.rootcnt.toNat ≤ 127

/-- R29, with the model's free value (log entry 2): from `OUT_LEN` on, `OUT` reads as the unspecified value. -/
def Obligations.OutBeyondLengthIsFree : Prop :=
  ∀ (s : State) (i : Nat), s.MemInv → s.outLen.toNat ≤ i → i < 65535 →
    s.readOut i = Config.unspecifiedOut s.outEpoch i
end

