-- ==== Sys2Proof/Laws/State.lean ====
section
/-! SUPPORT. For each named operation on the state and each field, what the field is afterwards, so that no later proof
unfolds a record update. -/

namespace Sys2Proof.Machine

/-! ### `State.complete` -/

@[simp] theorem State.complete_cmd (s : State) (c : Completion) :
    (s.complete c).cmd = s.cmd := rfl
@[simp] theorem State.complete_code (s : State) (c : Completion) :
    (s.complete c).code = c := rfl
@[simp] theorem State.complete_r (s : State) (c : Completion) :
    (s.complete c).r = s.r := rfl
@[simp] theorem State.complete_n (s : State) (c : Completion) :
    (s.complete c).n = s.n := rfl
@[simp] theorem State.complete_k (s : State) (c : Completion) :
    (s.complete c).k = s.k := rfl
@[simp] theorem State.complete_inLen (s : State) (c : Completion) :
    (s.complete c).inLen = s.inLen := rfl
@[simp] theorem State.complete_outLen (s : State) (c : Completion) :
    (s.complete c).outLen = s.outLen := rfl
@[simp] theorem State.complete_ecount (s : State) (c : Completion) :
    (s.complete c).ecount = s.ecount := rfl
@[simp] theorem State.complete_rootcnt (s : State) (c : Completion) :
    (s.complete c).rootcnt = s.rootcnt := rfl
@[simp] theorem State.complete_syn (s : State) (c : Completion) :
    (s.complete c).syn = s.syn := rfl
@[simp] theorem State.complete_lambda (s : State) (c : Completion) :
    (s.complete c).lambda = s.lambda := rfl
@[simp] theorem State.complete_omega (s : State) (c : Completion) :
    (s.complete c).omega = s.omega := rfl
@[simp] theorem State.complete_errpos (s : State) (c : Completion) :
    (s.complete c).errpos = s.errpos := rfl
@[simp] theorem State.complete_errmag (s : State) (c : Completion) :
    (s.complete c).errmag = s.errmag := rfl
@[simp] theorem State.complete_gpoly (s : State) (c : Completion) :
    (s.complete c).gpoly = s.gpoly := rfl
@[simp] theorem State.complete_mem (s : State) (c : Completion) :
    (s.complete c).mem = s.mem := rfl
@[simp] theorem State.complete_inEpoch (s : State) (c : Completion) :
    (s.complete c).inEpoch = s.inEpoch := rfl
@[simp] theorem State.complete_outEpoch (s : State) (c : Completion) :
    (s.complete c).outEpoch = s.outEpoch := rfl
@[simp] theorem State.complete_pending (s : State) (c : Completion) :
    (s.complete c).pending = s.pending := rfl
@[simp] theorem State.complete_response (s : State) (c : Completion) :
    (s.complete c).response = s.response := rfl
@[simp] theorem State.complete_readIn (s : State) (c : Completion) (x : Nat) :
    (s.complete c).readIn x = s.readIn x := rfl
@[simp] theorem State.complete_readOut (s : State) (c : Completion) (x : Nat) :
    (s.complete c).readOut x = s.readOut x := rfl

/-! ### `State.setR` -/

@[simp] theorem State.setR_cmd (s : State) (v : Byte) :
    (s.setR v).cmd = s.cmd := rfl
@[simp] theorem State.setR_code (s : State) (v : Byte) :
    (s.setR v).code = s.code := rfl
@[simp] theorem State.setR_r (s : State) (v : Byte) :
    (s.setR v).r = v := rfl
@[simp] theorem State.setR_n (s : State) (v : Byte) :
    (s.setR v).n = s.n := rfl
@[simp] theorem State.setR_k (s : State) (v : Byte) :
    (s.setR v).k = s.k := rfl
@[simp] theorem State.setR_inLen (s : State) (v : Byte) :
    (s.setR v).inLen = s.inLen := rfl
@[simp] theorem State.setR_outLen (s : State) (v : Byte) :
    (s.setR v).outLen = s.outLen := rfl
@[simp] theorem State.setR_ecount (s : State) (v : Byte) :
    (s.setR v).ecount = s.ecount := rfl
@[simp] theorem State.setR_rootcnt (s : State) (v : Byte) :
    (s.setR v).rootcnt = s.rootcnt := rfl
@[simp] theorem State.setR_syn (s : State) (v : Byte) :
    (s.setR v).syn = s.syn := rfl
@[simp] theorem State.setR_lambda (s : State) (v : Byte) :
    (s.setR v).lambda = s.lambda := rfl
@[simp] theorem State.setR_omega (s : State) (v : Byte) :
    (s.setR v).omega = s.omega := rfl
@[simp] theorem State.setR_errpos (s : State) (v : Byte) :
    (s.setR v).errpos = s.errpos := rfl
@[simp] theorem State.setR_errmag (s : State) (v : Byte) :
    (s.setR v).errmag = s.errmag := rfl
@[simp] theorem State.setR_gpoly (s : State) (v : Byte) :
    (s.setR v).gpoly = s.gpoly := rfl
@[simp] theorem State.setR_mem (s : State) (v : Byte) :
    (s.setR v).mem = s.mem := rfl
@[simp] theorem State.setR_inEpoch (s : State) (v : Byte) :
    (s.setR v).inEpoch = s.inEpoch := rfl
@[simp] theorem State.setR_outEpoch (s : State) (v : Byte) :
    (s.setR v).outEpoch = s.outEpoch := rfl
@[simp] theorem State.setR_pending (s : State) (v : Byte) :
    (s.setR v).pending = s.pending := rfl
@[simp] theorem State.setR_response (s : State) (v : Byte) :
    (s.setR v).response = s.response := rfl
@[simp] theorem State.setR_readIn (s : State) (v : Byte) (x : Nat) :
    (s.setR v).readIn x = s.readIn x := rfl
@[simp] theorem State.setR_readOut (s : State) (v : Byte) (x : Nat) :
    (s.setR v).readOut x = s.readOut x := rfl

/-! ### `State.setParams` -/

@[simp] theorem State.setParams_cmd (s : State) (a b : Nat) :
    (s.setParams a b).cmd = s.cmd := rfl
@[simp] theorem State.setParams_code (s : State) (a b : Nat) :
    (s.setParams a b).code = s.code := rfl
@[simp] theorem State.setParams_r (s : State) (a b : Nat) :
    (s.setParams a b).r = s.r := rfl
@[simp] theorem State.setParams_n (s : State) (a b : Nat) :
    (s.setParams a b).n = BitVec.ofNat 16 a := rfl
@[simp] theorem State.setParams_k (s : State) (a b : Nat) :
    (s.setParams a b).k = BitVec.ofNat 16 b := rfl
@[simp] theorem State.setParams_inLen (s : State) (a b : Nat) :
    (s.setParams a b).inLen = s.inLen := rfl
@[simp] theorem State.setParams_outLen (s : State) (a b : Nat) :
    (s.setParams a b).outLen = s.outLen := rfl
@[simp] theorem State.setParams_ecount (s : State) (a b : Nat) :
    (s.setParams a b).ecount = s.ecount := rfl
@[simp] theorem State.setParams_rootcnt (s : State) (a b : Nat) :
    (s.setParams a b).rootcnt = s.rootcnt := rfl
@[simp] theorem State.setParams_syn (s : State) (a b : Nat) :
    (s.setParams a b).syn = s.syn := rfl
@[simp] theorem State.setParams_lambda (s : State) (a b : Nat) :
    (s.setParams a b).lambda = s.lambda := rfl
@[simp] theorem State.setParams_omega (s : State) (a b : Nat) :
    (s.setParams a b).omega = s.omega := rfl
@[simp] theorem State.setParams_errpos (s : State) (a b : Nat) :
    (s.setParams a b).errpos = s.errpos := rfl
@[simp] theorem State.setParams_errmag (s : State) (a b : Nat) :
    (s.setParams a b).errmag = s.errmag := rfl
@[simp] theorem State.setParams_gpoly (s : State) (a b : Nat) :
    (s.setParams a b).gpoly = s.gpoly := rfl
@[simp] theorem State.setParams_mem (s : State) (a b : Nat) :
    (s.setParams a b).mem = s.mem := rfl
@[simp] theorem State.setParams_inEpoch (s : State) (a b : Nat) :
    (s.setParams a b).inEpoch = s.inEpoch := rfl
@[simp] theorem State.setParams_outEpoch (s : State) (a b : Nat) :
    (s.setParams a b).outEpoch = s.outEpoch := rfl
@[simp] theorem State.setParams_pending (s : State) (a b : Nat) :
    (s.setParams a b).pending = s.pending := rfl
@[simp] theorem State.setParams_response (s : State) (a b : Nat) :
    (s.setParams a b).response = s.response := rfl
@[simp] theorem State.setParams_readIn (s : State) (a b : Nat) (x : Nat) :
    (s.setParams a b).readIn x = s.readIn x := rfl
@[simp] theorem State.setParams_readOut (s : State) (a b : Nat) (x : Nat) :
    (s.setParams a b).readOut x = s.readOut x := rfl

/-! ### `State.setGpoly` -/

@[simp] theorem State.setGpoly_cmd (s : State) (g : List Byte) :
    (s.setGpoly g).cmd = s.cmd := rfl
@[simp] theorem State.setGpoly_code (s : State) (g : List Byte) :
    (s.setGpoly g).code = s.code := rfl
@[simp] theorem State.setGpoly_r (s : State) (g : List Byte) :
    (s.setGpoly g).r = s.r := rfl
@[simp] theorem State.setGpoly_n (s : State) (g : List Byte) :
    (s.setGpoly g).n = s.n := rfl
@[simp] theorem State.setGpoly_k (s : State) (g : List Byte) :
    (s.setGpoly g).k = s.k := rfl
@[simp] theorem State.setGpoly_inLen (s : State) (g : List Byte) :
    (s.setGpoly g).inLen = s.inLen := rfl
@[simp] theorem State.setGpoly_outLen (s : State) (g : List Byte) :
    (s.setGpoly g).outLen = s.outLen := rfl
@[simp] theorem State.setGpoly_ecount (s : State) (g : List Byte) :
    (s.setGpoly g).ecount = s.ecount := rfl
@[simp] theorem State.setGpoly_rootcnt (s : State) (g : List Byte) :
    (s.setGpoly g).rootcnt = s.rootcnt := rfl
@[simp] theorem State.setGpoly_syn (s : State) (g : List Byte) :
    (s.setGpoly g).syn = s.syn := rfl
@[simp] theorem State.setGpoly_lambda (s : State) (g : List Byte) :
    (s.setGpoly g).lambda = s.lambda := rfl
@[simp] theorem State.setGpoly_omega (s : State) (g : List Byte) :
    (s.setGpoly g).omega = s.omega := rfl
@[simp] theorem State.setGpoly_errpos (s : State) (g : List Byte) :
    (s.setGpoly g).errpos = s.errpos := rfl
@[simp] theorem State.setGpoly_errmag (s : State) (g : List Byte) :
    (s.setGpoly g).errmag = s.errmag := rfl
@[simp] theorem State.setGpoly_gpoly (s : State) (g : List Byte) :
    (s.setGpoly g).gpoly = RegFile.load g := rfl
@[simp] theorem State.setGpoly_mem (s : State) (g : List Byte) :
    (s.setGpoly g).mem = s.mem := rfl
@[simp] theorem State.setGpoly_inEpoch (s : State) (g : List Byte) :
    (s.setGpoly g).inEpoch = s.inEpoch := rfl
@[simp] theorem State.setGpoly_outEpoch (s : State) (g : List Byte) :
    (s.setGpoly g).outEpoch = s.outEpoch := rfl
@[simp] theorem State.setGpoly_pending (s : State) (g : List Byte) :
    (s.setGpoly g).pending = s.pending := rfl
@[simp] theorem State.setGpoly_response (s : State) (g : List Byte) :
    (s.setGpoly g).response = s.response := rfl
@[simp] theorem State.setGpoly_readIn (s : State) (g : List Byte) (x : Nat) :
    (s.setGpoly g).readIn x = s.readIn x := rfl
@[simp] theorem State.setGpoly_readOut (s : State) (g : List Byte) (x : Nat) :
    (s.setGpoly g).readOut x = s.readOut x := rfl

/-! ### `State.setOut` -/

@[simp] theorem State.setOut_cmd (s : State) (l : List Byte) :
    (s.setOut l).cmd = s.cmd := rfl
@[simp] theorem State.setOut_code (s : State) (l : List Byte) :
    (s.setOut l).code = s.code := rfl
@[simp] theorem State.setOut_r (s : State) (l : List Byte) :
    (s.setOut l).r = s.r := rfl
@[simp] theorem State.setOut_n (s : State) (l : List Byte) :
    (s.setOut l).n = s.n := rfl
@[simp] theorem State.setOut_k (s : State) (l : List Byte) :
    (s.setOut l).k = s.k := rfl
@[simp] theorem State.setOut_inLen (s : State) (l : List Byte) :
    (s.setOut l).inLen = s.inLen := rfl
@[simp] theorem State.setOut_outLen (s : State) (l : List Byte) :
    (s.setOut l).outLen = BitVec.ofNat 16 l.length := rfl
@[simp] theorem State.setOut_ecount (s : State) (l : List Byte) :
    (s.setOut l).ecount = s.ecount := rfl
@[simp] theorem State.setOut_rootcnt (s : State) (l : List Byte) :
    (s.setOut l).rootcnt = s.rootcnt := rfl
@[simp] theorem State.setOut_syn (s : State) (l : List Byte) :
    (s.setOut l).syn = s.syn := rfl
@[simp] theorem State.setOut_lambda (s : State) (l : List Byte) :
    (s.setOut l).lambda = s.lambda := rfl
@[simp] theorem State.setOut_omega (s : State) (l : List Byte) :
    (s.setOut l).omega = s.omega := rfl
@[simp] theorem State.setOut_errpos (s : State) (l : List Byte) :
    (s.setOut l).errpos = s.errpos := rfl
@[simp] theorem State.setOut_errmag (s : State) (l : List Byte) :
    (s.setOut l).errmag = s.errmag := rfl
@[simp] theorem State.setOut_gpoly (s : State) (l : List Byte) :
    (s.setOut l).gpoly = s.gpoly := rfl
@[simp] theorem State.setOut_mem (s : State) (l : List Byte) :
    (s.setOut l).mem = s.mem.below outBase ++ cellsFrom outBase l := rfl
@[simp] theorem State.setOut_inEpoch (s : State) (l : List Byte) :
    (s.setOut l).inEpoch = s.inEpoch := rfl
@[simp] theorem State.setOut_outEpoch (s : State) (l : List Byte) :
    (s.setOut l).outEpoch = s.outEpoch + 1 := rfl
@[simp] theorem State.setOut_pending (s : State) (l : List Byte) :
    (s.setOut l).pending = s.pending := rfl
@[simp] theorem State.setOut_response (s : State) (l : List Byte) :
    (s.setOut l).response = s.response := rfl

/-! ### `State.fail` -/

@[simp] theorem State.fail_cmd (s : State) (c : Completion) :
    (s.fail c).cmd = s.cmd := rfl
@[simp] theorem State.fail_code (s : State) (c : Completion) :
    (s.fail c).code = c := rfl
@[simp] theorem State.fail_r (s : State) (c : Completion) :
    (s.fail c).r = s.r := rfl
@[simp] theorem State.fail_n (s : State) (c : Completion) :
    (s.fail c).n = s.n := rfl
@[simp] theorem State.fail_k (s : State) (c : Completion) :
    (s.fail c).k = s.k := rfl
@[simp] theorem State.fail_inLen (s : State) (c : Completion) :
    (s.fail c).inLen = s.inLen := rfl
@[simp] theorem State.fail_outLen (s : State) (c : Completion) :
    (s.fail c).outLen = 0 := rfl
@[simp] theorem State.fail_ecount (s : State) (c : Completion) :
    (s.fail c).ecount = s.ecount := rfl
@[simp] theorem State.fail_rootcnt (s : State) (c : Completion) :
    (s.fail c).rootcnt = s.rootcnt := rfl
@[simp] theorem State.fail_syn (s : State) (c : Completion) :
    (s.fail c).syn = s.syn := rfl
@[simp] theorem State.fail_lambda (s : State) (c : Completion) :
    (s.fail c).lambda = s.lambda := rfl
@[simp] theorem State.fail_omega (s : State) (c : Completion) :
    (s.fail c).omega = s.omega := rfl
@[simp] theorem State.fail_errpos (s : State) (c : Completion) :
    (s.fail c).errpos = s.errpos := rfl
@[simp] theorem State.fail_errmag (s : State) (c : Completion) :
    (s.fail c).errmag = s.errmag := rfl
@[simp] theorem State.fail_gpoly (s : State) (c : Completion) :
    (s.fail c).gpoly = s.gpoly := rfl
@[simp] theorem State.fail_mem (s : State) (c : Completion) :
    (s.fail c).mem = s.mem.below outBase ++ cellsFrom outBase [] := rfl
@[simp] theorem State.fail_inEpoch (s : State) (c : Completion) :
    (s.fail c).inEpoch = s.inEpoch := rfl
@[simp] theorem State.fail_outEpoch (s : State) (c : Completion) :
    (s.fail c).outEpoch = s.outEpoch + 1 := rfl
@[simp] theorem State.fail_pending (s : State) (c : Completion) :
    (s.fail c).pending = s.pending := rfl
@[simp] theorem State.fail_response (s : State) (c : Completion) :
    (s.fail c).response = s.response := rfl

/-! ### `State.setPipeline` -/

@[simp] theorem State.setPipeline_cmd (s : State) (b : BlockRun) :
    (s.setPipeline b).cmd = s.cmd := rfl
@[simp] theorem State.setPipeline_code (s : State) (b : BlockRun) :
    (s.setPipeline b).code = s.code := rfl
@[simp] theorem State.setPipeline_r (s : State) (b : BlockRun) :
    (s.setPipeline b).r = s.r := rfl
@[simp] theorem State.setPipeline_n (s : State) (b : BlockRun) :
    (s.setPipeline b).n = s.n := rfl
@[simp] theorem State.setPipeline_k (s : State) (b : BlockRun) :
    (s.setPipeline b).k = s.k := rfl
@[simp] theorem State.setPipeline_inLen (s : State) (b : BlockRun) :
    (s.setPipeline b).inLen = s.inLen := rfl
@[simp] theorem State.setPipeline_outLen (s : State) (b : BlockRun) :
    (s.setPipeline b).outLen = s.outLen := rfl
@[simp] theorem State.setPipeline_ecount (s : State) (b : BlockRun) :
    (s.setPipeline b).ecount = BitVec.ofNat 8 b.ecount := rfl
@[simp] theorem State.setPipeline_rootcnt (s : State) (b : BlockRun) :
    (s.setPipeline b).rootcnt = BitVec.ofNat 8 b.rootcnt := rfl
@[simp] theorem State.setPipeline_syn (s : State) (b : BlockRun) :
    (s.setPipeline b).syn = RegFile.load b.syn := rfl
@[simp] theorem State.setPipeline_lambda (s : State) (b : BlockRun) :
    (s.setPipeline b).lambda = RegFile.load b.lambda := rfl
@[simp] theorem State.setPipeline_omega (s : State) (b : BlockRun) :
    (s.setPipeline b).omega = RegFile.load b.omega := rfl
@[simp] theorem State.setPipeline_errpos (s : State) (b : BlockRun) :
    (s.setPipeline b).errpos = RegFile.load b.errpos := rfl
@[simp] theorem State.setPipeline_errmag (s : State) (b : BlockRun) :
    (s.setPipeline b).errmag = RegFile.load b.errmag := rfl
@[simp] theorem State.setPipeline_gpoly (s : State) (b : BlockRun) :
    (s.setPipeline b).gpoly = s.gpoly := rfl
@[simp] theorem State.setPipeline_mem (s : State) (b : BlockRun) :
    (s.setPipeline b).mem = s.mem := rfl
@[simp] theorem State.setPipeline_inEpoch (s : State) (b : BlockRun) :
    (s.setPipeline b).inEpoch = s.inEpoch := rfl
@[simp] theorem State.setPipeline_outEpoch (s : State) (b : BlockRun) :
    (s.setPipeline b).outEpoch = s.outEpoch := rfl
@[simp] theorem State.setPipeline_pending (s : State) (b : BlockRun) :
    (s.setPipeline b).pending = s.pending := rfl
@[simp] theorem State.setPipeline_response (s : State) (b : BlockRun) :
    (s.setPipeline b).response = s.response := rfl
@[simp] theorem State.setPipeline_readIn (s : State) (b : BlockRun) (x : Nat) :
    (s.setPipeline b).readIn x = s.readIn x := rfl
@[simp] theorem State.setPipeline_readOut (s : State) (b : BlockRun) (x : Nat) :
    (s.setPipeline b).readOut x = s.readOut x := rfl

/-! ### `State.writeIn` -/

@[simp] theorem State.writeIn_cmd (s : State) (i : Nat) (v : Byte) :
    (s.writeIn i v).cmd = s.cmd := rfl
@[simp] theorem State.writeIn_code (s : State) (i : Nat) (v : Byte) :
    (s.writeIn i v).code = s.code := rfl
@[simp] theorem State.writeIn_r (s : State) (i : Nat) (v : Byte) :
    (s.writeIn i v).r = s.r := rfl
@[simp] theorem State.writeIn_n (s : State) (i : Nat) (v : Byte) :
    (s.writeIn i v).n = s.n := rfl
@[simp] theorem State.writeIn_k (s : State) (i : Nat) (v : Byte) :
    (s.writeIn i v).k = s.k := rfl
@[simp] theorem State.writeIn_inLen (s : State) (i : Nat) (v : Byte) :
    (s.writeIn i v).inLen = s.inLen := rfl
@[simp] theorem State.writeIn_outLen (s : State) (i : Nat) (v : Byte) :
    (s.writeIn i v).outLen = s.outLen := rfl
@[simp] theorem State.writeIn_ecount (s : State) (i : Nat) (v : Byte) :
    (s.writeIn i v).ecount = s.ecount := rfl
@[simp] theorem State.writeIn_rootcnt (s : State) (i : Nat) (v : Byte) :
    (s.writeIn i v).rootcnt = s.rootcnt := rfl
@[simp] theorem State.writeIn_syn (s : State) (i : Nat) (v : Byte) :
    (s.writeIn i v).syn = s.syn := rfl
@[simp] theorem State.writeIn_lambda (s : State) (i : Nat) (v : Byte) :
    (s.writeIn i v).lambda = s.lambda := rfl
@[simp] theorem State.writeIn_omega (s : State) (i : Nat) (v : Byte) :
    (s.writeIn i v).omega = s.omega := rfl
@[simp] theorem State.writeIn_errpos (s : State) (i : Nat) (v : Byte) :
    (s.writeIn i v).errpos = s.errpos := rfl
@[simp] theorem State.writeIn_errmag (s : State) (i : Nat) (v : Byte) :
    (s.writeIn i v).errmag = s.errmag := rfl
@[simp] theorem State.writeIn_gpoly (s : State) (i : Nat) (v : Byte) :
    (s.writeIn i v).gpoly = s.gpoly := rfl
@[simp] theorem State.writeIn_mem (s : State) (i : Nat) (v : Byte) :
    (s.writeIn i v).mem = s.mem.write (inBase + i) v := rfl
@[simp] theorem State.writeIn_inEpoch (s : State) (i : Nat) (v : Byte) :
    (s.writeIn i v).inEpoch = s.inEpoch := rfl
@[simp] theorem State.writeIn_outEpoch (s : State) (i : Nat) (v : Byte) :
    (s.writeIn i v).outEpoch = s.outEpoch := rfl
@[simp] theorem State.writeIn_pending (s : State) (i : Nat) (v : Byte) :
    (s.writeIn i v).pending = s.pending := rfl
@[simp] theorem State.writeIn_response (s : State) (i : Nat) (v : Byte) :
    (s.writeIn i v).response = s.response := rfl

/-! ### `State.answer` -/

@[simp] theorem State.answer_cmd (s : State) (a : BusResponse) :
    (s.answer a).cmd = s.cmd := rfl
@[simp] theorem State.answer_code (s : State) (a : BusResponse) :
    (s.answer a).code = s.code := rfl
@[simp] theorem State.answer_r (s : State) (a : BusResponse) :
    (s.answer a).r = s.r := rfl
@[simp] theorem State.answer_n (s : State) (a : BusResponse) :
    (s.answer a).n = s.n := rfl
@[simp] theorem State.answer_k (s : State) (a : BusResponse) :
    (s.answer a).k = s.k := rfl
@[simp] theorem State.answer_inLen (s : State) (a : BusResponse) :
    (s.answer a).inLen = s.inLen := rfl
@[simp] theorem State.answer_outLen (s : State) (a : BusResponse) :
    (s.answer a).outLen = s.outLen := rfl
@[simp] theorem State.answer_ecount (s : State) (a : BusResponse) :
    (s.answer a).ecount = s.ecount := rfl
@[simp] theorem State.answer_rootcnt (s : State) (a : BusResponse) :
    (s.answer a).rootcnt = s.rootcnt := rfl
@[simp] theorem State.answer_syn (s : State) (a : BusResponse) :
    (s.answer a).syn = s.syn := rfl
@[simp] theorem State.answer_lambda (s : State) (a : BusResponse) :
    (s.answer a).lambda = s.lambda := rfl
@[simp] theorem State.answer_omega (s : State) (a : BusResponse) :
    (s.answer a).omega = s.omega := rfl
@[simp] theorem State.answer_errpos (s : State) (a : BusResponse) :
    (s.answer a).errpos = s.errpos := rfl
@[simp] theorem State.answer_errmag (s : State) (a : BusResponse) :
    (s.answer a).errmag = s.errmag := rfl
@[simp] theorem State.answer_gpoly (s : State) (a : BusResponse) :
    (s.answer a).gpoly = s.gpoly := rfl
@[simp] theorem State.answer_mem (s : State) (a : BusResponse) :
    (s.answer a).mem = s.mem := rfl
@[simp] theorem State.answer_inEpoch (s : State) (a : BusResponse) :
    (s.answer a).inEpoch = s.inEpoch := rfl
@[simp] theorem State.answer_outEpoch (s : State) (a : BusResponse) :
    (s.answer a).outEpoch = s.outEpoch := rfl
@[simp] theorem State.answer_pending (s : State) (a : BusResponse) :
    (s.answer a).pending = s.pending := rfl
@[simp] theorem State.answer_response (s : State) (a : BusResponse) :
    (s.answer a).response = a := rfl
@[simp] theorem State.answer_readIn (s : State) (a : BusResponse) (x : Nat) :
    (s.answer a).readIn x = s.readIn x := rfl
@[simp] theorem State.answer_readOut (s : State) (a : BusResponse) (x : Nat) :
    (s.answer a).readOut x = s.readOut x := rfl

/-! ### `State.issue` -/

@[simp] theorem State.issue_cmd (s : State) (w : Word) :
    (s.issue w).cmd = s.cmd := rfl
@[simp] theorem State.issue_code (s : State) (w : Word) :
    (s.issue w).code = s.code := rfl
@[simp] theorem State.issue_r (s : State) (w : Word) :
    (s.issue w).r = s.r := rfl
@[simp] theorem State.issue_n (s : State) (w : Word) :
    (s.issue w).n = s.n := rfl
@[simp] theorem State.issue_k (s : State) (w : Word) :
    (s.issue w).k = s.k := rfl
@[simp] theorem State.issue_inLen (s : State) (w : Word) :
    (s.issue w).inLen = s.inLen := rfl
@[simp] theorem State.issue_outLen (s : State) (w : Word) :
    (s.issue w).outLen = s.outLen := rfl
@[simp] theorem State.issue_ecount (s : State) (w : Word) :
    (s.issue w).ecount = s.ecount := rfl
@[simp] theorem State.issue_rootcnt (s : State) (w : Word) :
    (s.issue w).rootcnt = s.rootcnt := rfl
@[simp] theorem State.issue_syn (s : State) (w : Word) :
    (s.issue w).syn = s.syn := rfl
@[simp] theorem State.issue_lambda (s : State) (w : Word) :
    (s.issue w).lambda = s.lambda := rfl
@[simp] theorem State.issue_omega (s : State) (w : Word) :
    (s.issue w).omega = s.omega := rfl
@[simp] theorem State.issue_errpos (s : State) (w : Word) :
    (s.issue w).errpos = s.errpos := rfl
@[simp] theorem State.issue_errmag (s : State) (w : Word) :
    (s.issue w).errmag = s.errmag := rfl
@[simp] theorem State.issue_gpoly (s : State) (w : Word) :
    (s.issue w).gpoly = s.gpoly := rfl
@[simp] theorem State.issue_mem (s : State) (w : Word) :
    (s.issue w).mem = s.mem := rfl
@[simp] theorem State.issue_inEpoch (s : State) (w : Word) :
    (s.issue w).inEpoch = s.inEpoch := rfl
@[simp] theorem State.issue_outEpoch (s : State) (w : Word) :
    (s.issue w).outEpoch = s.outEpoch := rfl
@[simp] theorem State.issue_pending (s : State) (w : Word) :
    (s.issue w).pending = .write 0 w :: s.pending := rfl
@[simp] theorem State.issue_response (s : State) (w : Word) :
    (s.issue w).response = s.response := rfl
@[simp] theorem State.issue_readIn (s : State) (w : Word) (x : Nat) :
    (s.issue w).readIn x = s.readIn x := rfl
@[simp] theorem State.issue_readOut (s : State) (w : Word) (x : Nat) :
    (s.issue w).readOut x = s.readOut x := rfl

/-! ### `State.resetNow` -/

@[simp] theorem State.resetNow_cmd (s : State) : s.resetNow.cmd = 0 := rfl
@[simp] theorem State.resetNow_code (s : State) : s.resetNow.code = .ok := rfl
@[simp] theorem State.resetNow_r (s : State) : s.resetNow.r = 0 := rfl
@[simp] theorem State.resetNow_n (s : State) : s.resetNow.n = 0 := rfl
@[simp] theorem State.resetNow_k (s : State) : s.resetNow.k = 0 := rfl
@[simp] theorem State.resetNow_inLen (s : State) : s.resetNow.inLen = 0 := rfl
@[simp] theorem State.resetNow_outLen (s : State) : s.resetNow.outLen = 0 := rfl
@[simp] theorem State.resetNow_ecount (s : State) : s.resetNow.ecount = 0 := rfl
@[simp] theorem State.resetNow_rootcnt (s : State) : s.resetNow.rootcnt = 0 := rfl
@[simp] theorem State.resetNow_syn (s : State) : s.resetNow.syn = .zero := rfl
@[simp] theorem State.resetNow_lambda (s : State) : s.resetNow.lambda = .zero := rfl
@[simp] theorem State.resetNow_omega (s : State) : s.resetNow.omega = .zero := rfl
@[simp] theorem State.resetNow_errpos (s : State) : s.resetNow.errpos = .zero := rfl
@[simp] theorem State.resetNow_errmag (s : State) : s.resetNow.errmag = .zero := rfl
@[simp] theorem State.resetNow_gpoly (s : State) : s.resetNow.gpoly = .zero := rfl
@[simp] theorem State.resetNow_mem (s : State) : s.resetNow.mem = [] := rfl
@[simp] theorem State.resetNow_inEpoch (s : State) : s.resetNow.inEpoch = s.inEpoch + 1 := rfl
@[simp] theorem State.resetNow_outEpoch (s : State) : s.resetNow.outEpoch = s.outEpoch + 1 := rfl
@[simp] theorem State.resetNow_pending (s : State) : s.resetNow.pending = s.pending := rfl
@[simp] theorem State.resetNow_response (s : State) : s.resetNow.response = .idle := rfl

/-! ### Operands depend on `IN_LEN` and the symbols of `IN` only -/

theorem State.inSymbols_congr {s t : State} {start len : Nat} (h : ∀ i, i < start + len → s.readIn i = t.readIn i) :
    s.inSymbols start len = t.inSymbols start len := by
  unfold State.inSymbols
  exact List.map_congr_left fun j hj => h _ (by have := List.mem_range.mp hj; omega)

@[simp] theorem State.inSymbols_length (s : State) (start len : Nat) : (s.inSymbols start len).length = len := by
  simp [State.inSymbols]

@[simp] theorem State.inSymbols_getD (s : State) (start len j : Nat) (h : j < len) :
    (s.inSymbols start len).getD j 0 = s.readIn (start + j) := by
  simp [State.inSymbols, List.getD_eq_getElem?_getD, h]

@[simp] theorem State.operand_length (s : State) : s.operand.length = s.inLen.toNat := by
  simp [State.operand]

@[simp] theorem validParams_eq_true (n k : Nat) : validParams n k = true ↔ 0 < k ∧ k ≤ n ∧ n ≤ 255 :=
  decide_eq_true_iff

@[simp] theorem validParams_eq_false (n k : Nat) : validParams n k = false ↔ ¬(0 < k ∧ k ≤ n ∧ n ≤ 255) :=
  decide_eq_false_iff_not

end Sys2Proof.Machine
end

