-- ==== Sys2Proof/Laws/Memory.lean ====
section
/-! SUPPORT. The memory operations: read after write, and that every one of them keeps the canonical form. -/

namespace Sys2Proof.Machine

/-! ### Reading -/

theorem Memory.read?_write_same (m : Memory) (x : Nat) (v : Byte) : (m.write x v).read? x = some v := by
  induction m with
  | nil => simp [Memory.write, Memory.read?]
  | cons c m ih =>
    obtain ⟨a, w⟩ := c
    simp only [Memory.write]
    split
    · simp [Memory.read?]
    · split
      · simp [Memory.read?]
      · have : a ≠ x := by omega
        simp [Memory.read?, this, ih]

theorem Memory.read?_write_other (m : Memory) {x y : Nat} (v : Byte) (h : y ≠ x) :
    (m.write x v).read? y = m.read? y := by
  induction m with
  | nil => simp [Memory.write, Memory.read?, h.symm]
  | cons c m ih =>
    obtain ⟨a, w⟩ := c
    simp only [Memory.write]
    split
    · simp [Memory.read?, h.symm]
    · split
      · next hx => subst hx; simp [Memory.read?, h.symm]
      · simp [Memory.read?, ih]

theorem Memory.read?_append (m m' : Memory) (x : Nat) :
    Memory.read? (m ++ m') x = (m.read? x).or (m'.read? x) := by
  induction m with
  | nil => simp [Memory.read?]
  | cons c m ih =>
    obtain ⟨a, w⟩ := c
    simp only [List.cons_append, Memory.read?]
    split <;> simp [ih]

theorem Memory.read?_below (m : Memory) (b x : Nat) :
    (m.below b).read? x = if x < b then m.read? x else none := by
  induction m with
  | nil => simp [Memory.below, Memory.read?]
  | cons c m ih =>
    obtain ⟨a, w⟩ := c
    simp only [Memory.below] at ih ⊢
    by_cases ha : a < b
    · by_cases hx : a = x
      · subst hx; simp [Memory.read?, ha]
      · simp [Memory.read?, ha, hx, ih]
    · have : x < b → ¬ a = x := by omega
      by_cases hx : x < b
      · simp [Memory.read?, ha, this hx, ih, hx]
      · simp [ha, ih, hx]

theorem read?_cellsFrom (b : Nat) (l : List Byte) (x : Nat) :
    Memory.read? (cellsFrom b l) x = if b ≤ x then l[x - b]? else none := by
  induction l generalizing b with
  | nil => simp [cellsFrom, Memory.read?]
  | cons v l ih =>
    simp only [cellsFrom, Memory.read?, ih]
    by_cases h : b = x
    · subst h; simp
    · by_cases hb : b ≤ x
      · have h1 : b + 1 ≤ x := by omega
        obtain ⟨k, rfl⟩ := Nat.exists_eq_add_of_le h1
        simp [h, show b + 1 + k - b = k + 1 by omega, show b ≤ b + 1 + k by omega]
      · have : ¬ b + 1 ≤ x := by omega
        simp [h, hb, this]

/-! ### The canonical form -/

theorem Memory.mem_write {m : Memory} {x : Nat} {v : Byte} {c : Host.Cell} (h : c ∈ m.write x v) :
    c = (x, v) ∨ c ∈ m := by
  induction m with
  | nil => simpa [Memory.write] using h
  | cons d m ih =>
    obtain ⟨a, w⟩ := d
    simp only [Memory.write] at h
    split at h
    · simpa using h
    · split at h
      · rcases List.mem_cons.mp h with h | h
        · exact .inl h
        · exact .inr (List.mem_cons_of_mem _ h)
      · rcases List.mem_cons.mp h with h | h
        · exact .inr (by simp [h])
        · exact (ih h).imp id (List.mem_cons_of_mem _)

theorem Memory.write_wf {m : Memory} (h : m.wf) (x : Nat) (v : Byte) : (m.write x v).wf := by
  induction m with
  | nil => simp [Memory.write]
  | cons c m ih =>
    obtain ⟨a, w⟩ := c
    obtain ⟨ha, hm⟩ := List.pairwise_cons.mp h
    simp only [Memory.write]
    split
    · next hx =>
      refine List.pairwise_cons.mpr ⟨fun d hd => ?_, h⟩
      rcases List.mem_cons.mp hd with rfl | hd
      · exact hx
      · exact Nat.lt_trans hx (ha d hd)
    · split
      · next hx => subst hx; exact List.pairwise_cons.mpr ⟨ha, hm⟩
      · refine List.pairwise_cons.mpr ⟨fun d hd => ?_, ih hm⟩
        rcases Memory.mem_write hd with rfl | hd
        · show a < x; omega
        · exact ha d hd

theorem Memory.mem_below {m : Memory} {b : Nat} {c : Host.Cell} : c ∈ m.below b ↔ c ∈ m ∧ c.1 < b := by
  simp [Memory.below]

theorem Memory.below_wf {m : Memory} (h : m.wf) (b : Nat) : (m.below b).wf := List.Pairwise.filter _ h

theorem mem_cellsFrom {b : Nat} {l : List Byte} {c : Host.Cell} (h : c ∈ cellsFrom b l) :
    b ≤ c.1 ∧ c.1 < b + l.length := by
  induction l generalizing b with
  | nil => simp [cellsFrom] at h
  | cons v l ih =>
    rcases List.mem_cons.mp h with rfl | h
    · simp
    · have := ih h
      simp only [List.length_cons]
      omega

theorem cellsFrom_wf (b : Nat) (l : List Byte) : Memory.wf (cellsFrom b l) := by
  induction l generalizing b with
  | nil => simp [cellsFrom]
  | cons v l ih => exact List.pairwise_cons.mpr ⟨fun c hc => (mem_cellsFrom hc).1, ih _⟩

theorem Memory.replaceOut_wf {m : Memory} (h : m.wf) (l : List Byte) :
    Memory.wf (m.below outBase ++ cellsFrom outBase l) :=
  List.pairwise_append.mpr ⟨Memory.below_wf h _, cellsFrom_wf _ _, fun _ hc _ hd =>
    Nat.lt_of_lt_of_le (Memory.mem_below.mp hc).2 (mem_cellsFrom hd).1⟩

theorem reset_memory_wf : State.reset.mem.wf := List.Pairwise.nil

/-! ### The state operations over memory -/

theorem State.writeIn_wf {s : State} (h : s.mem.wf) (i : Nat) (v : Byte) : (s.writeIn i v).mem.wf :=
  Memory.write_wf h _ _

theorem State.setOut_wf {s : State} (h : s.mem.wf) (l : List Byte) : (s.setOut l).mem.wf :=
  Memory.replaceOut_wf h l

theorem State.fail_wf {s : State} (h : s.mem.wf) (c : Completion) : (s.fail c).mem.wf :=
  Memory.replaceOut_wf h []

theorem State.resetNow_wf (s : State) : s.resetNow.mem.wf := List.Pairwise.nil

theorem State.readIn_writeIn_same (s : State) (i : Nat) (v : Byte) : (s.writeIn i v).readIn i = v := by
  simp [State.readIn, Memory.read?_write_same]

theorem State.readIn_writeIn_other (s : State) {i j : Nat} (v : Byte) (h : j ≠ i) :
    (s.writeIn i v).readIn j = s.readIn j := by
  have : inBase + j ≠ inBase + i := by omega
  simp [State.readIn, Memory.read?_write_other _ _ this]

theorem State.readOut_writeIn (s : State) {i j : Nat} (v : Byte) (h : i < 0x10000) :
    (s.writeIn i v).readOut j = s.readOut j := by
  have : outBase + j ≠ inBase + i := by simp only [outBase, inBase]; omega
  simp [State.readOut, Memory.read?_write_other _ _ this]

/-- No result written to `OUT` reaches `IN` (R28, R52). -/
@[simp] theorem State.readIn_setOut (s : State) (l : List Byte) {i : Nat} (h : i < 0x10000) :
    (s.setOut l).readIn i = s.readIn i := by
  have h1 : inBase + i < outBase := by simp only [outBase, inBase]; omega
  simp [State.readIn, Memory.read?_append, Memory.read?_below, read?_cellsFrom, h1, Nat.not_le.mpr h1]

@[simp] theorem State.readIn_fail (s : State) (c : Completion) {i : Nat} (h : i < 0x10000) :
    (s.fail c).readIn i = s.readIn i := State.readIn_setOut s [] h

/-- What `OUT` holds after a result has been written: the result, and beyond it the fresh free value (R29). -/
@[simp] theorem State.readOut_setOut (s : State) (l : List Byte) (i : Nat) :
    (s.setOut l).readOut i = (l[i]?).getD (Config.unspecifiedOut (s.outEpoch + 1) i) := by
  simp [State.readOut, Memory.read?_append, Memory.read?_below, read?_cellsFrom, State.setOut]

@[simp] theorem State.readOut_fail (s : State) (c : Completion) (i : Nat) :
    (s.fail c).readOut i = Config.unspecifiedOut (s.outEpoch + 1) i :=
  State.readOut_setOut s [] i

end Sys2Proof.Machine
end

