-- ==== Sys2Proof/Laws/Ops.lean ====
section
/-! SUPPORT. For each shared operation, once, everything it can do: register files, the shared ends of the commands, the
host transactions, the step. -/

namespace Sys2Proof.Machine

/-! ### Register files -/

theorem RegFile.load_getElem (l : List Byte) (i : Nat) (h : i < 256) : (RegFile.load l)[i] = l.getD i 0 := by
  simp only [RegFile.load, Vector.getElem_mk, List.getElem_toArray, List.getElem_take]
  by_cases hi : i < l.length
  · rw [List.getElem_append_left hi, List.getD_eq_getElem _ _ hi]
  · rw [List.getElem_append_right (by omega), List.getElem_replicate, List.getD_eq_default _ _ (by omega)]

@[simp] theorem RegFile.zero_getElem (i : Nat) (h : i < 256) : RegFile.zero[i] = 0 := by
  simp [RegFile.zero]

theorem RegFile.load_nil : RegFile.load [] = RegFile.zero := by
  apply Vector.ext
  intro i h
  rw [RegFile.load_getElem _ _ h, RegFile.zero_getElem _ h, List.getD_nil]

/-! ### The ends of the commands -/

theorem deliver_eq (v : Byte) (s : State) : deliver v s = .next ((s.setR v).complete .ok) := rfl

theorem deliverQuotient_none (s : State) : deliverQuotient none s = .next (s.complete .divideByZero) := rfl

theorem deliverQuotient_some (v : Byte) (s : State) :
    deliverQuotient (some v) s = .next ((s.setR v).complete .ok) := rfl

theorem finishDecode_none (run : BlockRun) (s : State) :
    finishDecode run none s = .next ((s.setPipeline run).fail .uncorrectable) := rfl

theorem finishDecode_some (run : BlockRun) (data : List Byte) (s : State) :
    finishDecode run (some data) s = .next (((s.setPipeline run).setOut data).complete .ok) := rfl

/-- A quotient is missing exactly for divisor 0 (R84). -/
theorem gfDiv_eq_none {a b : Byte} : gfDiv a b = none ↔ b = 0 := by
  unfold gfDiv
  split
  · next hb => exact ⟨fun _ => hb, fun _ => rfl⟩
  · next hb => exact ⟨fun h => (by split at h <;> cases h), fun h => absurd h hb⟩

/-- Everything a command can leave behind, said once: the state with some of `R`, `N`, `K`, `GPOLY`, the pipeline and `OUT`
rewritten by the named operations, and a code recorded (R222). -/
inductive Effect (s : State) : State → Prop where
  | codeOnly (c : Completion) : Effect s (s.complete c)
  | result (v : Byte) : Effect s ((s.setR v).complete .ok)
  | params (c : CodeParams) (h : c ∈ ladder) : Effect s ((s.setParams c.n c.k).complete .ok)
  | failed (c : Completion) (h : c ≠ .ok) : Effect s (s.fail c)
  | encoded (p : Nat) (h : p ≤ 254) (out : List Byte) (hl : out.length ≤ Config.bufBytes) :
      Effect s (((s.setGpoly (genpoly p)).setOut out).complete .ok)
  | undecoded (blk : List Byte) (n k : Nat) (h : validParams n k = true) :
      Effect s ((s.setPipeline (decodeBlock blk n k)).fail .uncorrectable)
  | decoded (blk : List Byte) (n k : Nat) (h : validParams n k = true) (out : List Byte)
      (hl : out.length ≤ Config.bufBytes) :
      Effect s (((s.setPipeline (decodeBlock blk n k)).setOut out).complete .ok)

/-! ### Lengths of results -/

@[simp] theorem shiftStep_length (g : List Byte) (p : Nat) (reg : List Byte) (d : Byte) :
    (shiftStep g p reg d).length = p := by
  simp [shiftStep]

@[simp] theorem encodeBlock_length (d : List Byte) (n k : Nat) : (encodeBlock d n k).length = n - k := by
  unfold encodeBlock
  generalize genpoly (n - k) = g
  induction d using List.reverseRecOn with
  | nil => simp
  | append_singleton d x _ => simp

@[simp] theorem payloadBlock_length (payload : List Byte) (k b : Nat) : (payloadBlock payload k b).length = k := by
  simp [payloadBlock]

theorem encodeFrame_length (payload : List Byte) {n k : Nat} (h : k ≤ n) :
    (encodeFrame payload n k).length = blockCount payload.length k * n := by
  simp [encodeFrame, codeword, List.length_flatMap, Nat.add_sub_cancel' h]

@[simp] theorem bmUpdate_length (lam prev : List Byte) (m : Nat) (c : Byte) :
    (bmUpdate lam prev m c).length = min lam.length (m + prev.length) := by
  simp [bmUpdate, pscale]

@[simp] theorem forney_w_length (omega lp : List Byte) (n : Nat) (ms : List Nat) (w : List Byte) :
    (forney omega lp n ms w).w.length = w.length := by
  induction ms generalizing w with
  | nil => rfl
  | cons m ms ih =>
    simp only [forney]
    split
    · rfl
    · simp [ih]

/-- A decoded block's data has at most k symbols (R142). -/
theorem decodeBlock_data_length {r : List Byte} {n k : Nat} {d : List Byte} (h : (decodeBlock r n k).data = some d) :
    d.length ≤ k := by
  unfold decodeBlock at h
  dsimp only at h
  split at h
  · simp only [Option.some.injEq] at h
    subst h
    exact List.length_take_le _ _
  · unfold solveBlock at h
    dsimp only at h
    split at h
    · cases h
    split at h
    · cases h
    split at h
    · cases h
    unfold correctBlock at h
    dsimp only at h
    split at h
    · simp only [Option.some.injEq] at h
      subst h
      exact List.length_take_le _ _
    · cases h

/-- What the block loop of `DEC_PKT` can answer: the run of one of its blocks (or the run it was given, with no block),
and data of at most k symbols a block (R145). -/
theorem decodeBlocks_cases (n k : Nat) (blocks : List (List Byte)) (acc : List Byte) (last : BlockRun) :
    ((blocks = [] ∧ (decodeBlocks n k blocks acc last).1 = last) ∨
      ∃ blk ∈ blocks, (decodeBlocks n k blocks acc last).1 = decodeBlock blk n k) ∧
    ∀ data, (decodeBlocks n k blocks acc last).2 = some data → data.length ≤ acc.length + blocks.length * k := by
  induction blocks generalizing acc last with
  | nil => simp [decodeBlocks]
  | cons blk rest ih =>
    simp only [decodeBlocks]
    split
    · exact ⟨.inr ⟨blk, by simp, rfl⟩, fun _ h => by cases h⟩
    · next d hd =>
      obtain ⟨h1, h2⟩ := ih (acc ++ d) (decodeBlock blk n k)
      refine ⟨.inr ?_, fun data h => ?_⟩
      · rcases h1 with ⟨_, h⟩ | ⟨b, hb, h⟩
        · exact ⟨blk, by simp, h⟩
        · exact ⟨b, by simp [hb], h⟩
      · have := h2 data h
        have hl := decodeBlock_data_length hd
        simp only [List.length_append, List.length_cons, Nat.add_mul, Nat.one_mul] at this ⊢
        omega

theorem stripZeros_length_le (l : List Byte) : (stripZeros l).length ≤ l.length := by
  have := (List.dropWhile_suffix (l := l.reverse) (fun v : Byte => v == 0)).length_le
  simpa [stripZeros] using this

theorem ladder_eq : ladder = [⟨224, 223⟩, ⟨225, 223⟩, ⟨227, 223⟩, ⟨231, 223⟩, ⟨239, 223⟩, ⟨255, 223⟩] := by decide

/-- Every command answers a next state, and it is one of the effects above (R60, R208, R222). -/
theorem exec_cases (i : Instr) (s : State) : ∃ t, exec i s = .next t ∧ Effect s t := by
  cases i with
  | nop => exact ⟨_, rfl, .codeOnly _⟩
  | gfAdd a b => exact ⟨_, rfl, .result _⟩
  | gfMul a b => exact ⟨_, rfl, .result _⟩
  | gfDiv a b =>
    show ∃ t, deliverQuotient (gfDiv a b) s = .next t ∧ _
    cases gfDiv a b with
    | none => exact ⟨_, rfl, .codeOnly _⟩
    | some v => exact ⟨_, rfl, .result _⟩
  | gfInv a =>
    show ∃ t, deliverQuotient (gfInv a) s = .next t ∧ _
    cases gfInv a with
    | none => exact ⟨_, rfl, .codeOnly _⟩
    | some v => exact ⟨_, rfl, .result _⟩
  | polyEval a => exact ⟨_, rfl, .result _⟩
  | encBlk =>
    simp only [exec, execEncBlk]
    split
    · exact ⟨_, rfl, .failed _ (by decide)⟩
    · next hv =>
      have hv := (validParams_eq_true _ _).mp (by simpa using hv)
      split
      · exact ⟨_, rfl, .failed _ (by decide)⟩
      · exact ⟨_, rfl, .encoded _ (by omega) _ (by simp [Config.bufBytes]; omega)⟩
  | decBlk =>
    simp only [exec, execDecBlk]
    split
    · exact ⟨_, rfl, .failed _ (by decide)⟩
    · next hv =>
      have hv : validParams s.n.toNat s.k.toNat = true := by simpa using hv
      have hb := (validParams_eq_true _ _).mp hv
      split
      · exact ⟨_, rfl, .failed _ (by decide)⟩
      · cases hd : (decodeBlock (s.inSymbols 0 s.n.toNat) s.n.toNat s.k.toNat).data with
        | none => exact ⟨_, rfl, .undecoded _ _ _ hv⟩
        | some d =>
          have := decodeBlock_data_length hd
          exact ⟨_, rfl, .decoded _ _ _ hv _ (by simp only [Config.bufBytes]; omega)⟩
  | encPkt =>
    simp only [exec, execEncPkt]
    split
    · exact ⟨_, rfl, .failed _ (by decide)⟩
    · next hv =>
      have hv := (validParams_eq_true _ _).mp (by simpa using hv)
      split
      · exact ⟨_, rfl, .failed _ (by decide)⟩
      · next hc => exact ⟨_, rfl, .encoded _ (by omega) _ (by rw [encodeFrame_length _ hv.2.1]; simpa using hc)⟩
  | decPkt =>
    simp only [exec, execDecPkt]
    split
    · exact ⟨_, rfl, .failed _ (by decide)⟩
    · next hv =>
      have hv : validParams s.n.toNat s.k.toNat = true := by simpa using hv
      have hb := (validParams_eq_true _ _).mp hv
      split
      · exact ⟨_, rfl, .failed _ (by decide)⟩
      · next hs =>
        obtain ⟨h1, h2⟩ := decodeBlocks_cases s.n.toNat s.k.toNat (s.frameBlocks s.n.toNat) [] BlockRun.cleared
        have hne : s.frameBlocks s.n.toNat ≠ [] := by
          have : s.inLen.toNat / s.n.toNat ≠ 0 := by
            intro h0
            have hm := Nat.div_add_mod s.inLen.toNat s.n.toNat
            rw [h0] at hm
            simp at hm
            exact hs (by omega)
          simpa [State.frameBlocks] using this
        obtain ⟨blk, _, hrun⟩ := h1.resolve_left (fun h => hne h.1)
        have hlen : (s.frameBlocks s.n.toNat).length * s.k.toNat ≤ s.inLen.toNat := by
          have : s.inLen.toNat / s.n.toNat * s.k.toNat ≤ s.inLen.toNat / s.n.toNat * s.n.toNat :=
            Nat.mul_le_mul_left _ hb.2.1
          have := Nat.div_mul_le_self s.inLen.toNat s.n.toNat
          simp only [State.frameBlocks, List.length_map, List.length_range]
          omega
        rw [hrun]
        cases hd : (decodeBlocks s.n.toNat s.k.toNat (s.frameBlocks s.n.toNat) [] BlockRun.cleared).2 with
        | none => exact ⟨_, rfl, .undecoded _ _ _ hv⟩
        | some d =>
          have h3 := h2 d hd
          have h4 := stripZeros_length_le d
          have h5 := s.inLen.isLt
          exact ⟨_, rfl, .decoded _ _ _ hv _ (by simp only [Config.bufBytes]; simp only [List.length_nil] at h3; omega)⟩
  | ladderGet a =>
    simp only [exec, execLadderGet]
    split
    · exact ⟨_, rfl, .codeOnly _⟩
    · next c hc => exact ⟨_, rfl, .params c (List.mem_of_getElem? hc)⟩
  | ladderNext a => exact ⟨_, rfl, .result _⟩

/-! ### Host transactions and the step -/

theorem State.hostRead_cases (s : State) (idx : RegIndex) :
    (locate idx = none ∧ s.hostRead idx = s.answer .busError) ∨
    ∃ l, locate idx = some l ∧ s.hostRead idx = s.answer (.data (s.readLocation l)) := by
  unfold State.hostRead
  cases h : locate idx with
  | none => exact .inl ⟨rfl, rfl⟩
  | some l => exact .inr ⟨l, rfl, rfl⟩

theorem State.hostWrite_cases (s : State) (idx : RegIndex) (v : Word) :
    s.hostWrite idx v = s.answer .busError ∨
    ∃ l t, locate idx = some l ∧ s.writeLocation v l = some t ∧ s.hostWrite idx v = t.answer .ack := by
  unfold State.hostWrite
  cases hl : locate idx with
  | none => exact .inl rfl
  | some l =>
    cases ht : s.writeLocation v l with
    | none => left; simp [ht]
    | some t => right; exact ⟨l, t, rfl, ht, by simp [ht]⟩

theorem step_idle {s : State} (h : s.pending = []) : step s = .next s := by
  simp [step, State.nextEvent, h]

theorem step_event {s : State} {e : HostEvent} {rest : List HostEvent} (h : s.pending = e :: rest) :
    step s = serve (({ s with pending := rest } : State).take e) := by
  simp [step, State.nextEvent, h]

/-- What a request can be (R41, R42, R65, R200): a read's answer, a write's, an illegal command, a command run in the
state where its word is stored, or a reset. -/
theorem State.take_cases (s : State) (e : HostEvent) :
    (∃ idx, e = .read idx ∧ s.take e = .done (s.hostRead idx)) ∨
    (∃ idx v, e = .write idx v ∧ locate idx ≠ some .cmd ∧ s.take e = .done (s.hostWrite idx v)) ∨
    (∃ idx v i, e = .write idx v ∧ locate idx = some .cmd ∧ decode v = .ok i ∧
      s.take e = .run i ({ s with cmd := v } |>.answer .ack)) ∨
    (∃ idx v r, e = .write idx v ∧ locate idx = some .cmd ∧ decode v = .error r ∧
      s.take e = .done (({ s with cmd := v } |>.answer .ack).complete .illegalCommand)) ∨
    (e = .reset ∧ s.take e = .done s.resetNow) := by
  cases e with
  | read idx => exact .inl ⟨idx, rfl, rfl⟩
  | reset => exact .inr (.inr (.inr (.inr ⟨rfl, rfl⟩)))
  | write idx v =>
    by_cases hl : locate idx = some .cmd
    · have hw : s.hostWrite idx v = ({ s with cmd := v } : State).answer .ack := by
        simp [State.hostWrite, hl, State.writeLocation]
      cases hd : decode v with
      | ok i =>
        exact .inr (.inr (.inl ⟨idx, v, i, rfl, hl, hd, by simp [State.take, hl, hw, State.command, hd]⟩))
      | error r =>
        exact .inr (.inr (.inr (.inl ⟨idx, v, r, rfl, hl, hd, by simp [State.take, hl, hw, State.command, hd]⟩)))
    · exact .inr (.inl ⟨idx, v, rfl, hl, by simp [State.take, hl]⟩)

end Sys2Proof.Machine
end

