-- ==== Sys2Proof/Laws/Bus.lean ====
section
/-! SUPPORT. The register map, range by range (R40), and back. -/

namespace Sys2Proof.Machine

theorem locate_scalar {idx : RegIndex} (h : idx.toNat < 0x100) : locate idx = scalarAt idx.toNat := if_pos h

theorem locate_file {idx : RegIndex} (h : 0x100 ≤ idx.toNat) (h' : idx.toNat < 0x10000) :
    locate idx = (fileAt (idx.toNat / 0x100)).map (fun f => .file f (elementOf idx)) :=
  (if_neg (Nat.not_lt.mpr h)).trans (if_pos h')

theorem locate_in {idx : RegIndex} (h : 0x10000 ≤ idx.toNat) (h' : idx.toNat < 0x1FFFF) :
    locate idx = some (.inBuf (symbolOf idx)) :=
  (if_neg (by omega)).trans ((if_neg (Nat.not_lt.mpr h)).trans (if_pos h'))

theorem locate_out {idx : RegIndex} (h : 0x20000 ≤ idx.toNat) (h' : idx.toNat < 0x2FFFF) :
    locate idx = some (.outBuf (symbolOf idx)) :=
  (if_neg (by omega)).trans ((if_neg (by omega)).trans ((if_neg (by omega)).trans
    ((if_neg (Nat.not_lt.mpr h)).trans (if_pos h'))))

theorem locate_hole {idx : RegIndex} (h : idx.toNat = 0x1FFFF ∨ 0x2FFFF ≤ idx.toNat) : locate idx = none :=
  (if_neg (by omega)).trans ((if_neg (by omega)).trans ((if_neg (by omega)).trans (by
    rcases h with h | h
    · exact if_pos (by omega)
    · exact (if_neg (by omega)).trans (if_neg (by omega)))))

theorem symbolOf_in {idx : RegIndex} (h : 0x10000 ≤ idx.toNat) (h' : idx.toNat < 0x20000) :
    inBase + symbolOf idx = idx.toNat := by
  unfold symbolOf inBase
  rw [BitVec.toNat_setWidth]
  omega

theorem symbolOf_out {idx : RegIndex} (h : 0x20000 ≤ idx.toNat) (h' : idx.toNat < 0x30000) :
    outBase + symbolOf idx = idx.toNat := by
  unfold symbolOf outBase
  rw [BitVec.toNat_setWidth]
  omega

/-- The ranges of the map, exhaustively (R40). -/
theorem index_ranges (idx : RegIndex) :
    idx.toNat < 0x100 ∨ (0x100 ≤ idx.toNat ∧ idx.toNat < 0x10000) ∨ (0x10000 ≤ idx.toNat ∧ idx.toNat < 0x1FFFF) ∨
    (0x20000 ≤ idx.toNat ∧ idx.toNat < 0x2FFFF) ∨ (idx.toNat = 0x1FFFF ∨ 0x2FFFF ≤ idx.toNat) := by
  omega

/-- The index of an `IN` symbol is within the buffer (R28, R40). -/
theorem locate_inBuf {idx : RegIndex} {i : Nat} (h : locate idx = some (.inBuf i)) :
    idx.toNat = inBase + i ∧ i < Config.bufBytes := by
  rcases index_ranges idx with hr | ⟨h1, h2⟩ | ⟨h1, h2⟩ | ⟨h1, h2⟩ | hr
  · rw [locate_scalar hr] at h
    unfold scalarAt at h
    split at h <;> cases h
  · rw [locate_file h1 h2] at h
    cases hf : fileAt (idx.toNat / 0x100) <;> rw [hf] at h <;> cases h
  · rw [locate_in h1 h2] at h
    have hs := symbolOf_in h1 (by omega)
    have h := Location.inBuf.inj (Option.some.inj h)
    rw [← h, hs]
    refine ⟨rfl, ?_⟩
    unfold inBase at hs
    unfold Config.bufBytes
    omega
  · rw [locate_out h1 h2] at h
    cases h
  · rw [locate_hole hr] at h
    cases h

/-- A write to `CMD` is a write to index 0 (R13, R40). -/
theorem locate_cmd {idx : RegIndex} : locate idx = some .cmd ↔ idx = 0 := by
  constructor
  · intro h
    rcases index_ranges idx with hr | ⟨h1, h2⟩ | ⟨h1, h2⟩ | ⟨h1, h2⟩ | hr
    · rw [locate_scalar hr] at h
      apply BitVec.eq_of_toNat_eq
      unfold scalarAt at h
      split at h <;> first | assumption | cases h
    · rw [locate_file h1 h2] at h
      cases hf : fileAt (idx.toNat / 0x100) <;> rw [hf] at h <;> cases h
    · rw [locate_in h1 h2] at h
      cases h
    · rw [locate_out h1 h2] at h
      cases h
    · rw [locate_hole hr] at h
      cases h
  · rintro rfl
    rfl

end Sys2Proof.Machine
end

