-- ==== Sys2Proof/Laws/Decoder.lean ====
section
/-! SUPPORT. The ways the block decoder can end (R130), said once: what each leaves in the pipeline and as a result; and how
the registers are read as polynomials. -/

namespace Sys2Proof.Machine

theorem RegFile.symbolAt_eq (f : RegFile) (i : Nat) (h : i < 256) : f.symbolAt i = f[i] := by
  rw [RegFile.symbolAt, List.getD_eq_getElem _ _ (by simpa using h), Vector.getElem_toList]

theorem RegFile.symbolAt_beyond (f : RegFile) (i : Nat) (h : 256 ≤ i) : f.symbolAt i = 0 :=
  List.getD_eq_default _ _ (by simpa using h)

theorem RegFile.symbolAt_load (l : List Byte) (i : Nat) (h : l.length ≤ 256) : (RegFile.load l).symbolAt i = l.getD i 0 := by
  by_cases hi : i < 256
  · rw [RegFile.symbolAt_eq _ _ hi, RegFile.load_getElem _ _ hi]
  · rw [RegFile.symbolAt_beyond _ _ (by omega), List.getD_eq_default _ _ (by omega)]

@[simp] theorem RegFile.symbolAt_zero (i : Nat) : RegFile.zero.symbolAt i = 0 := by
  rw [← RegFile.load_nil, RegFile.symbolAt_load _ _ (Nat.zero_le _), List.getD_nil]

/-- `DEC_BLK` on enough symbols with valid parameters is the block decoder and its end (R144). -/
theorem exec_decBlk_eq {s : State} (hp : s.paramsValid) (hl : s.n.toNat ≤ s.inLen.toNat) :
    exec .decBlk s = finishDecode (decodeBlock (s.inSymbols 0 s.n.toNat) s.n.toNat s.k.toNat)
      (decodeBlock (s.inSymbols 0 s.n.toNat) s.n.toNat s.k.toNat).data s := by
  have hv : validParams s.n.toNat s.k.toNat = true := decide_eq_true hp
  simp only [exec, execDecBlk, hv, Bool.true_eq_false, if_false, Nat.not_lt.mpr hl]

/-- The pipeline after a block whose syndromes are not all zero, up to and with the Berlekamp-Massey stage (R134). -/
def solvedRun (r : List Byte) (n k : Nat) : BlockRun :=
  let syn := syndromes r (n - k)
  let bm := berlekampMassey syn
  { BlockRun.cleared with syn := syn, lambda := bm.lam, ecount := bm.len }

/-- The same, with the Chien stage (R137). -/
def searchedRun (r : List Byte) (n k : Nat) : BlockRun :=
  let run := solvedRun r n k
  { run with rootcnt := (rootPowers run.lambda).length }

theorem decodeBlock_clean {r : List Byte} {n k : Nat} (h : ∀ v ∈ syndromes r (n - k), v = 0) :
    decodeBlock r n k = { BlockRun.cleared with syn := syndromes r (n - k), data := some (r.take k) } := by
  have : (syndromes r (n - k)).all (fun v => v == 0) = true := by simpa using h
  simp only [decodeBlock, this, if_true]

/-- Every end but the clean one (R136 to R142). -/
theorem decodeBlock_cases {r : List Byte} {n k : Nat} (h : ¬ ∀ v ∈ syndromes r (n - k), v = 0) :
    ((n - k) / 2 < (solvedRun r n k).ecount ∧ decodeBlock r n k = solvedRun r n k) ∨
    ((solvedRun r n k).ecount ≤ (n - k) / 2 ∧
      ((searchedRun r n k).rootcnt ≠ (solvedRun r n k).ecount ∨
        ∃ m ∈ rootPowers (solvedRun r n k).lambda, n ≤ m) ∧
      decodeBlock r n k = searchedRun r n k) ∨
    ((solvedRun r n k).ecount ≤ (n - k) / 2 ∧ (searchedRun r n k).rootcnt = (solvedRun r n k).ecount ∧
      (∀ m ∈ rootPowers (solvedRun r n k).lambda, m < n) ∧
      decodeBlock r n k = correctBlock r n k (solvedRun r n k).lambda (rootPowers (solvedRun r n k).lambda)
        (searchedRun r n k)) := by
  have hs : (syndromes r (n - k)).all (fun v => v == 0) = false := by
    rw [← Bool.not_eq_true]; simpa using h
  have hd : decodeBlock r n k = solveBlock r n k { BlockRun.cleared with syn := syndromes r (n - k) } := by
    simp only [decodeBlock, hs, Bool.false_eq_true, if_false]
  rw [hd]
  unfold solveBlock
  dsimp only
  split
  · next hc => exact .inl ⟨hc, rfl⟩
  · next hc =>
    refine .inr ?_
    split
    · next hr => exact .inl ⟨Nat.not_lt.mp hc, .inl hr, rfl⟩
    · next hr =>
      split
      · next hm =>
        obtain ⟨m, h1, h2⟩ := List.any_eq_true.mp hm
        exact .inl ⟨Nat.not_lt.mp hc, .inr ⟨m, h1, by simpa using h2⟩, rfl⟩
      · next hm =>
        refine .inr ⟨Nat.not_lt.mp hc, not_not.mp hr, fun m h1 => ?_, rfl⟩
        by_contra h2
        exact hm (List.any_eq_true.mpr ⟨m, h1, by simpa using h2⟩)

end Sys2Proof.Machine
end

