-- ==== Sys2Proof/Laws/PerInstr.lean ====
section
/-! SUPPORT. The family `OpField`: what the encoded word of every instruction looks like (R61, R62), per constructor. -/

namespace Sys2Proof.Laws.OpField

/-- The four fields of the encoded word are those of the instruction (R61). -/
def Statement (i : Instr) : Prop := fieldsOf (encode i) = i.fields

theorem fieldsOf_append (op a b z : Byte) : fieldsOf (z ++ b ++ a ++ op) = ⟨op, a, b, z⟩ := by
  have h : ∀ n : Nat, n < 8 → n < 16 ∧ n < 24 := by omega
  simp only [fieldsOf, opField, aField, bField, zeroField, CommandFields.mk.injEq]
  refine ⟨?_, ?_, ?_, ?_⟩ <;>
    (apply BitVec.eq_of_getLsbD_eq; intro i hi
     simp only [BitVec.getLsbD_extractLsb', BitVec.getLsbD_append, hi, decide_true, Bool.true_and])
  · simp [hi]
  · have h1 : ¬ (8 + i < 8) := by omega
    have h2 : 8 + i - 8 = i := by omega
    simp [h1, h2, hi]
  · have h1 : ¬ (16 + i < 8) := by omega
    have h2 : ¬ (16 + i - 8 < 8) := by omega
    have h3 : 16 + i - 8 - 8 = i := by omega
    simp [h1, h2, h3, hi]
  · have h1 : ¬ (24 + i < 8) := by omega
    have h2 : ¬ (24 + i - 8 < 8) := by omega
    have h3 : ¬ (24 + i - 8 - 8 < 8) := by omega
    have h4 : 24 + i - 8 - 8 - 8 = i := by omega
    simp [h1, h2, h3, h4]

theorem statement_all (i : Instr) : Statement i := fieldsOf_append _ _ _ _

theorem nop : Statement .nop := statement_all _
theorem gfAdd (a b : Byte) : Statement (.gfAdd a b) := statement_all _
theorem gfMul (a b : Byte) : Statement (.gfMul a b) := statement_all _
theorem gfDiv (a b : Byte) : Statement (.gfDiv a b) := statement_all _
theorem gfInv (a : Byte) : Statement (.gfInv a) := statement_all _
theorem polyEval (a : Byte) : Statement (.polyEval a) := statement_all _
theorem encBlk : Statement .encBlk := statement_all _
theorem decBlk : Statement .decBlk := statement_all _
theorem encPkt : Statement .encPkt := statement_all _
theorem decPkt : Statement .decPkt := statement_all _
theorem ladderGet (a : Byte) : Statement (.ladderGet a) := statement_all _
theorem ladderNext (a : Byte) : Statement (.ladderNext a) := statement_all _

end Sys2Proof.Laws.OpField
end

