-- ==== Sys2Proof/Tests/Slice0.lean ====
section
/-! SUPPORT. The model's own tests: expected values are those of 95_test_vectors.md and of the encodings of rule R64, and a
witness for the hypotheses of every obligation that has some. -/

namespace Sys2Proof.Tests

open Sys2Proof Sys2Proof.Machine

/-- A field of the next state. -/
def after {α : Type} (o : Host.Outcome State Fault Refusal) (f : State → α) : Option α :=
  match o with
  | .next t => some (f t)
  | .fault _ => none
  | .refused _ => none

/-- A field of the next state that is known belongs to a next state. -/
theorem next_of_after {α : Type} {o : Host.Outcome State Fault Refusal} {f : State → α} {v : α} (h : after o f = some v) :
    ∃ t, o = .next t ∧ f t = v := by
  cases o with
  | next t => exact ⟨t, rfl, Option.some.inj h⟩
  | fault e => cases h
  | refused e => cases h

/-- A reset state with parameters and input symbols loaded. -/
def loaded (n k : Nat) (d : List Byte) : State :=
  { State.reset with
    n := BitVec.ofNat 16 n
    k := BitVec.ofNat 16 k
    inLen := BitVec.ofNat 16 d.length
    mem := cellsFrom inBase d }

/-- A reset state with one event pending. -/
def given (e : HostEvent) : State := { State.reset with pending := [e] }

/-! ### Decoding: one word per constructor, written out from the patterns of rule R64 -/

theorem test_decode_nop : decodeTableWord 32 0b00000000_00000000_00000000_00000000 = some .nop := by decide
theorem test_decode_gfAdd : decodeTableWord 32 0b00000000_10000011_01010111_00000001 = some (.gfAdd 0x57 0x83) := by decide
theorem test_decode_gfMul : decodeTableWord 32 0b00000000_10000011_01010111_00000010 = some (.gfMul 0x57 0x83) := by decide
theorem test_decode_gfDiv : decodeTableWord 32 0b00000000_10000011_01010111_00000011 = some (.gfDiv 0x57 0x83) := by decide
theorem test_decode_gfInv : decodeTableWord 32 0b00000000_00000000_01010011_00000100 = some (.gfInv 0x53) := by decide
theorem test_decode_polyEval : decodeTableWord 32 0b00000000_00000000_01000000_00000101 = some (.polyEval 0x40) := by decide
theorem test_decode_encBlk : decodeTableWord 32 0b00000000_00000000_00000000_00010000 = some .encBlk := by decide
theorem test_decode_decBlk : decodeTableWord 32 0b00000000_00000000_00000000_00010001 = some .decBlk := by decide
theorem test_decode_encPkt : decodeTableWord 32 0b00000000_00000000_00000000_00010010 = some .encPkt := by decide
theorem test_decode_decPkt : decodeTableWord 32 0b00000000_00000000_00000000_00010011 = some .decPkt := by decide
theorem test_decode_ladderGet : decodeTableWord 32 0b00000000_00000000_00000011_00100000 = some (.ladderGet 3) := by decide
theorem test_decode_ladderNext : decodeTableWord 32 0b00000000_00000000_11111111_00100001 = some (.ladderNext 255) := by decide

/-- V-ILL-1 to V-ILL-10. -/
theorem test_decode_illegal :
    [0x6, 0xF, 0x14, 0x1F, 0x22, 0xFF, 0x01000000, 0x01835702, 0x00010004, 0x110, 0x00010011, 0x100, 0xFFFFFFFF, 0x00010520].all
      (fun w => (decodeTableWord 32 w).isNone) = true := by decide

/-- The word of `GF_MUL 0x57, 0x83` (R68). -/
theorem test_encode_gfMul : encode (.gfMul 0x57 0x83) = 0x00835702 := by decide

/-! ### Well-formedness: an ill-formed term for each check (R62, R65) -/

theorem test_wf_unassigned_op : CommandFields.wellFormed ⟨0x06, 0, 0, 0⟩ = false := by decide
theorem test_wf_zero_field : CommandFields.wellFormed ⟨0x02, 0x57, 0x83, 1⟩ = false := by decide
theorem test_wf_unused_b : CommandFields.wellFormed ⟨0x04, 0x53, 1, 0⟩ = false := by decide
theorem test_wf_unused_a : CommandFields.wellFormed ⟨0x10, 1, 0, 0⟩ = false := by decide
theorem test_wf_good : CommandFields.wellFormed ⟨0x02, 0x57, 0x83, 0⟩ = true := by decide

/-! ### The commands: vectors of 95_test_vectors.md -/

/-- V-GF-NOP. -/
theorem test_nop : after (exec .nop { State.reset with code := .divideByZero, r := 7 }) (fun t => (t.code, t.r)) =
    some (.ok, 7) := by decide

/-- V-GF-ADD row 7. -/
theorem test_gfAdd : after (exec (.gfAdd 0x57 0x83) State.reset) (fun t => (t.code, t.r)) = some (.ok, 0xD4) := by decide

/-- V-GF-MUL row 8, where the exponents wrap. -/
theorem test_gfMul_wraps : after (exec (.gfMul 0xFF 0xFF) State.reset) (fun t => (t.code, t.r)) = some (.ok, 0xE2) := by decide

/-- V-GF-MUL row 2, a zero operand. -/
theorem test_gfMul_zero : after (exec (.gfMul 0x00 0x53) { State.reset with r := 9 }) (fun t => t.r) = some 0 := by decide

/-- V-GF-DIV row 5. -/
theorem test_gfDiv : after (exec (.gfDiv 0x57 0x83) State.reset) (fun t => (t.code, t.r)) = some (.ok, 0x8D) := by decide

/-- V-GF-DIV row 12. -/
theorem test_gfDiv_zero : after (exec (.gfDiv 0x00 0x00) { State.reset with r := 9 }) (fun t => (t.code, t.r)) =
    some (.divideByZero, 9) := by decide

/-- V-GF-INV, 0x53. -/
theorem test_gfInv : after (exec (.gfInv 0x53) State.reset) (fun t => (t.code, t.r)) = some (.ok, 0x8C) := by decide

/-- V-PE-5. -/
theorem test_polyEval : after (exec (.polyEval 0x02) (loaded 0 0 [1, 2, 3])) (fun t => (t.code, t.r)) = some (.ok, 3) := by decide

/-- V-PE-1, the empty polynomial. -/
theorem test_polyEval_empty : after (exec (.polyEval 0x05) { State.reset with r := 9 }) (fun t => t.r) = some 0 := by decide

/-- V-ENC-2. -/
theorem test_encBlk : after (exec .encBlk (loaded 7 3 [1, 2, 3]))
    (fun t => (t.code, t.outLen, [0, 1, 2, 3].map t.readOut)) = some (.ok, 4, [0xC7, 0x1C, 0x15, 0x1C]) := by decide +kernel

/-- V-ENC-9, short input. -/
theorem test_encBlk_short : after (exec .encBlk (loaded 10 5 [0x68, 0x65, 0x6C, 0x6C])) (fun t => (t.code, t.outLen)) =
    some (.invalidPacketSize, 0) := by decide

/-- V-DEC-14, the whole pipeline. -/
theorem test_decBlk : after (exec .decBlk (loaded 3 1 [0x00, 0xDD, 0x31]))
    (fun t => (t.code, t.readOut 0, t.syn[1], t.lambda[1], t.ecount, t.rootcnt, t.omega[0], t.errpos[0], t.errmag[0])) =
    some (.ok, 0xAB, 0x62, 0x04, 1, 1, 0x96, 0, 0xAB) := by decide +kernel

/-- V-DEC-5: `ECOUNT` exceeds t. -/
theorem test_decBlk_uncorrectable : after (exec .decBlk (loaded 10 5 [0x68, 0x64, 0x6C, 0x6C, 0x6D, 0xBE, 0xEF, 0x97, 0x50, 0xAC]))
    (fun t => (t.code, t.outLen, t.ecount, t.rootcnt)) = some (.uncorrectable, 0, 3, 0) := by decide +kernel

/-- V-PKT-7: padding only. -/
theorem test_encPkt : after (exec .encPkt (loaded 3 3 [9, 8, 7, 6])) (fun t => (t.code, t.outLen, [3, 4, 5].map t.readOut)) =
    some (.ok, 6, [6, 0, 0]) := by decide +kernel

/-- V-PKT-9, one symbol too many. -/
theorem test_encPkt_capacity : after (exec .encPkt { loaded 255 223 [] with inLen := 57312 }) (fun t => (t.code, t.outLen)) =
    some (.capacity, 0) := by decide

/-- V-DPK-10. -/
theorem test_decPkt : after (exec .decPkt (loaded 3 3 [9, 8, 7, 6, 0, 0])) (fun t => (t.code, t.outLen, t.readOut 3)) =
    some (.ok, 4, 6) := by decide +kernel

/-- V-DPK-7, no multiple of n. -/
theorem test_decPkt_size : after (exec .decPkt { loaded 10 5 [] with inLen := 15 }) (fun t => (t.code, t.outLen)) =
    some (.invalidPacketSize, 0) := by decide

/-- V-LAD-4. -/
theorem test_ladderGet : after (exec (.ladderGet 5) State.reset) (fun t => (t.code, t.n, t.k)) = some (.ok, 255, 223) := by decide

/-- V-LAD-5. -/
theorem test_ladderGet_missing : after (exec (.ladderGet 6) State.reset) (fun t => (t.code, t.n, t.k)) =
    some (.invalidCodeParams, 0, 0) := by decide

/-- V-LAD-9. -/
theorem test_ladderNext : after (exec (.ladderNext 4) State.reset) (fun t => (t.code, t.r)) = some (.ok, 5) := by decide

/-- V-LAD-12. -/
theorem test_ladderNext_saturates : after (exec (.ladderNext 255) State.reset) (fun t => (t.code, t.r)) = some (.ok, 5) := by decide

/-! ### The stages: traces of 95_test_vectors.md section 2.4 -/

/-- V-DEC-3, Berlekamp-Massey. -/
theorem test_berlekampMassey : (berlekampMassey [0xF9, 0x32, 0xDB, 0x55, 0x48]).lam.take 4 = [0x01, 0x3B, 0x3A, 0x00] ∧
    (berlekampMassey [0xF9, 0x32, 0xDB, 0x55, 0x48]).len = 2 := by decide +kernel

/-- V-DEC-3, Chien: powers 0 and 9, in this order. -/
theorem test_rootPowers : rootPowers [0x01, 0x3B, 0x3A] = [0, 9] := by decide +kernel

/-- V-DEC-3, Forney: positions 9 and 0, magnitudes 01 and 68. -/
theorem test_forney : forney (evaluator [0xF9, 0x32, 0xDB, 0x55, 0x48] [0x01, 0x3B, 0x3A] 5) [0x3B] 10 [0, 9]
    [0x00, 0x65, 0x6C, 0x6C, 0x6F, 0xBE, 0xEF, 0x94, 0x50, 0xAD] =
    ⟨[0x68, 0x65, 0x6C, 0x6C, 0x6F, 0xBE, 0xEF, 0x94, 0x50, 0xAC], [9, 0], [0x01, 0x68], true⟩ := by decide +kernel

/-- The generator polynomial for p = 5 (R111). -/
theorem test_genpoly : genpoly 5 = [0x26, 0xC5, 0xE5, 0x3F, 0x3E, 0x01] := by decide +kernel

/-! ### The host port: V-BUS, V-RST and the step -/

/-- A step runs the command word placed where it takes its next one. -/
theorem test_step_runs : after (step (State.reset.withFetchWord 32 0x00835702)) (fun t => (t.code, t.r, t.cmd, t.response)) =
    some (.ok, 0x31, 0x00835702, .ack) := by decide

/-- V-BUS-10. -/
theorem test_step_illegal : after (step (State.reset.withFetchWord 32 0xFFFFFFFF)) (fun t => (t.code, t.cmd)) =
    some (.illegalCommand, 0xFFFFFFFF) := by decide

/-- V-BUS-5. -/
theorem test_write_truncates : after (step (given (.write 3 0x0001000A))) (fun t => t.n) = some 0x000A := by decide

/-- V-BUS-8. -/
theorem test_write_in : after (step (given (.write 0x1FFFE 0x15A))) (fun t => t.readIn 65534) = some 0x5A := by decide

/-- V-BUS-3. -/
theorem test_write_status : after (step { given (.write 1 0) with code := .capacity }) (fun t => (t.response, t.code)) =
    some (.busError, .capacity) := by decide

/-- V-LAD-13. -/
theorem test_read_ladderLen : after (step (given (.read 9))) (fun t => t.response) = some (.data 6) := by decide

/-- V-BUS-1 and V-BUS-2. -/
theorem test_read_unmapped : ([0xA, 0x700, 0xFFFF, 0x1FFFF, 0x2FFFF, 0x3FFFF] : List RegIndex).all
    (fun i => after (step (given (.read i))) (fun t => t.response) == some .busError) = true := by decide

/-! ### Witnesses: states and operands that meet the hypotheses of the obligations -/

theorem witness_EncodeOfDecode : decode 0x00FFFF01 = .ok (.gfAdd 0xFF 0xFF) := by decide

theorem witness_StepRunsDecodedCommand :
    (State.reset.issue 0x21).pending = .write 0 0x21 :: [] ∧ decode 0x21 = .ok (.ladderNext 0) := ⟨rfl, by decide⟩

theorem witness_IllegalWordCompletes :
    (State.reset.issue 6).pending = .write 0 6 :: [] ∧ decode 6 = .error .unassignedOp := ⟨rfl, by decide⟩

theorem witness_BusError_read : ∀ i ∈ ([0xA, 0xFF, 0x700, 0xFFFF, 0x1FFFF, 0x2FFFF, 0x3FFFF] : List RegIndex),
    (given (.read i)).pending = .read i :: [] ∧ unmappedIndex i.toNat :=
  fun i hi => ⟨rfl, (by simp [unmappedIndex] :
    ∀ i ∈ ([0xA, 0xFF, 0x700, 0xFFFF, 0x1FFFF, 0x2FFFF, 0x3FFFF] : List RegIndex), unmappedIndex i.toNat) i hi⟩

theorem witness_BusError_write : ∀ i ∈ ([1, 2, 6, 9, 0x100, 0x6FF, 0x20000, 0x2FFFE] : List RegIndex),
    (given (.write i 5)).pending = .write i 5 :: [] ∧ readOnlyIndex i.toNat :=
  fun i hi => ⟨rfl, (by simp [readOnlyIndex] :
    ∀ i ∈ ([1, 2, 6, 9, 0x100, 0x6FF, 0x20000, 0x2FFFE] : List RegIndex), readOnlyIndex i.toNat) i hi⟩

theorem witness_HostRead_scalars : ReadsAs State.reset 0 0 ∧ ReadsAs State.reset 1 0 ∧ ReadsAs State.reset 2 0 ∧
    ReadsAs State.reset 3 0 ∧ ReadsAs State.reset 4 0 ∧ ReadsAs State.reset 5 0 ∧ ReadsAs State.reset 6 0 ∧
    ReadsAs State.reset 7 0 ∧ ReadsAs State.reset 8 0 ∧ ReadsAs State.reset 9 6 :=
  ⟨.cmd, .status, .r, .n, .k, .inLen, .outLen, .ecount, .rootcnt, .ladderLen⟩

theorem witness_HostRead_files (s : State) : (∃ w, ReadsAs s 0x100 w) ∧ (∃ w, ReadsAs s 0x1FF w) ∧
    (∃ w, ReadsAs s 0x2FF w) ∧ (∃ w, ReadsAs s 0x3FF w) ∧ (∃ w, ReadsAs s 0x4FF w) ∧ (∃ w, ReadsAs s 0x5FF w) ∧
    (∃ w, ReadsAs s 0x6FF w) :=
  ⟨⟨_, .syn 0⟩, ⟨_, .syn 255⟩, ⟨_, .lambda 255⟩, ⟨_, .omega 255⟩, ⟨_, .errpos 255⟩, ⟨_, .errmag 255⟩, ⟨_, .gpoly 255⟩⟩

theorem witness_HostRead_buffers (s : State) : (∃ w, ReadsAs s 0x10000 w) ∧ (∃ w, ReadsAs s 0x1FFFE w) ∧
    (∃ w, ReadsAs s 0x20000 w) ∧ (∃ w, ReadsAs s 0x2FFFE w) :=
  ⟨⟨_, .inSymbol 0 (by omega)⟩, ⟨_, .inSymbol 65534 (by omega)⟩, ⟨_, .outSymbol 0 (by omega)⟩, ⟨_, .outSymbol 65534 (by omega)⟩⟩

theorem witness_HostWrite : ∀ i ∈ ([3, 4, 5, 0x10000, 0x1FFFE] : List RegIndex),
    (given (.write i 0x1234)).pending = .write i 0x1234 :: [] := fun _ _ => rfl

theorem witness_ResetEvent : (given .reset).pending = .reset :: [] := rfl

theorem witness_OnlyHostWritesIn :
    let s := { given (.write 0x10000 5) with mem := [(0x10000, 1)] }
    after (step s) (fun t => decide (t.readIn 0 ≠ s.readIn 0)) = some true := by decide

theorem witness_InvalidParams : isCodec .decPkt = true ∧ ¬(loaded 300 0 []).paramsValid ∧ ¬(loaded 5 10 []).paramsValid ∧
    ¬(loaded 256 223 []).paramsValid := by
  unfold State.paramsValid; decide

theorem witness_WrongSize : (loaded 10 5 [1, 2, 3, 4]).paramsValid ∧
    (loaded 10 5 [1, 2, 3, 4]).inLen.toNat < (loaded 10 5 [1, 2, 3, 4]).k.toNat ∧
    { loaded 10 5 [] with inLen := 9 }.inLen.toNat < (loaded 10 5 []).n.toNat ∧
    (loaded 10 5 []).inLen.toNat = 0 ∧ { loaded 10 5 [] with inLen := 15 }.inLen.toNat % (loaded 10 5 []).n.toNat ≠ 0 := by
  unfold State.paramsValid; decide

theorem witness_Capacity :
    let s := { loaded 255 223 [] with inLen := 57312 }
    s.paramsValid ∧ 65535 < (s.inLen.toNat + s.k.toNat - 1) / s.k.toNat * s.n.toNat := by
  unfold State.paramsValid; decide

theorem witness_EncBlk : (loaded 3 1 [0xAB]).paramsValid ∧ (loaded 3 1 [0xAB]).k.toNat ≤ (loaded 3 1 [0xAB]).inLen.toNat ∧
    (loaded 3 3 [9, 8, 7]).paramsValid ∧ ∃ t, exec .encBlk (loaded 3 1 [0xAB]) = .next t := by
  refine ⟨?_, ?_, ?_, _, rfl⟩ <;> (try unfold State.paramsValid) <;> decide

theorem witness_EncPkt :
    let s := { loaded 255 223 [] with inLen := 57311 }
    s.paramsValid ∧ (s.inLen.toNat + s.k.toNat - 1) / s.k.toNat * s.n.toNat = 65535 := by
  unfold State.paramsValid; decide

theorem witness_DecBlk : (loaded 3 1 [0xAB, 0xDD, 0x31]).paramsValid ∧
    (loaded 3 1 [0xAB, 0xDD, 0x31]).n.toNat ≤ (loaded 3 1 [0xAB, 0xDD, 0x31]).inLen.toNat ∧
    IsCodeword ((loaded 3 1 [0xAB, 0xDD, 0x31]).inSymbols 0 3) 2 := by
  unfold State.paramsValid IsCodeword; decide +kernel

/-- The clauses on `ECOUNT` and `ROOTCNT` of `DecBlkOutcome`. -/
theorem witness_DecBlkOutcome : after (exec .decBlk (loaded 2 1 [0, 1]))
    (fun t => (decide ((2 - 1) / 2 < t.ecount.toNat), decide (t.rootcnt ≠ t.ecount))) = some (true, true) := by
  decide +kernel

/-- The clause of `DecBlkOutcome` on roots outside the block: one error counted, one root, whose power is n itself. -/
theorem witness_DecBlkOutcome_outside : ∃ t, exec .decBlk (loaded 3 1 [0, 0x1C, 0x30]) = .next t ∧
    t.ecount ≠ 0 ∧ t.rootcnt = t.ecount ∧ ∃ m ∈ t.locatorPowers, (loaded 3 1 [0, 0x1C, 0x30]).n.toNat ≤ m := by
  have h : after (exec .decBlk (loaded 3 1 [0, 0x1C, 0x30])) (fun t => (t.ecount, t.rootcnt, t.lambda.valueAt 3)) =
    some (1, 1, 0) := by decide +kernel
  obtain ⟨t, ht, hf⟩ := next_of_after h
  obtain ⟨he, hr, hv⟩ : t.ecount = 1 ∧ t.rootcnt = 1 ∧ t.lambda.valueAt 3 = 0 := by simpa using hf
  exact ⟨t, ht, by rw [he]; decide, hr.trans he.symm, 3,
    List.mem_filter.mpr ⟨List.mem_range.mpr (by decide), by rw [hv]; decide⟩, by decide⟩

/-- The clauses of `DecBlkPipelineContent`, and the premises of `CorrectedBlockIsCodeword`: t errors are counted, t = 1, and
the block decodes (V-DEC-14). -/
theorem witness_DecBlkPipelineContent : (loaded 3 1 [0x00, 0xDD, 0x31]).paramsValid ∧
    (loaded 3 1 [0x00, 0xDD, 0x31]).n.toNat ≤ (loaded 3 1 [0x00, 0xDD, 0x31]).inLen.toNat ∧
    ∃ t, exec .decBlk (loaded 3 1 [0x00, 0xDD, 0x31]) = .next t ∧ t.code = .ok ∧ t.ecount ≠ 0 ∧
      t.ecount.toNat ≤ (3 - 1) / 2 ∧ 0 < t.rootcnt.toNat := by
  refine ⟨by unfold State.paramsValid; decide, by decide, ?_⟩
  obtain ⟨t, ht, hf⟩ := next_of_after test_decBlk
  obtain ⟨hc, -, -, -, he, hr, -⟩ := by simpa only [Prod.mk.injEq] using hf
  exact ⟨t, ht, hc, by rw [he]; decide, by rw [he]; decide, by rw [hr]; decide⟩

/-- Two of at most two symbols altered (V-DEC-3). -/
theorem witness_ErrorsUpToCapacity :
    let s := loaded 10 5 [0x00, 0x65, 0x6C, 0x6C, 0x6F, 0xBE, 0xEF, 0x94, 0x50, 0xAD]
    let c := [0x68, 0x65, 0x6C, 0x6C, 0x6F, 0xBE, 0xEF, 0x94, 0x50, (0xAC : Byte)]
    s.paramsValid ∧ s.n.toNat ≤ s.inLen.toNat ∧ c.length = s.n.toNat ∧ IsCodeword c (s.n.toNat - s.k.toNat) ∧
    s.distanceTo c = (s.n.toNat - s.k.toNat) / 2 := by
  unfold State.paramsValid IsCodeword; decide +kernel

/-- No parity symbols and nothing altered. -/
theorem witness_ErrorsUpToCapacity_none :
    let s := loaded 3 3 [9, 8, 7]
    s.paramsValid ∧ IsCodeword [9, 8, 7] (s.n.toNat - s.k.toNat) ∧ s.distanceTo [9, 8, 7] ≤ (s.n.toNat - s.k.toNat) / 2 := by
  unfold State.paramsValid IsCodeword; decide +kernel

theorem witness_SingleError_first : (loaded 3 1 [0, 0xDD, 0x31]).paramsValid ∧ IsCodeword [0xAB, 0xDD, 0x31] 2 ∧
    ∀ j, j < 3 → (loaded 3 1 [0, 0xDD, 0x31]).readIn j =
      if j = 0 then [0xAB, 0xDD, 0x31].getD j 0 ^^^ 0xAB else [0xAB, 0xDD, 0x31].getD j (0 : Byte) := by
  unfold State.paramsValid IsCodeword; decide +kernel

theorem witness_SingleError_last : ∀ j, j < 3 → (loaded 3 1 [0xAB, 0xDD, 0x30]).readIn j =
      if j = 2 then [0xAB, 0xDD, 0x31].getD j 0 ^^^ 1 else [0xAB, 0xDD, 0x31].getD j (0 : Byte) := by
  decide +kernel

theorem witness_BerlekampMassey : (List.replicate 254 (1 : Byte)).length ≤ 254 := Nat.le_of_eq List.length_replicate

theorem witness_DecPktResult :
    let s := loaded 3 1 [0xAB, 0xDD, 0x31]
    s.paramsValid ∧ 0 < s.inLen.toNat ∧ s.inLen.toNat % s.n.toNat = 0 ∧
    ([[0xAB]] : List (List Byte)).length = s.inLen.toNat / s.n.toNat ∧
    (decodeBlock (s.inSymbols 0 3) 3 1).data = some [0xAB] := by
  unfold State.paramsValid; decide +kernel

/-- The first block decodes, the second one fails. -/
theorem witness_DecPktAborts :
    let s := loaded 2 1 [0, 0, 0, 1]
    s.paramsValid ∧ 0 < s.inLen.toNat ∧ s.inLen.toNat % s.n.toNat = 0 ∧ 1 < s.inLen.toNat / s.n.toNat ∧
    (decodeBlock (s.inSymbols 0 2) 2 1).data ≠ none ∧ (decodeBlock (s.inSymbols 2 2) 2 1).data = none := by
  unfold State.paramsValid; decide +kernel

theorem witness_PacketRoundTrip :
    let s := loaded 3 1 [0xAB]
    let u := loaded 3 1 [0xAB, 0xDD, 0x31]
    s.paramsValid ∧ 0 < s.inLen.toNat ∧ (s.inLen.toNat + s.k.toNat - 1) / s.k.toNat * s.n.toNat ≤ 65535 ∧
    u.n = s.n ∧ u.k = s.k ∧
    after (exec .encPkt s) (fun t => decide (u.inLen = t.outLen) && [0, 1, 2].all (fun i => u.readIn i == t.readOut i)) =
      some true := by
  unfold State.paramsValid; decide +kernel

theorem witness_ErrorCompletion : after (exec (.gfDiv 1 0) State.reset) (fun t => t.code) = some .divideByZero ∧
    after (exec .decBlk (loaded 2 1 [0, 1])) (fun t => t.code) = some .uncorrectable := by
  decide +kernel

theorem witness_CommandsNext (i : Instr) (s : State) : ∃ t, exec i s = .next t :=
  let ⟨t, h, _⟩ := exec_cases i s
  ⟨t, h⟩

theorem witness_SameInputs : State.sameInputs State.reset { State.reset with r := 1, outLen := 2 } :=
  ⟨rfl, rfl, rfl, fun _ _ => rfl⟩

/-- One symbol of `IN`, one of `OUT`; a step from there. -/
theorem witness_MemInv :
    let s := { State.reset with mem := [(0x1FFFE, 3), (0x20000, 4)], outLen := 1, pending := [.write 0 0] }
    s.MemInv ∧ s.outLen.toNat ≤ 1 ∧ ∃ t, step s = .next t := by
  refine ⟨⟨by decide, by decide, by decide⟩, by decide, _, rfl⟩

theorem witness_PipelineInv :
    let s := { State.reset with lambda := RegFile.load [1, 4], ecount := 1, rootcnt := 1, errpos := RegFile.load [2], errmag := RegFile.load [9], gpoly := RegFile.load (genpoly 2), pending := [.write 0 0] }
    s.PipelineInv ∧ s.rootcnt.toNat ≤ 127 ∧ ∃ t, step s = .next t := by
  refine ⟨⟨.inr (RegFile.load_getElem _ _ _), by decide, fun i h => ?_, fun i h => ?_, .inr ⟨2, by decide, rfl⟩⟩, by decide, _, rfl⟩
  · have : ¬ i.val < [(2 : Byte)].length := Nat.not_lt.mpr h
    exact (RegFile.load_getElem _ _ i.isLt).trans (List.getD_eq_default _ _ (Nat.not_lt.mp this))
  · have : ¬ i.val < [(9 : Byte)].length := Nat.not_lt.mpr h
    exact (RegFile.load_getElem _ _ i.isLt).trans (List.getD_eq_default _ _ (Nat.not_lt.mp this))

end Sys2Proof.Tests
end

section
/-! SUPPORT. What one step can do, said once, and what follows for a symbol of `IN`. -/

namespace Sys2Proof.Machine

/-- Everything a step can leave behind, said once (R41, R42, R60, R65, R186, R200): nothing pending, a transaction that is
only answered, a parameter register written, a symbol of `IN` written, a command (an illegal word included) carried out in the
state where its word is stored, or a reset. -/
inductive StepResult (s : State) : State → Prop where
  | idle (h : s.pending = []) : StepResult s s
  | answered (e : HostEvent) (rest : List HostEvent) (h : s.pending = e :: rest) (a : BusResponse) :
      StepResult s (({ s with pending := rest } : State).answer a)
  | parameter (e : HostEvent) (rest : List HostEvent) (h : s.pending = e :: rest) (n k len : Half) :
      StepResult s (({ s with pending := rest, n := n, k := k, inLen := len } : State).answer .ack)
  | inSymbol (idx : RegIndex) (v : Word) (rest : List HostEvent) (h : s.pending = .write idx v :: rest) (i : Nat)
      (hidx : idx.toNat = inBase + i) (hi : i < Config.bufBytes) :
      StepResult s ((({ s with pending := rest } : State).writeIn i (v.setWidth 8)).answer .ack)
  | command (v : Word) (rest : List HostEvent) (h : s.pending = .write 0 v :: rest) (t : State)
      (he : Effect (({ s with pending := rest, cmd := v } : State).answer .ack) t) : StepResult s t
  | reset (rest : List HostEvent) (h : s.pending = .reset :: rest) :
      StepResult s ({ s with pending := rest } : State).resetNow

/-- A write transaction that is not a write to `CMD` (R42, R186). -/
theorem StepResult.of_hostWrite {s : State} {idx : RegIndex} {v : Word} {rest : List HostEvent}
    (h : s.pending = .write idx v :: rest) (hc : locate idx ≠ some .cmd) :
    StepResult s (({ s with pending := rest } : State).hostWrite idx v) := by
  rcases State.hostWrite_cases { s with pending := rest } idx v with hb | ⟨l, t, hl, ht, hb⟩
  · exact hb ▸ .answered _ _ h _
  · rw [hb]
    cases l with
    | cmd => exact absurd hl hc
    | n => cases ht; exact .parameter _ _ h _ s.k s.inLen
    | k => cases ht; exact .parameter _ _ h s.n _ s.inLen
    | inLen => cases ht; exact .parameter _ _ h s.n s.k _
    | inBuf i =>
      obtain ⟨hidx, hi⟩ := locate_inBuf hl
      cases ht
      exact .inSymbol _ _ _ h i hidx hi
    | status => cases ht
    | r => cases ht
    | outLen => cases ht
    | ecount => cases ht
    | rootcnt => cases ht
    | ladderLen => cases ht
    | file f i => cases ht
    | outBuf i => cases ht

/-- Every step ends in one of these ways. -/
theorem step_cases {s t : State} (h : step s = .next t) : StepResult s t := by
  cases hp : s.pending with
  | nil =>
    cases (step_idle hp).symm.trans h
    exact .idle hp
  | cons e rest =>
    rw [step_event hp] at h
    rcases State.take_cases { s with pending := rest } e with ⟨idx, rfl, ht⟩ | ⟨idx, v, rfl, hc, ht⟩ |
      ⟨idx, v, i, rfl, hc, _, ht⟩ | ⟨idx, v, r, rfl, hc, _, ht⟩ | ⟨rfl, ht⟩ <;> rw [ht] at h
    case inl =>
      cases h
      rcases State.hostRead_cases { s with pending := rest } idx with ⟨_, hr⟩ | ⟨l, _, hr⟩ <;>
        exact hr ▸ .answered _ _ hp _
    case inr.inl =>
      cases h
      exact .of_hostWrite hp hc
    case inr.inr.inl =>
      obtain rfl := locate_cmd.mp hc
      obtain ⟨u, hu, he⟩ := exec_cases i (({ s with pending := rest, cmd := v } : State).answer .ack)
      cases hu.symm.trans h
      exact .command v rest hp _ he
    case inr.inr.inr.inl =>
      obtain rfl := locate_cmd.mp hc
      cases h
      exact .command v rest hp _ (.codeOnly _)
    case inr.inr.inr.inr =>
      cases h
      exact .reset rest hp

/-- No command reaches `IN` (R28, R52). -/
theorem Effect.readIn_eq {s t : State} (h : Effect s t) {i : Nat} (hi : i < 0x10000) : t.readIn i = s.readIn i := by
  cases h with
  | codeOnly c => rfl
  | result v => rfl
  | params c _ => rfl
  | failed c _ => exact State.readIn_fail s c hi
  | encoded p _ out _ => exact State.readIn_setOut (s.setGpoly _) out hi
  | undecoded blk n k _ => exact State.readIn_fail (s.setPipeline _) _ hi
  | decoded blk n k _ out _ => exact State.readIn_setOut (s.setPipeline _) out hi

/-- Settles O15: of the ways a step can end, only a write to the symbol's index and a reset reach the symbol. -/
theorem onlyHostWritesIn : Obligations.OnlyHostWritesIn := by
  intro s t i hi hstep hne
  cases step_cases hstep with
  | idle _ => exact absurd rfl hne
  | answered e rest _ a => exact absurd rfl hne
  | parameter e rest _ n k len => exact absurd rfl hne
  | inSymbol idx v rest h j hidx _ =>
    by_cases hij : i = j
    · subst hij
      exact .inr ⟨rest, idx, v, h, hidx⟩
    · exact absurd (State.readIn_writeIn_other { s with pending := rest } _ hij) hne
  | command v rest _ _ he => exact absurd (he.readIn_eq (Nat.lt_succ_of_lt hi)) hne
  | reset rest h => exact .inl ⟨rest, h⟩

end Sys2Proof.Machine
end

section
/-! SUPPORT. The memory invariant (R28, R29, R40): the operations over memory keep it. -/

namespace Sys2Proof.Machine

theorem Memory.mem_of_read? {m : Memory} {x : Nat} {v : Byte} (h : m.read? x = some v) : (x, v) ∈ m := by
  induction m with
  | nil => cases h
  | cons c m ih =>
    obtain ⟨a, w⟩ := c
    simp only [Memory.read?] at h
    split at h
    · next ha => cases h; subst ha; exact List.mem_cons_self
    · exact List.mem_cons_of_mem _ (ih h)

/-- The windows of `IN` and `OUT` are apart (R40). -/
theorem inBase_add_bufBytes_le_outBase : inBase + Config.bufBytes ≤ outBase := by decide

/-- The invariant speaks of memory and `OUT_LEN` only. -/
theorem State.MemInv.congr {s t : State} (hs : s.MemInv) (hm : t.mem = s.mem) (hl : t.outLen = s.outLen) : t.MemInv where
  wf := hm ▸ hs.wf
  windows := by rw [hm, hl]; exact hs.windows
  result := by rw [hm, hl]; exact hs.result

theorem State.MemInv.of_empty {s : State} (hm : s.mem = []) (hl : s.outLen = 0) : s.MemInv where
  wf := hm ▸ List.Pairwise.nil
  windows c hc := by simp [hm] at hc
  result i hi := by simp [hl] at hi

theorem State.MemInv.writeIn {s : State} (hs : s.MemInv) {i : Nat} (hi : i < Config.bufBytes) (v : Byte) :
    (s.writeIn i v).MemInv where
  wf := State.writeIn_wf hs.wf i v
  windows c hc := by
    rcases Memory.mem_write hc with rfl | hc
    · exact .inl ⟨Nat.le_add_right _ _, Nat.add_lt_add_left hi _⟩
    · exact hs.windows c hc
  result j hj := by
    have hne : outBase + j ≠ inBase + i := by have := inBase_add_bufBytes_le_outBase; omega
    rw [State.writeIn_mem, Memory.read?_write_other _ _ hne]
    exact hs.result j hj

/-- A result replaces exactly what was listed of `OUT` (R18, R29). -/
theorem State.MemInv.setOut {s : State} (hs : s.MemInv) {l : List Byte} (hl : l.length ≤ Config.bufBytes) :
    (s.setOut l).MemInv := by
  have hlen : (s.setOut l).outLen.toNat = l.length := by
    have : Config.bufBytes = 65535 := rfl
    rw [State.setOut_outLen, BitVec.toNat_ofNat, Nat.mod_eq_of_lt (by omega)]
  refine ⟨State.setOut_wf hs.wf l, fun c hc => ?_, fun i hi => ?_⟩
  · rw [hlen]
    rcases List.mem_append.mp hc with hc | hc
    · obtain ⟨hc, hlt⟩ := Memory.mem_below.mp hc
      exact .inl ((hs.windows c hc).resolve_right fun h => by omega)
    · exact .inr (mem_cellsFrom hc)
  · rw [hlen] at hi
    simp [Memory.read?_append, Memory.read?_below, read?_cellsFrom, hi]

theorem State.MemInv.fail {s : State} (hs : s.MemInv) (c : Completion) : (s.fail c).MemInv :=
  (hs.setOut (l := []) (Nat.zero_le _)).congr rfl rfl

theorem Effect.memInv {s t : State} (h : Effect s t) (hs : s.MemInv) : t.MemInv := by
  cases h with
  | codeOnly c => exact hs.congr rfl rfl
  | result v => exact hs.congr rfl rfl
  | params c _ => exact hs.congr rfl rfl
  | failed c _ => exact hs.fail c
  | encoded p _ out hl => exact ((hs.congr (t := s.setGpoly (genpoly p)) rfl rfl).setOut hl).congr rfl rfl
  | undecoded blk n k _ => exact (hs.congr (t := s.setPipeline _) rfl rfl).fail _
  | decoded blk n k _ out hl =>
    exact ((hs.congr (t := s.setPipeline (decodeBlock blk n k)) rfl rfl).setOut hl).congr rfl rfl

/-- Settles O49, by the ways a step can end. -/
theorem stepKeepsMemInv : Obligations.StepKeepsMemInv := by
  intro s t hs hstep
  cases step_cases hstep with
  | idle _ => exact hs
  | answered e rest _ a => exact hs.congr rfl rfl
  | parameter e rest _ n k len => exact hs.congr rfl rfl
  | inSymbol idx v rest _ i _ hi =>
    exact ((hs.congr (t := { s with pending := rest }) rfl rfl).writeIn hi _).congr rfl rfl
  | command v rest _ _ he => exact he.memInv (hs.congr rfl rfl)
  | reset rest _ => exact .of_empty rfl rfl

/-- Settles O50: after reset nothing is listed and `OUT_LEN` is 0. -/
theorem resetMemInv : Obligations.ResetMemInv := .of_empty rfl rfl

/-- Settles O54: an `OUT` symbol from `OUT_LEN` on lies in neither window, so it is not listed. -/
theorem outBeyondLengthIsFree : Obligations.OutBeyondLengthIsFree := by
  intro s i hs hlen _
  have hnone : s.mem.read? (outBase + i) = none := by
    refine Option.eq_none_iff_forall_not_mem.mpr fun v hv => ?_
    have hbases := inBase_add_bufBytes_le_outBase
    rcases hs.windows _ (Memory.mem_of_read? hv) with ⟨_, h⟩ | ⟨_, h⟩ <;> dsimp only at h <;> omega
  rw [State.readOut, hnone, Option.getD_none]

end Sys2Proof.Machine
end

section
/-! SUPPORT. The write of a command word, the reset values, and that the completion code is never read. -/

namespace Sys2Proof.Machine

/-- A write to `CMD` stores the word, is acknowledged, and asks what the word asks (R13, R42, R60). -/
theorem State.take_write_cmd (s : State) (w : Word) :
    s.take (.write 0 w) = (({ s with cmd := w } : State).answer .ack).command w := rfl

theorem State.command_of_legal (s : State) {w : Word} {i : Instr} (h : decode w = .ok i) : s.command w = .run i s := by
  simp only [State.command, h]

/-- Settles O6: index 0 is `CMD`, and the word that is stored there is legal. -/
theorem stepRunsDecodedCommand : Obligations.StepRunsDecodedCommand := by
  intro s rest w i hp hw
  rw [step_event hp, State.take_write_cmd, State.command_of_legal _ hw]
  rfl

/-- Settles O13; each of the six register files is the all-zero one after reset. -/
theorem resetValues : Obligations.ResetValues := by
  refine ⟨rfl, rfl, rfl, rfl, rfl, rfl, rfl, rfl, rfl, ?_, fun f i => ?_⟩
  · simp [State.readLocation, ladderLen, ladder_eq]
  · have hfile : State.reset.file f = RegFile.zero := by cases f <;> rfl
    simp [State.readLocation, hfile]

/-- Settles O47, command by command: neither the operands nor what a command leaves depend on the code before it. -/
theorem codeIsNeverRead : Obligations.CodeIsNeverRead := by
  intro i s c
  cases i <;> rfl

end Sys2Proof.Machine
end

section
/-! SUPPORT. The laws of GF(256), from the tables and from multiplication by x alone (R80 to R88). -/

namespace Sys2Proof.Machine

/-! ### The powers of alpha -/

theorem xtime_eq (v : Byte) : xtime v = (v <<< 1) ^^^ (if v.msb then 0x1D else 0) := by
  revert v
  decide +kernel

/-- Multiplication by x is additive: shifting is, and so is the choice of the reduction by the top bit. -/
theorem xtime_gfAdd (a b : Byte) : xtime (gfAdd a b) = gfAdd (xtime a) (xtime b) := by
  have hred : (if a.msb ^^ b.msb then (0x1D : Byte) else 0) =
      (if a.msb then 0x1D else 0) ^^^ (if b.msb then 0x1D else 0) := by
    cases a.msb <;> cases b.msb <;> decide
  simp only [gfAdd, xtime_eq, BitVec.msb_xor, BitVec.shiftLeft_xor_distrib, hred]
  ac_rfl

theorem iterate_xtime_gfAdd (e : Nat) (a b : Byte) : xtime^[e] (gfAdd a b) = gfAdd (xtime^[e] a) (xtime^[e] b) := by
  induction e with
  | zero => rfl
  | succ e ih => simp only [Function.iterate_succ_apply', ih, xtime_gfAdd]

theorem expAt_succ : ∀ i, i < 255 → expAt (i + 1) = xtime (expAt i) := by decide +kernel

theorem alphaPow_zero : alphaPow 0 = 1 := by decide

theorem alphaPow_succ (e : Nat) : alphaPow (e + 1) = xtime (alphaPow e) := by
  have hlt : e % 255 < 255 := Nat.mod_lt _ (by decide)
  rw [alphaPow, alphaPow, ← expAt_succ _ hlt]
  by_cases hwrap : e % 255 = 254
  · rw [hwrap, show (e + 1) % 255 = 0 by omega]
    decide
  · rw [show (e + 1) % 255 = e % 255 + 1 by omega]

theorem alphaPow_eq_iterate (e : Nat) : alphaPow e = xtime^[e] 1 := by
  induction e with
  | zero => exact alphaPow_zero
  | succ e ih => rw [alphaPow_succ, ih, Function.iterate_succ_apply']

theorem alphaPow_ne_zero (e : Nat) : alphaPow e ≠ 0 := by
  have htable : ∀ i, i < 255 → expAt i ≠ 0 := by decide +kernel
  exact htable _ (Nat.mod_lt _ (by decide))

theorem logAt_alphaPow (e : Nat) : logAt (alphaPow e) = e % 255 := by
  have htable : ∀ i, i < 255 → logAt (expAt i) = i := by decide +kernel
  exact htable _ (Nat.mod_lt _ (by decide))

theorem alphaPow_logAt : ∀ v : Byte, v ≠ 0 → alphaPow (logAt v) = v := by decide +kernel

theorem logAt_lt : ∀ v : Byte, v ≠ 0 → logAt v < 255 := by decide +kernel

theorem alphaPow_inj {i j : Nat} : alphaPow i = alphaPow j ↔ i % 255 = j % 255 :=
  ⟨fun h => by rw [← logAt_alphaPow, h, logAt_alphaPow], fun h => by rw [alphaPow, h, alphaPow]⟩

/-- Every nonzero element is a power of alpha (R80). -/
theorem eq_zero_or_eq_alphaPow (v : Byte) : v = 0 ∨ ∃ e, v = alphaPow e :=
  (eq_or_ne v 0).imp id fun h => ⟨logAt v, (alphaPow_logAt v h).symm⟩

/-! ### Multiplication -/

@[simp] theorem gfMul_zero (a : Byte) : gfMul a 0#8 = 0#8 := if_pos (.inr rfl)

@[simp] theorem zero_gfMul (a : Byte) : gfMul 0#8 a = 0#8 := if_pos (.inl rfl)

theorem gfMul_alphaPow_alphaPow (i j : Nat) : gfMul (alphaPow i) (alphaPow j) = alphaPow (i + j) := by
  rw [gfMul, if_neg (not_or.mpr ⟨alphaPow_ne_zero i, alphaPow_ne_zero j⟩), logAt_alphaPow, logAt_alphaPow, alphaPow,
    ← Nat.add_mod]

theorem gfMul_comm (a b : Byte) : gfMul a b = gfMul b a := by
  simp only [gfMul, or_comm, Nat.add_comm]

theorem gfMul_assoc (a b c : Byte) : gfMul (gfMul a b) c = gfMul a (gfMul b c) := by
  obtain rfl | ⟨i, rfl⟩ := eq_zero_or_eq_alphaPow a
  · simp
  obtain rfl | ⟨j, rfl⟩ := eq_zero_or_eq_alphaPow b
  · simp
  obtain rfl | ⟨k, rfl⟩ := eq_zero_or_eq_alphaPow c
  · simp
  simp only [gfMul_alphaPow_alphaPow, Nat.add_assoc]

theorem iterate_xtime_zero (e : Nat) : xtime^[e] 0 = 0 := Function.iterate_fixed (by decide) e

/-- Multiplying by alpha^e is multiplying e times by x. -/
theorem gfMul_alphaPow (a : Byte) (e : Nat) : gfMul a (alphaPow e) = xtime^[e] a := by
  obtain rfl | ⟨i, rfl⟩ := eq_zero_or_eq_alphaPow a
  · exact (zero_gfMul _).trans (iterate_xtime_zero e).symm
  · rw [gfMul_alphaPow_alphaPow, alphaPow_eq_iterate, alphaPow_eq_iterate, Nat.add_comm, Function.iterate_add_apply]

@[simp] theorem gfMul_one (a : Byte) : gfMul a 1#8 = a :=
  gfMul_alphaPow a 0

theorem gfAdd_gfMul (a b c : Byte) : gfMul (gfAdd a b) c = gfAdd (gfMul a c) (gfMul b c) := by
  obtain rfl | ⟨k, rfl⟩ := eq_zero_or_eq_alphaPow c
  · simp [gfAdd]
  · simp only [gfMul_alphaPow, iterate_xtime_gfAdd]

theorem gfMul_gfAdd (a b c : Byte) : gfMul a (gfAdd b c) = gfAdd (gfMul a b) (gfMul a c) := by
  rw [gfMul_comm, gfAdd_gfMul, gfMul_comm b, gfMul_comm c]

/-- A quotient times the divisor is the dividend (R84, R88 (iii)). -/
theorem gfMul_of_gfDiv {a b q : Byte} (h : gfDiv a b = some q) : gfMul q b = a := by
  have hb : b ≠ 0 := fun hb => by cases (gfDiv_eq_none.mpr hb).symm.trans h
  rw [gfDiv, if_neg hb] at h
  split at h <;> cases h
  · next ha => exact (zero_gfMul b).trans ha.symm
  · next ha =>
    have hlog := logAt_lt b hb
    calc gfMul (alphaPow (255 + logAt a - logAt b)) b
      _ = gfMul (alphaPow (255 + logAt a - logAt b)) (alphaPow (logAt b)) := by rw [alphaPow_logAt b hb]
      _ = alphaPow (255 + logAt a) := by rw [gfMul_alphaPow_alphaPow, Nat.sub_add_cancel (by omega)]
      _ = alphaPow (logAt a) := alphaPow_inj.mpr (Nat.add_mod_left _ _)
      _ = a := alphaPow_logAt a ha

theorem gfMul_gfInv_getD {a : Byte} (h : a ≠ 0) : gfMul a ((gfInv a).getD 0) = 1 := by
  cases hq : gfInv a with
  | none => exact absurd (gfDiv_eq_none.mp hq) h
  | some q => rw [Option.getD_some, gfMul_comm, gfMul_of_gfDiv hq]

/-! ### The symbols as a field of Mathlib's -/

/-- The field the tables make of the symbols, to be named where it is meant: the operators on symbols are the
arithmetic of bit vectors. -/
abbrev gfField : Field Byte :=
  @Field.ofMinimalAxioms Byte ⟨gfAdd⟩ ⟨gfMul⟩ ⟨id⟩ ⟨fun a => (gfInv a).getD 0⟩ ⟨0⟩ ⟨1⟩
    BitVec.xor_assoc (fun _ => BitVec.zero_xor) (fun _ => BitVec.xor_self) gfMul_assoc gfMul_comm
    (fun a => (gfMul_comm 1 a).trans (gfMul_one a)) (fun _ => gfMul_gfInv_getD) (by decide) gfMul_gfAdd
    ⟨0, 1, by decide⟩

/-- `φ` reads symbols as the elements of a field, with `add` and `mul` as its addition and multiplication (R82, R83). -/
structure IsFieldReading {F : Type} [Field F] (φ : Byte → F) : Prop where
  map_add (a b : Byte) : φ (gfAdd a b) = φ a + φ b
  map_mul (a b : Byte) : φ (gfMul a b) = φ a * φ b
  bijective : Function.Bijective φ

/-- So a proof about polynomials over the symbols can use Mathlib's, over the field this gives. -/
theorem exists_isFieldReading : ∃ (F : Type) (_ : Field F) (φ : Byte → F), IsFieldReading φ :=
  ⟨Byte, gfField, id, @IsFieldReading.mk _ gfField _ (fun _ _ => rfl) (fun _ _ => rfl) Function.bijective_id⟩

variable {F : Type} [Field F] {φ : Byte → F}

theorem IsFieldReading.map_zero (h : IsFieldReading φ) : φ 0#8 = 0 := by
  have h0 : φ 0 = φ 0 + φ 0 := h.map_add 0 0
  simpa using h0

theorem IsFieldReading.map_eq_zero (h : IsFieldReading φ) {a : Byte} : φ a = 0 ↔ a = 0#8 := by
  rw [← h.map_zero, h.bijective.injective.eq_iff]

end Sys2Proof.Machine
end

section
/-! SUPPORT. A degree-indexed sequence as a polynomial (R89, R92), and how many roots it can have (R137). -/

namespace Sys2Proof.Machine

open Polynomial

variable {F : Type} [Field F] {φ : Byte → F}

/-- The polynomial with the given coefficients, entry j that of x^j (R6). -/
noncomputable def polyOf (φ : Byte → F) : List Byte → F[X]
  | [] => 0
  | a :: p => C (φ a) + X * polyOf φ p

theorem coeff_polyOf (h : IsFieldReading φ) (p : List Byte) (j : Nat) : (polyOf φ p).coeff j = φ (p.getD j 0) := by
  induction p generalizing j with
  | nil => simp [polyOf, h.map_zero]
  | cons a p ih =>
    cases j with
    | zero => simp [polyOf]
    | succ j => simp [polyOf, ih]

/-- `horner_deg` evaluates it (R92). -/
theorem eval_polyOf (h : IsFieldReading φ) (p : List Byte) (x : Byte) : (polyOf φ p).eval (φ x) = φ (hornerDeg p x) := by
  induction p with
  | nil => simp [polyOf, hornerDeg, h.map_zero]
  | cons a p ih =>
    have hcons : hornerDeg (a :: p) x = gfAdd (gfMul (hornerDeg p x) x) a := rfl
    rw [hcons, h.map_add, h.map_mul, ← ih]
    simp [polyOf, add_comm, mul_comm]

theorem alphaPowNeg_injOn {i j : Nat} (hi : i < 255) (hj : j < 255) (h : alphaPowNeg i = alphaPowNeg j) : i = j := by
  have hmod : (255 - i) % 255 = (255 - j) % 255 := alphaPow_inj.mp h
  omega

theorem mem_rootPowers {lam : List Byte} {m : Nat} :
    m ∈ rootPowers lam ↔ m < 255 ∧ hornerDeg lam (alphaPowNeg m) = 0 := by
  simp [rootPowers]

/-- A nonzero polynomial of degree at most L has at most L roots, and different root powers are different roots. -/
theorem rootPowers_length_le {lam : List Byte} {L : Nat} (hne : lam.getD 0 0 ≠ 0) (hdeg : ∀ j, L < j → lam.getD j 0 = 0) :
    (rootPowers lam).length ≤ L := by
  classical
  obtain ⟨F, _, φ, hφ⟩ := exists_isFieldReading
  have hpoly : polyOf φ lam ≠ 0 := fun h => hne (hφ.map_eq_zero.mp (by rw [← coeff_polyOf hφ, h, coeff_zero]))
  have hnodup : ((rootPowers lam).map fun m => φ (alphaPowNeg m)).Nodup :=
    (List.nodup_range.filter _).map_on fun i hi j hj hij =>
      alphaPowNeg_injOn (mem_rootPowers.mp hi).1 (mem_rootPowers.mp hj).1 (hφ.bijective.injective hij)
  have hroots : ((rootPowers lam).map fun m => φ (alphaPowNeg m)).toFinset.val ⊆ (polyOf φ lam).roots := by
    intro x hx
    obtain ⟨m, hm, rfl⟩ := List.mem_map.mp (List.mem_toFinset.mp hx)
    rw [mem_roots hpoly, IsRoot, eval_polyOf hφ]
    exact hφ.map_eq_zero.mpr (mem_rootPowers.mp hm).2
  calc (rootPowers lam).length
    _ = ((rootPowers lam).map fun m => φ (alphaPowNeg m)).toFinset.card := by
      rw [List.toFinset_card_of_nodup hnodup, List.length_map]
    _ ≤ (polyOf φ lam).natDegree := card_le_degree_of_subset_roots hroots
    _ ≤ L := natDegree_le_iff_coeff_eq_zero.mpr fun j hj =>
      (coeff_polyOf hφ lam j).trans (hφ.map_eq_zero.mpr (hdeg j hj))

end Sys2Proof.Machine
end

section
/-! SUPPORT. The loop invariant of the Berlekamp-Massey stage (R134, R135). -/

namespace Sys2Proof.Machine

/-- The summand x^m * B * c of the update. -/
theorem shifted_getD (prev : List Byte) (m : Nat) (c : Byte) (j : Nat) :
    (List.replicate m 0 ++ pscale prev c).getD j 0 = if m ≤ j then gfMul (prev.getD (j - m) 0) c else 0 := by
  split
  · next hj =>
    have hmap := List.getD_map (l := prev) (d := 0) (n := j - m) (f := fun a => gfMul a c)
    rw [List.getD_append_right _ _ _ _ (by simpa using hj), List.length_replicate, ← hmap]
    exact congrArg _ (zero_gfMul c).symm
  · next hj =>
    have hj : j < m := Nat.not_le.mp hj
    rw [List.getD_append _ _ _ _ (by simpa using hj), List.getD_replicate _ hj]

theorem bmUpdate_getD (lam prev : List Byte) (m : Nat) (c : Byte) (j : Nat) (h : lam.length ≤ prev.length) :
    (bmUpdate lam prev m c).getD j 0 =
      if m ≤ j ∧ j < lam.length then gfAdd (lam.getD j 0) (gfMul (prev.getD (j - m) 0) c) else lam.getD j 0 := by
  by_cases hj : j < lam.length
  · have hlen : j < (List.replicate m 0 ++ pscale prev c).length := by simp [pscale]; omega
    have hget : (bmUpdate lam prev m c).getD j 0 =
        gfAdd (lam.getD j 0) ((List.replicate m 0 ++ pscale prev c).getD j 0) := by
      rw [List.getD_eq_getElem _ _ (by simp; omega), List.getD_eq_getElem _ _ hj, List.getD_eq_getElem _ _ hlen]
      exact List.getElem_zipWith
    rw [hget, shifted_getD]
    by_cases hm : m ≤ j
    · simp only [hm, hj, and_self, if_true]
    · simp [hm, gfAdd]
  · rw [List.getD_eq_default _ _ (by simp; omega), List.getD_eq_default _ _ (by omega), if_neg (by omega)]

/-- What holds before step i: the facts of R135, and for the saved polynomial B that x^m B, the summand of the next update,
has degree at most i + 1 - L. -/
structure BmVars.Inv (i : Nat) (v : BmVars) : Prop where
  lam_length : v.lam.length = 256
  prev_length : v.prev.length = 256
  lam_zero : v.lam.getD 0 0 = 1
  disc_ne_zero : v.disc ≠ 0
  len_le : v.len ≤ i
  shift_pos : 0 < v.shift
  lam_degree : ∀ j, v.len < j → v.lam.getD j 0 = 0
  prev_degree : ∀ j, i + 1 < v.len + v.shift + j → v.prev.getD j 0 = 0

theorem cons_zeros_getD (a : Byte) (n : Nat) {j : Nat} (h : 0 < j) : (a :: List.replicate n 0).getD j 0 = 0 := by
  obtain ⟨j, rfl⟩ := Nat.exists_eq_succ_of_ne_zero h.ne'
  rw [List.getD_cons_succ]
  by_cases hj : j < n
  · exact List.getD_replicate _ hj
  · exact List.getD_eq_default _ _ (by simpa using hj)

theorem bmInit_inv : bmInit.Inv 0 where
  lam_length := congrArg (· + 1) List.length_replicate
  prev_length := congrArg (· + 1) List.length_replicate
  lam_zero := rfl
  disc_ne_zero := by decide
  len_le := Nat.le_refl 0
  shift_pos := Nat.one_pos
  lam_degree j hj := cons_zeros_getD _ _ hj
  prev_degree j hj := cons_zeros_getD _ _ (Nat.lt_of_add_lt_add_left hj)

/-- The updated polynomial: its constant term stays, and its degree is at most i + 1 - L where that is L or more. -/
theorem BmVars.Inv.bmUpdate {i : Nat} {v : BmVars} (h : v.Inv i) (c : Byte) :
    (bmUpdate v.lam v.prev v.shift c).length = 256 ∧ (bmUpdate v.lam v.prev v.shift c).getD 0 0 = 1 ∧
    ∀ j, v.len < j → i + 1 < v.len + j → (bmUpdate v.lam v.prev v.shift c).getD j 0 = 0 := by
  have hget := fun j => bmUpdate_getD v.lam v.prev v.shift c j (by rw [h.lam_length, h.prev_length])
  refine ⟨by simp [h.lam_length, h.prev_length], ?_, fun j hlen hj => ?_⟩
  · rw [hget, if_neg (by have := h.shift_pos; omega), h.lam_zero]
  · rw [hget, h.lam_degree j hlen]
    split
    · next hs =>
      rw [h.prev_degree _ (by omega)]
      exact congrArg (gfAdd 0) (zero_gfMul c)
    · rfl

theorem BmVars.Inv.bmStep {i : Nat} {v : BmVars} (h : v.Inv i) (syn : List Byte) : (bmStep syn v i).Inv (i + 1) := by
  have hlen := h.len_le
  unfold Machine.bmStep
  dsimp only
  split
  · exact { h with
      len_le := hlen.trans (Nat.le_succ i)
      shift_pos := Nat.succ_pos _
      prev_degree := fun j hj => h.prev_degree j (by dsimp only at hj; omega) }
  · next hd =>
    obtain ⟨hlength, hzero, hdeg⟩ := h.bmUpdate ((gfDiv (discrepancy syn v i) v.disc).getD 0)
    split
    · exact {
        lam_length := hlength
        prev_length := h.lam_length
        lam_zero := hzero
        disc_ne_zero := hd
        len_le := by dsimp only; omega
        shift_pos := Nat.one_pos
        lam_degree := fun j hj => by dsimp only at hj; exact hdeg j (by omega) (by omega)
        prev_degree := fun j hj => by dsimp only at hj; exact h.lam_degree j (by omega) }
    · exact {
        lam_length := hlength
        prev_length := h.prev_length
        lam_zero := hzero
        disc_ne_zero := h.disc_ne_zero
        len_le := by dsimp only; omega
        shift_pos := Nat.succ_pos _
        lam_degree := fun j hj => by dsimp only at hj; exact hdeg j hj (by omega)
        prev_degree := fun j hj => h.prev_degree j (by dsimp only at hj; omega) }

/-- The invariant at the end of the stage, with as many steps as there are syndromes. -/
theorem berlekampMassey_inv (syn : List Byte) : (berlekampMassey syn).Inv syn.length := by
  have hloop : ∀ i, ((List.range i).foldl (bmStep syn) bmInit).Inv i := by
    intro i
    induction i with
    | zero => exact bmInit_inv
    | succ i ih =>
      rw [List.range_succ, List.foldl_concat]
      exact ih.bmStep syn
  exact hloop _

end Sys2Proof.Machine
end

section
/-! SUPPORT. What a block's decoding can leave in the pipeline registers (R22, R24 to R26). -/

namespace Sys2Proof.Machine

theorem forney_lengths (omega lp : List Byte) (n : Nat) (ms : List Nat) (w : List Byte) :
    (forney omega lp n ms w).pos.length ≤ ms.length ∧ (forney omega lp n ms w).mag.length ≤ ms.length := by
  induction ms generalizing w with
  | nil => exact ⟨Nat.le_refl _, Nat.le_refl _⟩
  | cons m ms ih =>
    simp only [forney]
    split
    · exact ⟨Nat.zero_le _, Nat.zero_le _⟩
    · next y _ =>
      obtain ⟨hpos, hmag⟩ := ih (w.set (n - 1 - m) (gfAdd (w.getD (n - 1 - m) 0) y))
      exact ⟨Nat.succ_le_succ hpos, Nat.succ_le_succ hmag⟩

/-- The bounds on a block's run: `LAMBDA` is cleared or has constant term 1, the counts are in their ranges, and `ERRPOS` and
`ERRMAG` have no more elements than roots were found. -/
structure BlockRun.Bounded (run : BlockRun) : Prop where
  lambda : run.lambda = [] ∨ run.lambda.getD 0 0 = 1
  ecount : run.ecount ≤ 254
  rootcnt : run.rootcnt ≤ 127
  errpos : run.errpos.length ≤ run.rootcnt
  errmag : run.errmag.length ≤ run.rootcnt

/-- The Chien stage finds at most `ECOUNT` roots, since `LAMBDA` has constant term 1 and degree at most `ECOUNT` (R135, R137). -/
theorem searchedRun_rootcnt_le (r : List Byte) (n k : Nat) : (searchedRun r n k).rootcnt ≤ (solvedRun r n k).ecount := by
  have hbm := berlekampMassey_inv (syndromes r (n - k))
  have hne : (berlekampMassey (syndromes r (n - k))).lam.getD 0 0 ≠ 0 := by rw [hbm.lam_zero]; decide
  exact rootPowers_length_le hne hbm.lam_degree

theorem syndromes_length (w : List Byte) (p : Nat) : (syndromes w p).length = p := by simp [syndromes]

theorem decodeBlock_bounded (r : List Byte) {n k : Nat} (h : validParams n k = true) : (decodeBlock r n k).Bounded := by
  obtain ⟨hk, hkn, hn⟩ := (validParams_eq_true n k).mp h
  have hbm := berlekampMassey_inv (syndromes r (n - k))
  have hlam : (solvedRun r n k).lambda = [] ∨ (solvedRun r n k).lambda.getD 0 0 = 1 := .inr hbm.lam_zero
  have hecount : (solvedRun r n k).ecount ≤ 254 := by
    have hle : (solvedRun r n k).ecount ≤ (syndromes r (n - k)).length := hbm.len_le
    rw [syndromes_length] at hle
    omega
  have hroots := searchedRun_rootcnt_le r n k
  by_cases hclean : ∀ v ∈ syndromes r (n - k), v = 0
  · rw [decodeBlock_clean hclean]
    exact ⟨.inl rfl, Nat.zero_le _, Nat.zero_le _, Nat.le_refl _, Nat.le_refl _⟩
  · rcases decodeBlock_cases hclean with ⟨_, hrun⟩ | ⟨hcap, _, hrun⟩ | ⟨hcap, _, _, hrun⟩ <;> rw [hrun]
    · exact ⟨hlam, hecount, Nat.zero_le _, Nat.zero_le _, Nat.zero_le _⟩
    · exact ⟨hlam, hecount, by omega, Nat.zero_le _, Nat.zero_le _⟩
    · obtain ⟨hpos, hmag⟩ := forney_lengths (evaluator (searchedRun r n k).syn (solvedRun r n k).lambda (n - k))
        (derivative (solvedRun r n k).lambda) n (rootPowers (solvedRun r n k).lambda) r
      exact ⟨hlam, hecount, show (searchedRun r n k).rootcnt ≤ 127 by omega, hpos, hmag⟩

end Sys2Proof.Machine
end

section
/-! SUPPORT. The invariant of the pipeline registers and `GPOLY` (R22, R24, R26, R27) and the range of `ROOTCNT` (R25). -/

namespace Sys2Proof.Machine

/-- The invariant speaks of the pipeline registers and `GPOLY` only. -/
theorem State.PipelineInv.congr {s t : State} (hs : s.PipelineInv) (hp : s.samePipeline t) (hg : t.gpoly = s.gpoly) :
    t.PipelineInv := by
  obtain ⟨_, hlam, _, hpos, hmag, hec, hrc⟩ := hp
  exact {
    lambda := hlam ▸ hs.lambda
    ecount := hec ▸ hs.ecount
    errpos := hrc ▸ hpos ▸ hs.errpos
    errmag := hrc ▸ hmag ▸ hs.errmag
    gpoly := hg ▸ hs.gpoly }

theorem State.PipelineInv.of_cleared {s : State} (hp : State.reset.samePipeline s) (hg : s.gpoly = RegFile.zero) :
    s.PipelineInv := by
  have hreset : State.reset.PipelineInv := {
    lambda := .inl rfl
    ecount := Nat.zero_le _
    errpos := fun i _ => RegFile.zero_getElem i.val i.isLt
    errmag := fun i _ => RegFile.zero_getElem i.val i.isLt
    gpoly := .inl rfl }
  exact hreset.congr hp hg

theorem RegFile.load_getElem_of_length_le {l : List Byte} {i : Fin 256} (h : l.length ≤ i.val) : (RegFile.load l)[i] = 0 :=
  (RegFile.load_getElem l i.val i.isLt).trans (List.getD_eq_default _ _ h)

theorem BlockRun.Bounded.rootcnt_toNat {run : BlockRun} (h : run.Bounded) : (BitVec.ofNat 8 run.rootcnt).toNat = run.rootcnt := by
  have := h.rootcnt
  rw [BitVec.toNat_ofNat, Nat.mod_eq_of_lt (by omega)]

/-- A block's run leaves the pipeline registers as the invariant says. -/
theorem State.PipelineInv.setPipeline {s : State} (hs : s.PipelineInv) {run : BlockRun} (h : run.Bounded) :
    (s.setPipeline run).PipelineInv where
  lambda := h.lambda.imp (fun hl => by rw [State.setPipeline_lambda, hl, RegFile.load_nil])
    (fun hl => (RegFile.load_getElem _ 0 (by decide)).trans hl)
  ecount := (Nat.mod_le _ _).trans h.ecount
  errpos i hi := by
    rw [State.setPipeline_rootcnt, h.rootcnt_toNat] at hi
    exact RegFile.load_getElem_of_length_le (h.errpos.trans hi)
  errmag i hi := by
    rw [State.setPipeline_rootcnt, h.rootcnt_toNat] at hi
    exact RegFile.load_getElem_of_length_le (h.errmag.trans hi)
  gpoly := hs.gpoly

theorem State.PipelineInv.setGpoly {s : State} (hs : s.PipelineInv) {p : Nat} (hp : p ≤ 254) :
    (s.setGpoly (genpoly p)).PipelineInv :=
  { hs with gpoly := .inr ⟨p, hp, rfl⟩ }

theorem State.samePipeline.refl (s : State) : s.samePipeline s := ⟨rfl, rfl, rfl, rfl, rfl, rfl, rfl⟩

theorem Effect.pipelineInv {s t : State} (h : Effect s t) (hs : s.PipelineInv) : t.PipelineInv := by
  cases h with
  | codeOnly c => exact hs.congr (.refl s) rfl
  | result v => exact hs.congr (.refl s) rfl
  | params c _ => exact hs.congr (.refl s) rfl
  | failed c _ => exact hs.congr (.refl s) rfl
  | encoded p hp out _ => exact (hs.setGpoly hp).congr (.refl (s.setGpoly (genpoly p))) rfl
  | undecoded blk n k hv =>
    exact (hs.setPipeline (decodeBlock_bounded blk hv)).congr (.refl (s.setPipeline (decodeBlock blk n k))) rfl
  | decoded blk n k hv out _ =>
    exact (hs.setPipeline (decodeBlock_bounded blk hv)).congr (.refl (s.setPipeline (decodeBlock blk n k))) rfl

/-- Settles O51, by the ways a step can end. -/
theorem stepKeepsPipelineInv : Obligations.StepKeepsPipelineInv := by
  intro s t hs hstep
  cases step_cases hstep with
  | idle _ => exact hs
  | answered e rest _ a => exact hs.congr (.refl s) rfl
  | parameter e rest _ n k len => exact hs.congr (.refl s) rfl
  | inSymbol idx v rest _ i _ _ => exact hs.congr (.refl s) rfl
  | command v rest _ _ he => exact he.pipelineInv (hs.congr (.refl s) rfl)
  | reset rest _ => exact .of_cleared (.refl State.reset) rfl

/-- Settles O52: reset clears the pipeline registers and `GPOLY`. -/
theorem resetPipelineInv : Obligations.ResetPipelineInv := .of_cleared (.refl State.reset) rfl

theorem Effect.rootcnt_le {s t : State} (h : Effect s t) (hs : s.rootcnt.toNat ≤ 127) : t.rootcnt.toNat ≤ 127 := by
  cases h with
  | codeOnly c => exact hs
  | result v => exact hs
  | params c _ => exact hs
  | failed c _ => exact hs
  | encoded p _ out _ => exact hs
  | undecoded blk n k hv => exact (Nat.mod_le _ _).trans (decodeBlock_bounded blk hv).rootcnt
  | decoded blk n k hv out _ => exact (Nat.mod_le _ _).trans (decodeBlock_bounded blk hv).rootcnt

/-- Settles O53: only the Chien stage writes `ROOTCNT`, and it runs on a polynomial of degree at most 127. -/
theorem stepKeepsRootcntRange : Obligations.StepKeepsRootcntRange := by
  intro s t hs hstep
  cases step_cases hstep with
  | idle _ => exact hs
  | answered e rest _ a => exact hs
  | parameter e rest _ n k len => exact hs
  | inSymbol idx v rest _ i _ _ => exact hs
  | command v rest _ _ he => exact he.rootcnt_le hs
  | reset rest _ => exact Nat.zero_le _

end Sys2Proof.Machine
end

section
/-! SUPPORT. A host transaction on a mapped index (R40 to R42): where the index of a file's element or of an `IN` symbol lies,
and the step that takes the transaction. -/

namespace Sys2Proof.Machine

/-! ### Where an index lies, and the hard-wired content -/

/-- The six files start at multiples of 0x100 (R40). -/
theorem locate_fileElement {idx : RegIndex} {p : Nat} {f : FileName} {i : Fin 256} (hf : fileAt p = some f)
    (hp : 1 ≤ p ∧ p < 0x100) (h : idx.toNat = p * 0x100 + i.val) : locate idx = some (.file f i) := by
  have hi := i.isLt
  have hpage : idx.toNat / 0x100 = p := by omega
  have helem : elementOf idx = i := by
    apply Fin.ext
    change (idx.setWidth 8).toNat = i.val
    rw [BitVec.toNat_setWidth]
    omega
  rw [locate_file (by omega) (by omega), hpage, hf, helem]
  rfl

theorem locate_inSymbol {idx : RegIndex} {i : Nat} (hi : i < 65535) (h : idx.toNat = 0x10000 + i) :
    locate idx = some (.inBuf i) := by
  have hs : 0x10000 + symbolOf idx = idx.toNat := symbolOf_in (by omega) (by omega)
  rw [locate_in (by omega) (by omega), show symbolOf idx = i by omega]

theorem locate_outSymbol {idx : RegIndex} {i : Nat} (hi : i < 65535) (h : idx.toNat = 0x20000 + i) :
    locate idx = some (.outBuf i) := by
  have hs : 0x20000 + symbolOf idx = idx.toNat := symbolOf_out (by omega) (by omega)
  rw [locate_out (by omega) (by omega), show symbolOf idx = i by omega]

theorem State.readLocation_ladderLen (s : State) : s.readLocation .ladderLen = 6 := by
  simp [State.readLocation, ladderLen, ladder_eq]

/-! ### The step that takes the transaction -/

theorem step_read_located {s : State} {rest : List HostEvent} {idx : RegIndex} {l : Location}
    (hp : s.pending = .read idx :: rest) (hl : locate idx = some l) :
    step s = .next { s with pending := rest, response := .data (s.readLocation l) } := by
  have hread : ({ s with pending := rest } : State).hostRead idx =
      ({ s with pending := rest } : State).answer (.data (s.readLocation l)) := by
    rw [State.hostRead, hl]
    rfl
  rw [step_event hp]
  exact congrArg Host.Outcome.next hread

theorem step_write_located {s t : State} {rest : List HostEvent} {idx : RegIndex} {v : Word} {l : Location}
    (hp : s.pending = .write idx v :: rest) (hl : locate idx = some l) (hcmd : l ≠ .cmd)
    (ht : ({ s with pending := rest } : State).writeLocation v l = some t) : step s = .next (t.answer .ack) := by
  have hwrite : ({ s with pending := rest } : State).hostWrite idx v = t.answer .ack := by
    simp [State.hostWrite, hl, ht]
  have htake : ({ s with pending := rest } : State).take (.write idx v) = .done (t.answer .ack) := by
    simp [State.take, hl, hcmd, hwrite]
  rw [step_event hp, htake]
  rfl

/-! ### The obligations -/

/-- The table of R40 and the map agree: an index in the table lies at the location whose content the table gives. -/
theorem ReadsAs.located {s : State} {idx : RegIndex} {x : Nat} {w : Word} (h : ReadsAs s x w) (hx : idx.toNat = x) :
    ∃ l, locate idx = some l ∧ s.readLocation l = w := by
  have hscalar : ∀ {l : Location}, x < 0x100 → scalarAt x = some l → locate idx = some l := fun hlt hl => by
    rw [locate_scalar (by omega), hx, hl]
  cases h with
  | cmd => exact ⟨.cmd, hscalar (by decide) rfl, rfl⟩
  | status => exact ⟨.status, hscalar (by decide) rfl, rfl⟩
  | r => exact ⟨.r, hscalar (by decide) rfl, rfl⟩
  | n => exact ⟨.n, hscalar (by decide) rfl, rfl⟩
  | k => exact ⟨.k, hscalar (by decide) rfl, rfl⟩
  | inLen => exact ⟨.inLen, hscalar (by decide) rfl, rfl⟩
  | outLen => exact ⟨.outLen, hscalar (by decide) rfl, rfl⟩
  | ecount => exact ⟨.ecount, hscalar (by decide) rfl, rfl⟩
  | rootcnt => exact ⟨.rootcnt, hscalar (by decide) rfl, rfl⟩
  | ladderLen => exact ⟨.ladderLen, hscalar (by decide) rfl, State.readLocation_ladderLen s⟩
  | syn i => exact ⟨.file .syn i, locate_fileElement (p := 1) rfl (by decide) hx, rfl⟩
  | lambda i => exact ⟨.file .lambda i, locate_fileElement (p := 2) rfl (by decide) hx, rfl⟩
  | omega i => exact ⟨.file .omega i, locate_fileElement (p := 3) rfl (by decide) hx, rfl⟩
  | errpos i => exact ⟨.file .errpos i, locate_fileElement (p := 4) rfl (by decide) hx, rfl⟩
  | errmag i => exact ⟨.file .errmag i, locate_fileElement (p := 5) rfl (by decide) hx, rfl⟩
  | gpoly i => exact ⟨.file .gpoly i, locate_fileElement (p := 6) rfl (by decide) hx, rfl⟩
  | inSymbol i hi => exact ⟨.inBuf i, locate_inSymbol hi hx, rfl⟩
  | outSymbol i hi => exact ⟨.outBuf i, locate_outSymbol hi hx, rfl⟩

/-- Settles O9: the index lies at a location with that content, and a read of it only answers. -/
theorem hostReadReturnsContent : Obligations.HostReadReturnsContent := by
  intro s rest idx w hp hw
  obtain ⟨l, hl, rfl⟩ := hw.located rfl
  exact step_read_located hp hl

/-- Settles O10: indices 3, 4 and 5 lie at `N`, `K` and `IN_LEN`. -/
theorem hostWriteParameter : Obligations.HostWriteParameter := by
  intro s rest v
  refine ⟨fun hp => ?_, fun hp => ?_, fun hp => ?_⟩
  · exact step_write_located (l := .n) hp rfl (by decide) rfl
  · exact step_write_located (l := .k) hp rfl (by decide) rfl
  · exact step_write_located (l := .inLen) hp rfl (by decide) rfl

/-- Settles O11: the step is `State.writeIn` at that symbol, which no other symbol of `IN` and no symbol of `OUT` reads. -/
theorem hostWriteInSymbol : Obligations.HostWriteInSymbol := by
  intro s rest idx v i hp hi hidx
  refine ⟨_, step_write_located hp (locate_inSymbol hi hidx) (by simp) rfl, rfl, ?_, fun j _ hji => ?_, fun j _ => ?_⟩
  · rw [State.answer_readIn, State.readIn_writeIn_same]
  · rw [State.answer_readIn, State.readIn_writeIn_other _ _ hji]
    rfl
  · rw [State.answer_readOut, State.readOut_writeIn _ _ (Nat.lt_succ_of_lt hi)]
    rfl

end Sys2Proof.Machine
end

section
/-! SUPPORT. Encoding (30_encoding.md). A word selects a row of the opcode map exactly when its fields are well-formed and
its `op` is the row's, so a legal word is decoded by its `op` alone; and the words with well-formed fields are the words of
the instructions. -/

namespace Sys2Proof

/-! ### The four fields of a word -/

/-- A word is its four fields put together (R61). -/
theorem append_fields (w : Word) : zeroField w ++ bField w ++ aField w ++ opField w = w := by
  have hzb : zeroField w ++ bField w = w.extractLsb' 16 16 :=
    BitVec.extractLsb'_append_extractLsb'_eq_extractLsb' (start₁ := 16) (len₁ := 8) rfl
  have hzba : w.extractLsb' 16 16 ++ aField w = w.extractLsb' 8 24 :=
    BitVec.extractLsb'_append_extractLsb'_eq_extractLsb' (start₁ := 8) (len₁ := 8) rfl
  have hall : w.extractLsb' 8 24 ++ opField w = w.extractLsb' 0 32 :=
    BitVec.extractLsb'_append_extractLsb'_eq_extractLsb' (start₁ := 0) (len₁ := 8) rfl
  rw [hzb, hzba, hall, BitVec.extractLsb'_eq_self]

theorem encode_eq_of_fields {i : Instr} {w : Word} (h : i.fields = fieldsOf w) : encode i = w := by
  rw [encode, h]
  exact append_fields w

theorem fieldsOf_encode (i : Instr) : fieldsOf (encode i) = i.fields := Laws.OpField.statement_all i

theorem fieldsOf_inj {v w : Word} : fieldsOf v = fieldsOf w ↔ v = w := by
  refine ⟨fun h => ?_, congrArg fieldsOf⟩
  obtain ⟨hop, ha, hb, hz⟩ := CommandFields.mk.inj h
  rw [← append_fields v, ← append_fields w, hop, ha, hb, hz]

/-- The fields of a word under a mask. -/
def CommandFields.and (f m : CommandFields) : CommandFields :=
  ⟨f.op &&& m.op, f.a &&& m.a, f.b &&& m.b, f.zero &&& m.zero⟩

theorem fieldsOf_and (v w : Word) : fieldsOf (v &&& w) = (fieldsOf v).and (fieldsOf w) := by
  simp only [fieldsOf, opField, aField, bField, zeroField, BitVec.extractLsb'_and, CommandFields.and]

/-! ### Well-formed fields -/

theorem Instr.wellFormed_eq_true (i : Instr) : i.wellFormed = true := by
  cases i <;> rfl

theorem op_of_formatZ : ∀ op : Byte, formatOf op = some .z →
    op = 0x00 ∨ op = 0x10 ∨ op = 0x11 ∨ op = 0x12 ∨ op = 0x13 := by decide +kernel

theorem op_of_formatU : ∀ op : Byte, formatOf op = some .u →
    op = 0x04 ∨ op = 0x05 ∨ op = 0x20 ∨ op = 0x21 := by decide +kernel

theorem op_of_formatB : ∀ op : Byte, formatOf op = some .b →
    op = 0x01 ∨ op = 0x02 ∨ op = 0x03 := by decide +kernel

/-- Every well-formed quadruple of fields stands for an instruction (R62, R64). -/
theorem exists_instr_of_wellFormed {f : CommandFields} (h : f.wellFormed = true) : ∃ i : Instr, i.fields = f := by
  obtain ⟨op, a, b, zero⟩ := f
  unfold CommandFields.wellFormed at h
  split at h
  case h_1 => cases h
  case h_2 hfmt =>
    simp only [Bool.and_eq_true, beq_iff_eq] at h
    obtain ⟨⟨rfl, rfl⟩, rfl⟩ := h
    rcases op_of_formatZ op hfmt with rfl | rfl | rfl | rfl | rfl
    exacts [⟨.nop, rfl⟩, ⟨.encBlk, rfl⟩, ⟨.decBlk, rfl⟩, ⟨.encPkt, rfl⟩, ⟨.decPkt, rfl⟩]
  case h_3 hfmt =>
    simp only [Bool.and_eq_true, beq_iff_eq] at h
    obtain ⟨rfl, rfl⟩ := h
    rcases op_of_formatU op hfmt with rfl | rfl | rfl | rfl
    exacts [⟨.gfInv a, rfl⟩, ⟨.polyEval a, rfl⟩, ⟨.ladderGet a, rfl⟩, ⟨.ladderNext a, rfl⟩]
  case h_4 hfmt =>
    obtain rfl := eq_of_beq h
    rcases op_of_formatB op hfmt with rfl | rfl | rfl
    exacts [⟨.gfAdd a b, rfl⟩, ⟨.gfMul a b, rfl⟩, ⟨.gfDiv a b, rfl⟩]

/-! ### Selecting a row of the opcode map -/

/-- The bits a row of each format fixes (R62, R64). -/
def Format.mask : Format → CommandFields
  | .z => ⟨0xFF, 0xFF, 0xFF, 0xFF⟩
  | .u => ⟨0xFF, 0x00, 0xFF, 0xFF⟩
  | .b => ⟨0xFF, 0x00, 0x00, 0xFF⟩

/-- Fields under the mask of an `op`'s format are that `op` alone exactly when they have it and are well-formed (R62, R65). -/
theorem and_mask_eq_iff {op : Byte} {fmt : Format} (h : formatOf op = some fmt) (f : CommandFields) :
    f.and fmt.mask = ⟨op, 0, 0, 0⟩ ↔ f.op = op ∧ f.wellFormed = true := by
  have hones (x : Byte) : x &&& 255#8 = x := BitVec.and_allOnes
  have hmop : f.op &&& fmt.mask.op = f.op := by cases fmt <;> exact hones f.op
  rw [CommandFields.and, CommandFields.mk.injEq, hmop]
  refine and_congr_right fun hop => ?_
  rw [CommandFields.wellFormed, hop, h]
  cases fmt <;> simp [Format.mask, hones, and_comm]

/-- The `op` value of a row (R64). -/
def OpRow.op (row : OpRow) : Byte := opField row.pattern

/-- A row's mask is that of its format, and its pattern is its `op` alone (R62, R64). -/
theorem opcodeTable_row : ∀ row ∈ opcodeTable,
    (formatOf row.op).map Format.mask = some (fieldsOf row.mask) ∧ fieldsOf row.pattern = ⟨row.op, 0, 0, 0⟩ := by
  decide

/-- A word matches a row exactly when it has the row's `op` and the form of R65. -/
theorem matches_iff {row : OpRow} (hrow : row ∈ opcodeTable) (w : Word) :
    w &&& row.mask = row.pattern ↔ opField w = row.op ∧ (fieldsOf w).wellFormed = true := by
  obtain ⟨hmask, hpattern⟩ := opcodeTable_row row hrow
  obtain ⟨fmt, hfmt, hfields⟩ := Option.map_eq_some_iff.mp hmask
  rw [← fieldsOf_inj, fieldsOf_and, hpattern, ← hfields]
  exact and_mask_eq_iff hfmt (fieldsOf w)

theorem opcodeTable_op_pairwise : opcodeTable.Pairwise (fun x y => x.op ≠ y.op) := by
  decide

/-- The row that has an `op` value (R64). -/
def rowOf (op : Byte) : Option OpRow := opcodeTable.find? (fun row => op == row.op)

/-- A well-formed word is decoded by the row of its `op`. -/
theorem decode_of_rowOf {w : Word} {row : OpRow} (hw : (fieldsOf w).wellFormed = true)
    (hrow : rowOf (opField w) = some row) : decode w = .ok (row.build (aField w) (bField w)) := by
  have hfind : opcodeTable.find? (fun row => w &&& row.mask == row.pattern) = rowOf (opField w) :=
    List.find?_congr fun row h => by
      rw [Bool.eq_iff_iff, beq_iff_eq, beq_iff_eq, matches_iff h, and_iff_left hw]
  rw [decode, hfind, hrow]

theorem wellFormed_of_decode {w : Word} {i : Instr} (h : decode w = .ok i) : (fieldsOf w).wellFormed = true := by
  unfold decode at h
  split at h
  · next row hfind =>
    have hsel := List.find?_some hfind
    exact ((matches_iff (List.mem_of_find?_eq_some hfind) w).mp (eq_of_beq hsel)).2
  · cases h

/-- An instruction's `op` names the row that builds it from its immediates (R64). -/
theorem rowOf_builds (i : Instr) :
    ∃ row, rowOf i.fields.op = some row ∧ row.build i.fields.a i.fields.b = i := by
  cases i <;> exact ⟨_, rfl, rfl⟩

theorem decode_encode (i : Instr) : decode (encode i) = .ok i := by
  have hfields := fieldsOf_encode i
  have hw : (fieldsOf (encode i)).wellFormed = true := by rw [hfields]; exact i.wellFormed_eq_true
  obtain ⟨row, hrow, hbuild⟩ := rowOf_builds i
  rw [← hfields] at hrow hbuild
  rw [decode_of_rowOf hw hrow]
  exact congrArg Except.ok hbuild

/-- Every legal word is the word of an instruction (R65). -/
theorem exists_encode_eq {w : Word} (h : (fieldsOf w).wellFormed = true) : ∃ i, encode i = w := by
  obtain ⟨i, hi⟩ := exists_instr_of_wellFormed h
  exact ⟨i, encode_eq_of_fields hi⟩

/-! ### The obligations -/

/-- Settles O1: the fields of the word of `i` are those of `i`, whose `op` names the row that builds `i`. -/
theorem decodeOfEncode : Obligations.DecodeOfEncode := fun i => ⟨i.wellFormed_eq_true, decode_encode i⟩

/-- Settles O2: a legal word is the word of some instruction, and that is the one it decodes to. -/
theorem encodeOfDecode : Obligations.EncodeOfDecode := by
  intro w i h
  obtain ⟨j, rfl⟩ := exists_encode_eq (wellFormed_of_decode h)
  rw [decode_encode] at h
  rw [Except.ok.inj h]

/-- Settles O3: a row is selected by a well-formed word only, and a well-formed word is the word of an instruction. -/
theorem legalIffFieldsWellFormed : Obligations.LegalIffFieldsWellFormed := by
  refine fun w => ⟨fun ⟨_, h⟩ => wellFormed_of_decode h, fun h => ?_⟩
  obtain ⟨i, rfl⟩ := exists_encode_eq h
  exact ⟨i, decode_encode i⟩

/-- Settles O4: a word that two rows match has the `op` of both, and the rows' `op` values differ. -/
theorem opcodeRowsDisjoint : Obligations.OpcodeRowsDisjoint := by
  refine opcodeTable_op_pairwise.imp_of_mem fun {x y} hx hy hne w ⟨hwx, hwy⟩ => hne ?_
  have hopx := ((matches_iff hx w).mp hwx).1
  have hopy := ((matches_iff hy w).mp hwy).1
  exact hopx.symm.trans hopy

/-- Settles O5: the nine legal words are the words of their commands; the reasons for the others (log entry 18) are
evaluated. -/
theorem sampleWordsDecode : Obligations.SampleWordsDecode :=
  ⟨decode_encode (.gfMul 0x57 0x83), decode_encode (.gfInv 0x02), decode_encode (.gfDiv 0x57 0x83),
    decode_encode (.polyEval 0x02), decode_encode .encBlk, decode_encode .decBlk, decode_encode .encPkt,
    decode_encode .decPkt, decode_encode (.ladderGet 3), rfl, rfl, rfl, rfl⟩

end Sys2Proof

namespace Sys2Proof.Machine

theorem State.command_of_illegal (s : State) {w : Word} {e : IllegalWord} (h : decode w = .error e) :
    s.command w = .done (s.complete .illegalCommand) := by
  simp only [State.command, h]

/-- Settles O7: index 0 is `CMD`, and the word that is stored there is illegal. -/
theorem illegalWordCompletes : Obligations.IllegalWordCompletes := by
  intro s rest w e hp hw
  rw [step_event hp, State.take_write_cmd, State.command_of_illegal _ hw]
  rfl

end Sys2Proof.Machine
end

section
/-! SUPPORT. The field and its commands (40_gf_arithmetic.md). The table product `mul` is the carry-less product reduced
modulo 0x11D: both are additive in `b`, so both are the sum, over the bits i set in `b`, of `a` times x^i (R88). -/

namespace Sys2Proof.Machine

/-! ### A sum over the set bits of a symbol -/

/-- The exclusive-or of `f i` over the bits i that are set in `b`. -/
def xorOverBits {n : Nat} (b : Byte) (f : Nat → BitVec n) : BitVec n :=
  (List.range 8).foldl (fun acc i => if b.getLsbD i then acc ^^^ f i else acc) 0

/-- Carry-less multiplication adds a shifted copy of `a` for every bit set in `b`. -/
theorem carrylessMul_eq (a b : Byte) : carrylessMul a b = xorOverBits b (fun i => a.setWidth 16 <<< i) := rfl

theorem xorOverBits_congr {n : Nat} (b : Byte) {f g : Nat → BitVec n} (h : ∀ i, i < 8 → f i = g i) :
    xorOverBits b f = xorOverBits b g :=
  List.foldl_ext _ _ _ fun acc i hi => by rw [h i (List.mem_range.mp hi)]

/-- An additive function passes through such a sum. -/
theorem map_xorOverBits {n m : Nat} {g : BitVec n → BitVec m} (hzero : g 0 = 0)
    (hadd : ∀ v w, g (v ^^^ w) = g v ^^^ g w) (b : Byte) (f : Nat → BitVec n) :
    g (xorOverBits b f) = xorOverBits b (fun i => g (f i)) := by
  unfold xorOverBits
  rw [← hzero]
  refine (List.foldl_hom g fun acc i => ?_).symm
  rw [apply_ite g, hadd]

/-- A symbol is the sum of the powers of x that its bits stand for (R88). -/
theorem xorOverBits_alphaPow : ∀ b : Byte, xorOverBits b alphaPow = b := by decide +kernel

/-! ### The table product and long division -/

/-- Step `i` of the long division: the modulus, shifted up to bit 15 - i, is subtracted where that bit is set. -/
def divisionStep (v : BitVec 16) (i : Nat) : BitVec 16 :=
  if v.getLsbD (15 - i) then v ^^^ ((0x11D : BitVec 16) <<< (7 - i)) else v

theorem reduceModPoly_eq (v : BitVec 16) : reduceModPoly v = ((List.range 8).foldl divisionStep v).setWidth 8 := rfl

/-- A division step is additive, as the choice of what it subtracts is. -/
theorem divisionStep_xor (v w : BitVec 16) (i : Nat) :
    divisionStep (v ^^^ w) i = divisionStep v i ^^^ divisionStep w i := by
  have hstep (u m : BitVec 16) (bit : Bool) : (if bit then u ^^^ m else u) = u ^^^ (if bit then m else 0) := by
    cases bit <;> simp
  have hchoice (m : BitVec 16) (p q : Bool) :
      (if p ^^ q then m else 0) = (if p then m else 0) ^^^ (if q then m else 0) := by
    cases p <;> cases q <;> simp
  simp only [divisionStep, hstep, BitVec.getLsbD_xor, hchoice]
  ac_rfl

theorem reduceModPoly_xor (v w : BitVec 16) : reduceModPoly (v ^^^ w) = reduceModPoly v ^^^ reduceModPoly w := by
  simp only [reduceModPoly_eq, ← BitVec.setWidth_xor]
  congr 1
  exact List.foldl_hom₂ _ (· ^^^ ·) _ _ _ v w fun x y i => (divisionStep_xor x y i).symm

/-- A shifted symbol, reduced, is the symbol multiplied by x that many times (R80). -/
theorem reduceModPoly_shiftLeft : ∀ i, i < 8 → ∀ a : Byte, reduceModPoly (a.setWidth 16 <<< i) = xtime^[i] a := by
  decide +kernel

/-- The table product is the polynomial product modulo 0x11D (R88 (iv)). -/
theorem polyProduct_eq_gfMul (a b : Byte) : polyProduct a b = gfMul a b := by
  have hterm (i : Nat) (hi : i < 8) : reduceModPoly (a.setWidth 16 <<< i) = gfMul a (alphaPow i) := by
    rw [reduceModPoly_shiftLeft i hi, gfMul_alphaPow]
  calc polyProduct a b
    _ = reduceModPoly (xorOverBits b fun i => a.setWidth 16 <<< i) := by rw [polyProduct, carrylessMul_eq]
    _ = xorOverBits b (fun i => reduceModPoly (a.setWidth 16 <<< i)) := map_xorOverBits (by decide) reduceModPoly_xor b _
    _ = xorOverBits b (fun i => gfMul a (alphaPow i)) := xorOverBits_congr b hterm
    _ = gfMul a (xorOverBits b alphaPow) := (map_xorOverBits (gfMul_zero a) (gfMul_gfAdd a) b alphaPow).symm
    _ = gfMul a b := by rw [xorOverBits_alphaPow]

/-! ### Horner's rule -/

theorem hornerPos_append_singleton (c : List Byte) (s x : Byte) :
    hornerPos (c ++ [s]) x = gfAdd (gfMul (hornerPos c x) x) s := by
  simp only [hornerPos, List.foldl_append, List.foldl_cons, List.foldl_nil]

theorem xorSum_append_singleton (l : List Byte) (v : Byte) : xorSum (l ++ [v]) = gfAdd (xorSum l) v := by
  simp only [xorSum, gfAdd, List.foldl_append, List.foldl_cons, List.foldl_nil]

theorem xorSum_gfMul (l : List Byte) (x : Byte) : gfMul (xorSum l) x = xorSum (l.map (gfMul · x)) := by
  induction l using List.reverseRecOn with
  | nil => exact zero_gfMul x
  | append_singleton l v ih =>
    rw [List.map_append, List.map_singleton, xorSum_append_singleton, xorSum_append_singleton, gfAdd_gfMul, ih]

/-- `horner_pos` is the sum of the symbols times the powers of x, the first symbol that of the highest degree (R92). -/
theorem hornerPos_map_range (f : Nat → Byte) (x : Byte) (n : Nat) :
    hornerPos ((List.range n).map f) x = xorSum ((List.range n).map fun j => gfMul (f j) (fieldPow x (n - 1 - j))) := by
  induction n with
  | zero => rfl
  | succ n ih =>
    have hraise : ∀ j ∈ List.range n, gfMul (gfMul (f j) (fieldPow x (n - 1 - j))) x = gfMul (f j) (fieldPow x (n - j)) := by
      intro j hj
      have hdeg : n - j = n - 1 - j + 1 := by have := List.mem_range.mp hj; omega
      rw [gfMul_assoc, hdeg, fieldPow]
    have hlast : gfMul (f n) (fieldPow x (n - n)) = f n := by rw [Nat.sub_self]; exact gfMul_one (f n)
    simp only [List.range_succ, List.map_append, List.map_singleton, hornerPos_append_singleton, xorSum_append_singleton,
      Nat.add_sub_cancel, hlast, ih, xorSum_gfMul, List.map_map]
    exact congrArg (fun l => gfAdd (xorSum l) (f n)) (List.map_congr_left hraise)

theorem State.operand_eq (s : State) : s.operand = (List.range s.inLen.toNat).map s.readIn := by
  simp only [State.operand, State.inSymbols, Nat.zero_add]

/-! ### What each command of the field does -/

theorem exec_gfMul (a b : Byte) (s : State) : exec (.gfMul a b) s = deliver (gfMul a b) s := rfl

theorem exec_gfDiv (a b : Byte) (s : State) : exec (.gfDiv a b) s = deliverQuotient (gfDiv a b) s := rfl

theorem exec_gfInv (a : Byte) (s : State) : exec (.gfInv a) s = exec (.gfDiv 1 a) s := rfl

theorem exec_polyEval (a : Byte) (s : State) : exec (.polyEval a) s = deliver (hornerPos s.operand a) s := rfl

/-! ### The obligations -/

/-- Settles O17, from the laws of the table product. -/
theorem fieldLaws : Obligations.FieldLaws := fun a b c =>
  ⟨gfMul_comm a b, gfMul_assoc a b c, gfMul_gfAdd a b c, gfMul_one a⟩

/-- Settles O20: the product that the tables give is the polynomial product. -/
theorem gfMulResult : Obligations.GfMulResult := by
  intro a b s
  rw [exec_gfMul, ← polyProduct_eq_gfMul]
  rfl

/-- Settles O21: a nonzero divisor has a quotient, and that times the divisor is the dividend. -/
theorem gfDivResult : Obligations.GfDivResult := by
  intro a b s hb
  rw [exec_gfDiv]
  cases hq : gfDiv a b with
  | none => exact absurd (gfDiv_eq_none.mp hq) hb
  | some q => exact ⟨q, by rw [polyProduct_eq_gfMul, gfMul_of_gfDiv hq], rfl⟩

/-- Settles O22: the inverse is the quotient of 1 (R85), and the product is commutative. -/
theorem gfInvResult : Obligations.GfInvResult := by
  intro a s ha
  obtain ⟨q, hq, hexec⟩ := gfDivResult 1 a s ha
  refine ⟨q, ?_, hexec⟩
  rw [polyProduct_eq_gfMul, gfMul_comm, ← polyProduct_eq_gfMul, hq]

/-- Settles O24: the operand is read symbol by symbol, and Horner's rule evaluates it (R92). -/
theorem polyEvalResult : Obligations.PolyEvalResult := by
  intro a s
  rw [exec_polyEval, State.operand_eq, hornerPos_map_range]
  rfl

/-- Settles O16: below 255 the table `EXP` lists the powers of alpha, and a symbol times 2 is the symbol times alpha. -/
theorem expLogTables : Obligations.ExpLogTables := by
  have hexp (i : Nat) (hi : i < 255) : expAt i = alphaPow i := by rw [alphaPow, Nat.mod_eq_of_lt hi]
  have hdouble (v : Byte) : polyProduct v 2 = xtime v :=
    (polyProduct_eq_gfMul v 2).trans (gfMul_alphaPow v 1)
  refine ⟨by decide, by decide, fun i hi => ?_, fun i hi => ?_, fun v hv => ?_⟩
  · rw [expAt_succ i hi, hdouble]
  · rw [hexp i hi, logAt_alphaPow, Nat.mod_eq_of_lt hi]
  · rw [hexp _ (logAt_lt v hv), alphaPow_logAt v hv]

/-- Settles O18: the all-zero word is the word of `NOP`. -/
theorem nopReportsOk : Obligations.NopReportsOk := ⟨decode_encode .nop, fun _ => rfl⟩

/-- Settles O19: the word is the one that `encode` gives the command. -/
theorem gfAddResult : Obligations.GfAddResult := fun a b => ⟨decode_encode (.gfAdd a b), fun _ => rfl⟩

/-- Settles O23: no quotient has the divisor 0 (R84), and the inverse of 0 would be one. -/
theorem divideByZeroCompletes : Obligations.DivideByZeroCompletes := by
  have hdiv (a : Byte) (s : State) : exec (.gfDiv a 0) s = .next { s with code := .divideByZero } := by
    rw [exec_gfDiv, gfDiv_eq_none.mpr rfl]
    rfl
  exact fun a s => ⟨hdiv a s, hdiv 1 s⟩

end Sys2Proof.Machine
end

section
/-! SUPPORT. How a codec command ends: what an error completion and a written result leave (R110, R187, R18), and when the
command is turned away (R110, R114, R115, R144, R145). -/

namespace Sys2Proof.Machine

/-! ### What the two ends leave -/

/-- A result in `OUT` and a code leave everything else as it was (R222). -/
theorem State.codecFrame_setOut (s : State) (l : List Byte) (c : Completion) :
    s.codecFrame ((s.setOut l).complete c) :=
  ⟨rfl, rfl, rfl, rfl, rfl, rfl, rfl, rfl, fun _ hi => (State.readIn_setOut s l (Nat.lt_succ_of_lt hi)).symm⟩

theorem State.outIs_setOut (s : State) {l : List Byte} (hl : l.length ≤ 65535) (c : Completion) :
    ((s.setOut l).complete c).outIs l := by
  refine ⟨Nat.mod_eq_of_lt (Nat.lt_succ_of_le hl), fun j hj => ?_⟩
  rw [State.complete_readOut, State.readOut_setOut, List.getElem?_eq_getElem hj, Option.getD_some,
    List.getD_eq_getElem _ _ hj]

theorem map_range_eq_of_getD {f : Nat → Byte} {l : List Byte} {n : Nat} (hn : l.length = n)
    (h : ∀ j, j < n → f j = l.getD j 0) : (List.range n).map f = l := by
  subst hn
  refine List.ext_getElem (by simp) fun j _ hj => ?_
  rw [List.getElem_map, List.getElem_range, h j hj, List.getD_eq_getElem _ _ hj]

/-- `OUT` read symbol by symbol. -/
theorem State.outIs.map_readOut {t : State} {l : List Byte} (h : t.outIs l) {n : Nat} (hn : l.length = n) :
    (List.range n).map t.readOut = l :=
  map_range_eq_of_getD hn fun j hj => h.2 j (hn ▸ hj)

theorem State.failsWith_of_fail {s : State} {i : Instr} {c : Completion} (h : exec i s = .next (s.fail c)) :
    s.failsWith i c :=
  ⟨_, h, rfl, rfl, s.codecFrame_setOut [] c, .refl s, rfl⟩

/-! ### The commands, by their conditions -/

theorem isCodec_eq_true {i : Instr} :
    isCodec i = true ↔ i = .encBlk ∨ i = .encPkt ∨ i = .decBlk ∨ i = .decPkt := by
  simp [isCodec, isEncoder, isDecoder, or_assoc]

theorem State.paramsValid.not_invalid {s : State} (h : s.paramsValid) : ¬ validParams s.n.toNat s.k.toNat = false :=
  fun hv => (validParams_eq_false _ _).mp hv h

/-- `ENC_BLK` on enough symbols with valid parameters (R114). -/
theorem exec_encBlk_eq {s : State} (hp : s.paramsValid) (hl : s.k.toNat ≤ s.inLen.toNat) :
    exec .encBlk s = .next (((s.setGpoly (genpoly (s.n.toNat - s.k.toNat))).setOut
      (encodeBlock (s.inSymbols 0 s.k.toNat) s.n.toNat s.k.toNat)).complete .ok) :=
  (if_neg hp.not_invalid).trans (if_neg (Nat.not_lt.mpr hl))

/-- `ENC_PKT` with valid parameters and a frame that fits (R115). -/
theorem exec_encPkt_eq {s : State} (hp : s.paramsValid) (hl : blockCount s.inLen.toNat s.k.toNat * s.n.toNat ≤ 65535) :
    exec .encPkt s = .next (((s.setGpoly (genpoly (s.n.toNat - s.k.toNat))).setOut
      (encodeFrame s.operand s.n.toNat s.k.toNat)).complete .ok) :=
  (if_neg hp.not_invalid).trans (if_neg (Nat.not_lt.mpr hl))

/-! ### The obligations -/

/-- Settles O28: each of the four codec commands checks the parameters first. -/
theorem invalidParamsComplete : Obligations.InvalidParamsComplete := by
  intro s i hi hp
  have hv : validParams s.n.toNat s.k.toNat = false := (validParams_eq_false _ _).mpr hp
  refine State.failsWith_of_fail ?_
  rcases isCodec_eq_true.mp hi with rfl | rfl | rfl | rfl <;> exact if_pos hv

/-- Settles O29: the size is checked next. -/
theorem wrongSizeCompletes : Obligations.WrongSizeCompletes := by
  intro s hp
  refine ⟨fun h => ?_, fun h => ?_, fun h => ?_⟩ <;>
    exact State.failsWith_of_fail ((if_neg hp.not_invalid).trans (if_pos h))

/-- Settles O30: the size of the frame is that of its blocks, n symbols each. -/
theorem capacityCompletes : Obligations.CapacityCompletes := fun _ hp h =>
  State.failsWith_of_fail ((if_neg hp.not_invalid).trans (if_pos h))

/-- Settles O32: the result is the parity, of n - k symbols. -/
theorem encBlkResult : Obligations.EncBlkResult := by
  intro s hp hl
  have ⟨_, _, hn⟩ := hp
  have hlen := encodeBlock_length (s.inSymbols 0 s.k.toNat) s.n.toNat s.k.toNat
  have hout := State.outIs_setOut (s.setGpoly (genpoly (s.n.toNat - s.k.toNat)))
    (hlen.trans_le (by omega)) .ok
  exact ⟨_, exec_encBlk_eq hp hl, rfl, hout.1.trans hlen, hout, rfl,
    State.codecFrame_setOut (s.setGpoly _) _ _, .refl s⟩

end Sys2Proof.Machine
end

section
/-! SUPPORT. The product of two sequences is the product of their polynomials (R91), and the generator polynomial is the
product of its linear factors (R111). -/

namespace Sys2Proof.Machine

open Polynomial

section Reading

variable {F : Type} [Field F] {φ : Byte → F}

theorem IsFieldReading.map_one (h : IsFieldReading φ) : φ 1#8 = 1 := by
  have hne : φ 1#8 ≠ 0 := fun h0 => absurd (h.map_eq_zero.mp h0) (by decide)
  have hsq : φ 1#8 * φ 1#8 = φ 1#8 := by rw [← h.map_mul, gfMul_one]
  exact mul_left_cancel₀ hne (hsq.trans (mul_one _).symm)

theorem polyOf_padd (h : IsFieldReading φ) (p q : List Byte) : polyOf φ (padd p q) = polyOf φ p + polyOf φ q := by
  induction p generalizing q with
  | nil => simp [padd, polyOf]
  | cons a p ih =>
    cases q with
    | nil => simp [padd, polyOf]
    | cons b q =>
      simp only [padd, polyOf, ih, h.map_add, C_add]
      ring

theorem polyOf_pscale (h : IsFieldReading φ) (p : List Byte) (c : Byte) :
    polyOf φ (pscale p c) = C (φ c) * polyOf φ p := by
  induction p with
  | nil => simp [pscale, polyOf]
  | cons a p ih =>
    have hcons : pscale (a :: p) c = gfMul a c :: pscale p c := rfl
    simp only [hcons, polyOf, ih, h.map_mul, C_mul]
    ring

theorem polyOf_pmul (h : IsFieldReading φ) (p q : List Byte) : polyOf φ (pmul p q) = polyOf φ p * polyOf φ q := by
  induction p with
  | nil => simp [pmul, polyOf]
  | cons a p ih =>
    cases p with
    | nil => simp [pmul, polyOf, polyOf_pscale h]
    | cons b p =>
      have hcons : polyOf φ (a :: b :: p) = C (φ a) + X * polyOf φ (b :: p) := rfl
      have hshift : polyOf φ (0 :: pmul (b :: p) q) = X * (polyOf φ (b :: p) * polyOf φ q) := by
        rw [polyOf, ih]
        simp [h.map_zero]
      rw [pmul, polyOf_padd h, polyOf_pscale h, hshift, hcons]
      ring

/-- `genpoly` is the product of x + alpha^i for i = 1 .. p (R111). -/
theorem polyOf_genpoly (h : IsFieldReading φ) (p : Nat) :
    polyOf φ (genpoly p) = ∏ i ∈ Finset.range p, (X + C (φ (alphaPow (i + 1)))) := by
  induction p with
  | zero => simp [genpoly, polyOf, h.map_one]
  | succ p ih =>
    rw [genpoly, polyOf_pmul h, ih, Finset.prod_range_succ]
    simp [polyOf, h.map_one, add_comm]

end Reading

theorem padd_length (p q : List Byte) : (padd p q).length = max p.length q.length := by
  induction p generalizing q with
  | nil => simp [padd]
  | cons a p ih => cases q <;> simp [padd, ih]

theorem pmul_length {p q : List Byte} (hp : p ≠ []) (hq : q ≠ []) : (pmul p q).length = p.length + q.length - 1 := by
  have hq := List.length_pos_iff.mpr hq
  induction p with
  | nil => exact absurd rfl hp
  | cons a p ih =>
    cases p with
    | nil => simp [pmul, pscale]
    | cons b p =>
      simp only [pmul, padd_length, pscale, List.length_map, List.length_cons, ih (List.cons_ne_nil b p)]
      omega

theorem genpoly_length (p : Nat) : (genpoly p).length = p + 1 := by
  induction p with
  | zero => rfl
  | succ p ih =>
    have hne : genpoly p ≠ [] := List.ne_nil_of_length_eq_add_one ih
    rw [genpoly, pmul_length hne (List.cons_ne_nil _ _), ih]
    rfl

/-- A product of monic linear factors is monic of the degree that counts them. -/
theorem genpoly_leading (p : Nat) : (genpoly p).getD p 0 = 1 := by
  obtain ⟨F, _, φ, hφ⟩ := exists_isFieldReading
  have hmonic : (polyOf φ (genpoly p)).Monic :=
    polyOf_genpoly hφ p ▸ monic_prod_of_monic _ _ fun _ _ => monic_X_add_C _
  have hdegree : (polyOf φ (genpoly p)).natDegree = p := by
    rw [polyOf_genpoly hφ, natDegree_prod_of_monic _ _ fun _ _ => monic_X_add_C _]
    simp
  refine hφ.bijective.injective ?_
  calc φ ((genpoly p).getD p 0)
    _ = (polyOf φ (genpoly p)).coeff (polyOf φ (genpoly p)).natDegree := by rw [hdegree, coeff_polyOf hφ]
    _ = φ 1 := hmonic.coeff_natDegree.trans hφ.map_one.symm

/-- The constant term is the product of the roots, whose exponents add up to a triangular number. -/
theorem genpoly_constant (p : Nat) : (genpoly p).getD 0 0 = alphaPow (p * (p + 1) / 2) := by
  obtain ⟨F, _, φ, hφ⟩ := exists_isFieldReading
  induction p with
  | zero => rfl
  | succ p ih =>
    have htriangle : (p + 1) * (p + 1 + 1) / 2 = p * (p + 1) / 2 + (p + 1) := by
      rw [show (p + 1) * (p + 1 + 1) = p * (p + 1) + (p + 1) * 2 by ring, Nat.add_mul_div_right _ _ two_pos]
    refine hφ.bijective.injective ?_
    rw [htriangle, ← gfMul_alphaPow_alphaPow, ← ih, hφ.map_mul, ← coeff_polyOf hφ, ← coeff_polyOf hφ, polyOf_genpoly hφ,
      Finset.prod_range_succ, mul_coeff_zero, ← polyOf_genpoly hφ]
    simp

/-- Each of alpha^1 .. alpha^p is the root of one factor, since a symbol plus itself is 0. -/
theorem genpoly_root {p i : Nat} (hi : i < p) : hornerDeg (genpoly p) (alphaPow (i + 1)) = 0 := by
  obtain ⟨F, _, φ, hφ⟩ := exists_isFieldReading
  have hfactor : φ (alphaPow (i + 1)) + φ (alphaPow (i + 1)) = 0 := by
    rw [← hφ.map_add, gfAdd, BitVec.xor_self, hφ.map_zero]
  refine hφ.map_eq_zero.mp ?_
  rw [← eval_polyOf hφ, polyOf_genpoly hφ, eval_prod]
  exact Finset.prod_eq_zero (Finset.mem_range.mpr hi) (by simpa using hfactor)

/-- Settles O31, from the linear factors. -/
theorem genpolyMonicWithRoots : Obligations.GenpolyMonicWithRoots := by
  refine fun p => ⟨genpoly_length p, genpoly_leading p, genpoly_constant p, fun i h1 hi => ?_⟩
  have hroot := genpoly_root (show i - 1 < p by omega)
  rwa [Nat.sub_add_cancel h1] at hroot

end Sys2Proof.Machine
end

section
/-! SUPPORT. The feedback shift register (R112): data followed by the register's content vanishes at the roots of the
generator polynomial (R113). -/

namespace Sys2Proof.Machine

/-! ### Position-indexed evaluation -/

theorem hornerPos_append (c d : List Byte) (x : Byte) :
    hornerPos (c ++ d) x = gfAdd (gfMul (hornerPos c x) (fieldPow x d.length)) (hornerPos d x) := by
  induction d using List.reverseRecOn with
  | nil => simp [fieldPow, hornerPos, gfAdd]
  | append_singleton d s ih =>
    rw [← List.append_assoc, hornerPos_append_singleton, hornerPos_append_singleton, ih, List.length_append,
      List.length_singleton, fieldPow, gfAdd_gfMul, gfMul_assoc]
    exact BitVec.xor_assoc _ _ _

@[simp] theorem one_gfMul (a : Byte) : gfMul 1#8 a = a := (gfMul_comm 1 a).trans (gfMul_one a)

theorem hornerPos_singleton (s x : Byte) : hornerPos [s] x = s := by simp [hornerPos, gfAdd]

theorem hornerPos_cons (s : Byte) (c : List Byte) (x : Byte) :
    hornerPos (s :: c) x = gfAdd (gfMul s (fieldPow x c.length)) (hornerPos c x) := by
  rw [← List.singleton_append, hornerPos_append, hornerPos_singleton]

theorem hornerPos_reverse (p : List Byte) (x : Byte) : hornerPos p.reverse x = hornerDeg p x := List.foldl_reverse

theorem hornerPos_replicate_zero (n : Nat) (x : Byte) : hornerPos (List.replicate n 0#8) x = 0#8 := by
  induction n with
  | zero => rfl
  | succ n ih => simp [List.replicate_succ', hornerPos_append_singleton, ih, gfAdd]

theorem hornerPos_pscale (c : List Byte) (v x : Byte) : hornerPos (pscale c v) x = gfMul (hornerPos c x) v := by
  induction c using List.reverseRecOn with
  | nil => exact (zero_gfMul v).symm
  | append_singleton c s ih =>
    have hscale : pscale (c ++ [s]) v = pscale c v ++ [gfMul s v] := List.map_append
    rw [hscale, hornerPos_append_singleton, hornerPos_append_singleton, ih, gfAdd_gfMul, gfMul_assoc, gfMul_comm v,
      ← gfMul_assoc]

theorem hornerPos_zipWith_gfAdd {c d : List Byte} (h : c.length = d.length) (x : Byte) :
    hornerPos (List.zipWith gfAdd c d) x = gfAdd (hornerPos c x) (hornerPos d x) := by
  induction c generalizing d with
  | nil =>
    obtain rfl := List.length_eq_zero_iff.mp h.symm
    exact BitVec.xor_self.symm
  | cons a c ih =>
    cases d with
    | nil => cases h
    | cons b d =>
      have h : c.length = d.length := Nat.succ.inj h
      rw [List.zipWith_cons_cons, hornerPos_cons, hornerPos_cons, hornerPos_cons, ih h, List.length_zipWith, ← h,
        Nat.min_self, gfAdd_gfMul]
      simp only [gfAdd]
      ac_rfl

/-! ### The register -/

/-- One step on whole sequences: the register moves up by one stage, plus the feedback times the generator polynomial
without its leading coefficient, `low` from the highest degree down (R112). -/
theorem shiftStep_eq {low rest : List Byte} (h : low.length = rest.length + 1) (r d : Byte) :
    shiftStep (low.reverse ++ [1]) low.length (r :: rest) d =
      List.zipWith gfAdd (rest ++ [0#8]) (pscale low (gfAdd d r)) := by
  refine List.ext_getElem (by simp [pscale, h]) fun s hs _ => ?_
  have hs : s < low.length := by simpa using hs
  have hcoeff : (low.reverse ++ [1]).getD (low.length - 1 - s) 0 = low[s] := by
    rw [List.getD_append _ _ _ _ (by simp; omega), List.getD_eq_getElem _ _ (by simp; omega), List.getElem_reverse]
    congr 1
    omega
  simp only [shiftStep, List.getElem_map, List.getElem_range, List.getElem_zipWith, pscale, List.getD_cons_succ,
    List.getD_cons_zero, gfMul_comm low[s]]
  split
  · next hlt => rw [hcoeff, List.getElem_append_left (by omega), List.getD_eq_getElem _ _ (by omega)]
  · next hlast =>
    rw [show low.length - 1 - s = 0 by omega] at hcoeff
    rw [hcoeff, List.getElem_append_right (by omega), List.getElem_singleton]
    exact BitVec.zero_xor.symm

/-- At a root of the generator polynomial a step multiplies the register by x and adds the symbol times x^p: what leaves
the top stage comes back as the feedback, since the rest of the generator polynomial is x^p there. -/
theorem hornerPos_shiftStep {low reg : List Byte} {x : Byte} (hroot : hornerDeg (low.reverse ++ [1]) x = 0)
    (hpos : 0 < low.length) (hreg : reg.length = low.length) (d : Byte) :
    hornerPos (shiftStep (low.reverse ++ [1]) low.length reg d) x =
      gfAdd (gfMul (hornerPos reg x) x) (gfMul d (fieldPow x low.length)) := by
  obtain ⟨r, rest, rfl⟩ := List.exists_cons_of_length_pos (hreg ▸ hpos)
  have hrest : low.length = rest.length + 1 := hreg.symm
  have hpow : hornerPos low x = gfMul (fieldPow x rest.length) x := by
    have hsum : gfAdd (fieldPow x low.length) (hornerPos low x) = 0 := by
      simpa [← hornerPos_reverse, hornerPos_cons] using hroot
    rw [← BitVec.xor_eq_zero_iff.mp hsum, hrest, fieldPow]
  obtain ⟨F, _, φ, hφ⟩ := exists_isFieldReading
  refine hφ.bijective.injective ?_
  rw [shiftStep_eq hrest, hornerPos_zipWith_gfAdd (by simp [pscale, hrest]), hornerPos_pscale,
    hornerPos_append_singleton, hornerPos_cons, hpow, hrest, fieldPow]
  simp only [hφ.map_add, hφ.map_mul, hφ.map_zero]
  ring

theorem exists_genpoly_eq (p : Nat) : ∃ low : List Byte, low.length = p ∧ genpoly p = low.reverse ++ [1] := by
  have hlen := genpoly_length p
  have hne : genpoly p ≠ [] := List.ne_nil_of_length_eq_add_one hlen
  refine ⟨(genpoly p).dropLast.reverse, by simp [hlen], ?_⟩
  have hlast : (genpoly p).getLast hne = 1 := by
    rw [← genpoly_leading p, List.getLast_eq_getElem, List.getD_eq_getElem _ _ (by omega)]
    simp only [hlen, Nat.add_sub_cancel]
  rw [List.reverse_reverse, ← hlast, List.dropLast_append_getLast]

/-- After the data symbols the register is the data times x^p, at every root of the generator polynomial. -/
theorem hornerPos_encodeBlock (data : List Byte) {n k i : Nat} (hi : i < n - k) :
    hornerPos (encodeBlock data n k) (alphaPow (i + 1)) =
      gfMul (hornerPos data (alphaPow (i + 1))) (fieldPow (alphaPow (i + 1)) (n - k)) := by
  obtain ⟨low, hlow, hg⟩ := exists_genpoly_eq (n - k)
  have hroot : hornerDeg (low.reverse ++ [1]) (alphaPow (i + 1)) = 0 := hg ▸ genpoly_root hi
  induction data using List.reverseRecOn with
  | nil => exact (hornerPos_replicate_zero _ _).trans (zero_gfMul _).symm
  | append_singleton data d ih =>
    have hstep : encodeBlock (data ++ [d]) n k = shiftStep (low.reverse ++ [1]) low.length (encodeBlock data n k) d := by
      simp only [encodeBlock, List.foldl_concat, hg, hlow]
    rw [hstep, hornerPos_shiftStep hroot (by omega) (by rw [encodeBlock_length, hlow]), ih, hlow,
      hornerPos_append_singleton, gfAdd_gfMul, gfMul_assoc, gfMul_comm (fieldPow _ _), ← gfMul_assoc]

/-- Data followed by its parity is a codeword (R113): at every root the two halves are equal, so they cancel. -/
theorem isCodeword_codeword (data : List Byte) (n k : Nat) : IsCodeword (codeword data n k) (n - k) := by
  intro i hi
  rw [codeword, hornerPos_append, hornerPos_encodeBlock data hi, encodeBlock_length]
  exact BitVec.xor_self

/-- Settles O33: `OUT` reads as the parity, so the block read is the codeword of the data. -/
theorem encBlkMakesCodeword : Obligations.EncBlkMakesCodeword := by
  intro s t hp hl ht
  obtain ⟨u, hu, _, _, hout, _⟩ := encBlkResult s hp hl
  cases hu.symm.trans ht
  rw [hout.map_readOut (encodeBlock_length _ _ _)]
  exact isCodeword_codeword _ _ _

end Sys2Proof.Machine
end

section
/-! SUPPORT. The frame of a payload, symbol by symbol (R115, R116). -/

namespace Sys2Proof.Machine

/-- Blocks of one length n, put together: symbol j of block b stands at b * n + j. -/
theorem getD_flatMap_range {f : Nat → List Byte} {n : Nat} (hf : ∀ b, (f b).length = n) {m b j : Nat} (hb : b < m)
    (hj : j < n) : ((List.range m).flatMap f).getD (b * n + j) 0 = (f b).getD j 0 := by
  induction m with
  | zero => exact absurd hb (Nat.not_lt_zero b)
  | succ m ih =>
    have hlen : ((List.range m).flatMap f).length = m * n := by simp [List.length_flatMap, hf]
    rw [List.range_succ, List.flatMap_append, List.flatMap_singleton]
    by_cases hlast : b = m
    · subst hlast
      rw [List.getD_append_right _ _ _ _ (by omega), hlen, Nat.add_sub_cancel_left]
    · have hbm : b < m := by omega
      have hin : (b + 1) * n ≤ m * n := Nat.mul_le_mul_right n hbm
      rw [Nat.succ_mul] at hin
      rw [List.getD_append _ _ _ _ (by omega), ih hbm]

theorem codeword_length (data : List Byte) {n k : Nat} (hd : data.length = k) (h : k ≤ n) :
    (codeword data n k).length = n := by
  rw [codeword, List.length_append, encodeBlock_length, hd, Nat.add_sub_cancel' h]

theorem encodeFrame_getD (payload : List Byte) {n k b j : Nat} (h : k ≤ n) (hb : b < blockCount payload.length k)
    (hj : j < n) :
    (encodeFrame payload n k).getD (b * n + j) 0 = (codeword (payloadBlock payload k b) n k).getD j 0 :=
  getD_flatMap_range (fun b => codeword_length _ (payloadBlock_length payload k b) h) hb hj

theorem payloadBlock_getD (payload : List Byte) {k b j : Nat} (hj : j < k) :
    (payloadBlock payload k b).getD j 0 = payload.getD (b * k + j) 0 := by
  rw [List.getD_eq_getElem _ _ (by simpa using hj)]
  simp [payloadBlock]

theorem State.operand_getD (s : State) (i : Nat) :
    s.operand.getD i 0 = if i < s.inLen.toNat then s.readIn i else 0 := by
  split
  · next hi =>
    rw [List.getD_eq_getElem _ _ (by simpa using hi)]
    simp [State.operand_eq]
  · next hi => exact List.getD_eq_default _ _ (by simpa using hi)

/-- Settles O34: the result is the frame, whose block b is the codeword of block b of the payload. -/
theorem encPktResult : Obligations.EncPktResult := by
  intro s hp hfit
  have ⟨_, hkn, _⟩ := hp
  have hlen : (encodeFrame s.operand s.n.toNat s.k.toNat).length =
      blockCount s.inLen.toNat s.k.toNat * s.n.toNat := by rw [encodeFrame_length _ hkn, State.operand_length]
  have hout := State.outIs_setOut (s.setGpoly (genpoly (s.n.toNat - s.k.toNat))) (hlen.trans_le hfit) .ok
  refine ⟨_, exec_encPkt_eq hp hfit, rfl, hout.1.trans hlen, fun b hb => ?_, rfl,
    State.codecFrame_setOut (s.setGpoly _) _ _, .refl s⟩
  generalize ((s.setGpoly _).setOut _).complete .ok = t at hout
  have hblock : ∀ j, j < s.n.toNat → t.readOut (b * s.n.toNat + j) =
      (codeword (payloadBlock s.operand s.k.toNat b) s.n.toNat s.k.toNat).getD j 0 := by
    intro j hj
    have hin : (b + 1) * s.n.toNat ≤ blockCount s.inLen.toNat s.k.toNat * s.n.toNat := Nat.mul_le_mul_right _ hb
    rw [Nat.succ_mul] at hin
    rw [hout.2 _ (by omega), encodeFrame_getD _ hkn (by rwa [State.operand_length]) hj]
  have hdata : ∀ j, j < s.k.toNat → t.readOut (b * s.n.toNat + j) =
      (payloadBlock s.operand s.k.toNat b).getD j 0 := fun j hj => by
    rw [hblock j (by omega), codeword, List.getD_append _ _ _ _ (by simpa using hj)]
  refine ⟨fun j hj => ?_, fun q hq => ?_⟩
  · rw [hdata j hj, payloadBlock_getD _ hj, State.operand_getD]
  · have hread : (List.range s.k.toNat).map (fun j => t.readOut (b * s.n.toNat + j)) =
        payloadBlock s.operand s.k.toNat b := map_range_eq_of_getD (payloadBlock_length _ _ _) hdata
    rw [hread, Nat.add_assoc, hblock _ (by omega), codeword, List.getD_append_right _ _ _ _ (by simp),
      payloadBlock_length, Nat.add_sub_cancel_left]

end Sys2Proof.Machine
end

section
/-! SUPPORT. How a decoding command ends (R144, R145, R187): the pipeline of the last block worked on, and either the result
with `OK` or none with `UNCORRECTABLE`. -/

namespace Sys2Proof.Machine

/-- Settles O39, from the loop invariant of the stage. -/
theorem berlekampMasseyFacts : Obligations.BerlekampMasseyFacts := by
  intro syn _
  have hinv := berlekampMassey_inv syn
  exact ⟨hinv.lam_length, hinv.lam_zero, hinv.disc_ne_zero, hinv.len_le, hinv.lam_degree⟩

/-- `t` is where `s` gets when a decoding command ends with this last block's run and this result. -/
structure State.DecodeEnd (s : State) (run : BlockRun) (result : Option (List Byte)) (t : State) : Prop where
  pipeline : t.pipelineIs run
  ok : ∀ d, result = some d → t.code = .ok ∧ t.outIs d
  failed : result = none → t.code = .uncorrectable ∧ t.outLen = 0
  gpoly : t.gpoly = s.gpoly
  frame : s.codecFrame t

theorem BlockRun.Bounded.pipelineIs {run : BlockRun} (h : run.Bounded) (s : State) :
    (s.setPipeline run).pipelineIs run := by
  have hecount : (BitVec.ofNat 8 run.ecount).toNat = run.ecount := by
    have := h.ecount
    rw [BitVec.toNat_ofNat, Nat.mod_eq_of_lt (by omega)]
  exact ⟨rfl, rfl, rfl, rfl, rfl, hecount, h.rootcnt_toNat⟩

theorem finishDecode_ends (s : State) {run : BlockRun} (hrun : run.Bounded) {result : Option (List Byte)}
    (hlen : ∀ d, result = some d → d.length ≤ 65535) :
    ∃ t, finishDecode run result s = .next t ∧ s.DecodeEnd run result t := by
  cases result with
  | none =>
    exact ⟨_, finishDecode_none run s, {
      pipeline := hrun.pipelineIs s
      ok := fun _ h => nomatch h
      failed := fun _ => ⟨rfl, rfl⟩
      gpoly := rfl
      frame := (s.setPipeline run).codecFrame_setOut [] _ }⟩
  | some data =>
    exact ⟨_, finishDecode_some run data s, {
      pipeline := hrun.pipelineIs s
      ok := fun d h => Option.some.inj h ▸ ⟨rfl, (s.setPipeline run).outIs_setOut (hlen data rfl) .ok⟩
      failed := fun h => nomatch h
      gpoly := rfl
      frame := (s.setPipeline run).codecFrame_setOut data _ }⟩

theorem State.paramsValid.valid {s : State} (h : s.paramsValid) : validParams s.n.toNat s.k.toNat = true :=
  (validParams_eq_true _ _).mpr h

/-- The run of the block that `DEC_BLK` works on (R144). -/
def State.blockRun (s : State) : BlockRun := decodeBlock (s.inSymbols 0 s.n.toNat) s.n.toNat s.k.toNat

/-- `DEC_BLK` on enough symbols with valid parameters ends with the run of its block. -/
theorem exec_decBlk_ends {s : State} (hp : s.paramsValid) (hl : s.n.toNat ≤ s.inLen.toNat) :
    ∃ t, exec .decBlk s = .next t ∧ s.DecodeEnd s.blockRun s.blockRun.data t := by
  have ⟨_, hkn, hn⟩ := hp
  rw [exec_decBlk_eq hp hl]
  refine finishDecode_ends s (decodeBlock_bounded _ hp.valid) fun d hd => ?_
  have := decodeBlock_data_length hd
  omega

/-! ### The blocks of a packet (R145) -/

theorem decodeBlocks_of_all_decode {n k : Nat} {blocks data : List (List Byte)}
    (h : List.Forall₂ (fun blk d => (decodeBlock blk n k).data = some d) blocks data) (acc : List Byte) (last : BlockRun) :
    decodeBlocks n k blocks acc last =
      ((blocks.getLast?.map (decodeBlock · n k)).getD last, some (acc ++ data.flatten)) := by
  induction h generalizing acc last with
  | nil => simp [decodeBlocks]
  | @cons blk d blocks data hd _ ih =>
    simp only [decodeBlocks, hd, ih, List.flatten_cons, List.append_assoc, List.getLast?_cons]
    cases blocks.getLast? <;> rfl

theorem decodeBlocks_of_first_failure {n k : Nat} {good : List (List Byte)} {blk : List Byte}
    (hgood : ∀ b ∈ good, (decodeBlock b n k).data ≠ none) (hblk : (decodeBlock blk n k).data = none)
    (rest : List (List Byte)) (acc : List Byte) (last : BlockRun) :
    decodeBlocks n k (good ++ blk :: rest) acc last = (decodeBlock blk n k, none) := by
  induction good generalizing acc last with
  | nil => simp only [List.nil_append, decodeBlocks, hblk]
  | cons b good ih =>
    obtain ⟨d, hd⟩ := Option.ne_none_iff_exists'.mp (hgood b List.mem_cons_self)
    simp only [List.cons_append, decodeBlocks, hd]
    exact ih (fun c hc => hgood c (List.mem_cons_of_mem _ hc)) _ _

theorem State.frameBlocks_length (s : State) (n : Nat) : (s.frameBlocks n).length = s.inLen.toNat / n := by
  simp [State.frameBlocks]

theorem State.frameBlocks_getElem (s : State) (n b : Nat) (h : b < (s.frameBlocks n).length) :
    (s.frameBlocks n)[b] = s.inSymbols (b * n) n := by
  simp [State.frameBlocks]

/-- `DEC_PKT` on a nonempty frame of whole blocks is the block loop and its end (R145). -/
theorem exec_decPkt_eq {s : State} (hp : s.paramsValid) (hpos : 0 < s.inLen.toNat)
    (hmod : s.inLen.toNat % s.n.toNat = 0) :
    exec .decPkt s =
      finishDecode (decodeBlocks s.n.toNat s.k.toNat (s.frameBlocks s.n.toNat) [] BlockRun.cleared).1
        ((decodeBlocks s.n.toNat s.k.toNat (s.frameBlocks s.n.toNat) [] BlockRun.cleared).2.map stripZeros) s :=
  (if_neg hp.not_invalid).trans (if_neg (not_or.mpr ⟨hpos.ne', not_not.mpr hmod⟩))

/-- The block loop on a nonempty frame whose blocks all decode: the data of all blocks and the run of the last one. -/
theorem State.decodeBlocks_frame {s : State} {n k : Nat} {data : List (List Byte)} (hpos : 0 < s.inLen.toNat / n)
    (hlen : data.length = s.inLen.toNat / n)
    (hdata : ∀ b, b < data.length → (decodeBlock (s.inSymbols (b * n) n) n k).data = some (data.getD b [])) :
    decodeBlocks n k (s.frameBlocks n) [] BlockRun.cleared =
      (decodeBlock (s.inSymbols ((data.length - 1) * n) n) n k, some data.flatten) := by
  have hlength := s.frameBlocks_length n
  have hall : List.Forall₂ (fun blk d => (decodeBlock blk n k).data = some d) (s.frameBlocks n) data := by
    refine List.forall₂_iff_get.mpr ⟨by omega, fun b hb hd => ?_⟩
    have hdecode := hdata b hd
    rw [List.getD_eq_getElem _ _ hd] at hdecode
    simpa [State.frameBlocks_getElem] using hdecode
  have hlast : (s.frameBlocks n).getLast? = some (s.inSymbols ((data.length - 1) * n) n) := by
    rw [List.getLast?_eq_getElem?, List.getElem?_eq_getElem (by omega), State.frameBlocks_getElem, hlength, hlen]
  rw [decodeBlocks_of_all_decode hall, hlast]
  rfl

/-- Settles O40, from the block loop; the data is no longer than the frame. -/
theorem decPktResult : Obligations.DecPktResult := by
  intro s data hp hpos hmod hlen hdata
  have ⟨hk, hkn, hn⟩ := hp
  have hblocks : 0 < s.inLen.toNat / s.n.toNat :=
    Nat.div_pos (Nat.le_of_dvd hpos (Nat.dvd_of_mod_eq_zero hmod)) (by omega)
  have hloop := State.decodeBlocks_frame hblocks hlen hdata
  have hsize : data.flatten.length ≤ 65535 := by
    have hbound := (decodeBlocks_cases s.n.toNat s.k.toNat (s.frameBlocks s.n.toNat) [] BlockRun.cleared).2
      data.flatten (by rw [hloop])
    have hfit : s.inLen.toNat / s.n.toNat * s.k.toNat ≤ s.inLen.toNat :=
      (Nat.mul_le_mul_left _ hkn).trans (Nat.div_mul_le_self _ _)
    have := s.inLen.isLt
    rw [State.frameBlocks_length, List.length_nil] at hbound
    omega
  rw [exec_decPkt_eq hp hpos hmod, hloop]
  obtain ⟨t, ht, hend⟩ := finishDecode_ends s (decodeBlock_bounded _ hp.valid) (result := some (stripZeros data.flatten))
    fun d hd => Option.some.inj hd ▸ (stripZeros_length_le _).trans hsize
  obtain ⟨hcode, hout⟩ := hend.ok _ rfl
  exact ⟨t, ht, hcode, hout, hend.pipeline, hend.gpoly, hend.frame⟩

/-- Settles O41: the block loop answers no data and the run of the first block that fails. -/
theorem decPktAbortsAtFirstFailure : Obligations.DecPktAbortsAtFirstFailure := by
  intro s b hp hpos hmod hb hbefore hfail
  have hlt : b < (s.frameBlocks s.n.toNat).length := by rwa [State.frameBlocks_length]
  have hsplit : s.frameBlocks s.n.toNat = (s.frameBlocks s.n.toNat).take b ++
      s.inSymbols (b * s.n.toNat) s.n.toNat :: (s.frameBlocks s.n.toNat).drop (b + 1) := by
    rw [← State.frameBlocks_getElem s _ b hlt, List.getElem_cons_drop, List.take_append_drop]
  have hgood : ∀ blk ∈ (s.frameBlocks s.n.toNat).take b, (decodeBlock blk s.n.toNat s.k.toNat).data ≠ none := by
    intro blk hblk
    obtain ⟨c, hc, rfl⟩ := List.mem_take_iff_getElem.mp hblk
    rw [State.frameBlocks_getElem]
    exact hbefore c (by omega)
  have hloop := decodeBlocks_of_first_failure hgood hfail ((s.frameBlocks s.n.toNat).drop (b + 1)) [] BlockRun.cleared
  rw [← hsplit] at hloop
  rw [exec_decPkt_eq hp hpos hmod, hloop]
  obtain ⟨t, ht, hend⟩ := finishDecode_ends s (decodeBlock_bounded _ hp.valid) (result := none) (fun _ h => nomatch h)
  obtain ⟨hcode, hout⟩ := hend.failed rfl
  exact ⟨t, ht, hcode, hout, hend.pipeline, hend.gpoly, hend.frame⟩

/-! ### De-padding (R146) -/

theorem stripZeros_append_replicate (l : List Byte) (m : Nat) : stripZeros (l ++ List.replicate m 0) = stripZeros l := by
  have hzeros : ∀ v ∈ List.replicate m (0 : Byte), (v == 0) = true := fun v hv => by
    rw [List.eq_of_mem_replicate hv]
    rfl
  rw [stripZeros, List.reverse_append, List.reverse_replicate, List.dropWhile_append_of_pos hzeros]
  rfl

/-- Settles O42: what is dropped from the reversed sequence is zeros, and what is left does not begin with one. -/
theorem depaddingRemovesTrailingZeros : Obligations.DepaddingRemovesTrailingZeros := by
  intro l
  have hzeros : l.reverse.takeWhile (fun v => v == 0) =
      List.replicate (l.reverse.takeWhile (fun v => v == 0)).length 0 :=
    List.eq_replicate_iff.mpr ⟨rfl, fun v hv => by simpa using List.mem_takeWhile_imp hv⟩
  refine ⟨(l.reverse.takeWhile (fun v => v == 0)).length, ?_, fun h => ?_⟩
  · calc l
      _ = (l.reverse.takeWhile (fun v => v == 0) ++ l.reverse.dropWhile (fun v => v == 0)).reverse := by
        rw [List.takeWhile_append_dropWhile, List.reverse_reverse]
      _ = stripZeros l ++ List.replicate _ 0 := by
        rw [List.reverse_append, hzeros, List.reverse_replicate, List.length_replicate, stripZeros]
  · rw [stripZeros, List.getLast?_reverse] at h
    have hhead := List.head?_dropWhile_not (fun v : Byte => v == 0) l.reverse
    rw [h] at hhead
    exact absurd hhead (by decide)

end Sys2Proof.Machine
end

section
/-! SUPPORT. A field reading of sums and powers of symbols, and the syndromes of a block as sums (R92, R132). -/

namespace Sys2Proof.Machine

section Reading

variable {F : Type} [Field F] {φ : Byte → F}

/-- With the numeral as the model writes it. -/
theorem IsFieldReading.map_zero' (h : IsFieldReading φ) : φ 0 = 0 := h.map_zero

/-- With the numeral as the model writes it. -/
theorem IsFieldReading.map_one' (h : IsFieldReading φ) : φ 1 = 1 := h.map_one

/-- A symbol plus itself is 0 (R82). -/
theorem IsFieldReading.charTwo (h : IsFieldReading φ) : CharP F 2 := by
  refine CharTwo.of_one_ne_zero_of_two_eq_zero one_ne_zero ?_
  rw [← one_add_one_eq_two, ← h.map_one, ← h.map_add, gfAdd, BitVec.xor_self, h.map_zero]

theorem IsFieldReading.map_xorSum (h : IsFieldReading φ) (l : List Byte) : φ (xorSum l) = (l.map φ).sum := by
  induction l using List.reverseRecOn with
  | nil => exact h.map_zero
  | append_singleton l v ih => simp [xorSum_append_singleton, h.map_add, ih]

theorem IsFieldReading.map_xorSum_range (h : IsFieldReading φ) (f : Nat → Byte) (n : Nat) :
    φ (xorSum ((List.range n).map f)) = ∑ j ∈ Finset.range n, φ (f j) := by
  rw [h.map_xorSum, List.map_map]
  rfl

theorem IsFieldReading.map_fieldPow (h : IsFieldReading φ) (a : Byte) (e : Nat) : φ (fieldPow a e) = φ a ^ e := by
  induction e with
  | zero => exact h.map_one.trans (pow_zero _).symm
  | succ e ih => rw [fieldPow, h.map_mul, ih, pow_succ]

theorem fieldPow_alphaPow (i e : Nat) : fieldPow (alphaPow i) e = alphaPow (i * e) := by
  induction e with
  | zero => exact alphaPow_zero.symm
  | succ e ih => rw [fieldPow, ih, gfMul_alphaPow_alphaPow, Nat.mul_succ]

theorem IsFieldReading.map_alphaPow_mul (h : IsFieldReading φ) (i e : Nat) :
    φ (alphaPow (i * e)) = φ (alphaPow i) ^ e := by
  rw [← fieldPow_alphaPow, h.map_fieldPow]

theorem IsFieldReading.alphaPow_ne_zero (h : IsFieldReading φ) (m : Nat) : φ (alphaPow m) ≠ 0 :=
  fun h0 => Machine.alphaPow_ne_zero m (h.map_eq_zero.mp h0)

theorem IsFieldReading.map_alphaPowNeg (h : IsFieldReading φ) {m : Nat} (hm : m < 255) :
    φ (alphaPowNeg m) = (φ (alphaPow m))⁻¹ := by
  have hcancel : gfMul (alphaPowNeg m) (alphaPow m) = 1 :=
    calc gfMul (alphaPowNeg m) (alphaPow m)
      _ = alphaPow (255 - m + m) := gfMul_alphaPow_alphaPow (255 - m) m
      _ = alphaPow 0 := by rw [Nat.sub_add_cancel hm.le]; exact alphaPow_inj.mpr rfl
      _ = 1 := alphaPow_zero
  exact eq_inv_of_mul_eq_one_left (by rw [← h.map_mul, hcancel]; exact h.map_one)

theorem IsFieldReading.alphaPow_injOn (h : IsFieldReading φ) {i j : Nat} (hi : i < 255) (hj : j < 255)
    (hij : φ (alphaPow i) = φ (alphaPow j)) : i = j := by
  have hmod := alphaPow_inj.mp (h.bijective.injective hij)
  omega

end Reading

/-- A block evaluated at a power of alpha (R92, R132). -/
theorem hornerPos_map_range_alphaPow (f : Nat → Byte) (i n : Nat) :
    hornerPos ((List.range n).map f) (alphaPow i) =
      xorSum ((List.range n).map fun j => gfMul (f j) (alphaPow (i * (n - 1 - j)))) := by
  simp only [hornerPos_map_range, fieldPow_alphaPow]

theorem State.inSymbols_zero (s : State) (n : Nat) : s.inSymbols 0 n = (List.range n).map s.readIn := by
  simp only [State.inSymbols, Nat.zero_add]

theorem syndromes_getD (w : List Byte) {p i : Nat} (h : i < p) :
    (syndromes w p).getD i 0 = hornerPos w (alphaPow (i + 1)) := by
  rw [List.getD_eq_getElem _ _ (by rwa [syndromes_length])]
  simp [syndromes]

theorem syndromes_all_zero_iff (w : List Byte) (p : Nat) : (∀ v ∈ syndromes w p, v = 0) ↔ IsCodeword w p := by
  simp [syndromes, IsCodeword]

/-- The syndrome stage runs in every case, and no later stage writes `SYN` (R130). -/
theorem decodeBlock_syn (r : List Byte) (n k : Nat) : (decodeBlock r n k).syn = syndromes r (n - k) := by
  by_cases hclean : ∀ v ∈ syndromes r (n - k), v = 0
  · rw [decodeBlock_clean hclean]
  · rcases decodeBlock_cases hclean with ⟨_, hrun⟩ | ⟨_, _, hrun⟩ | ⟨_, _, _, hrun⟩ <;> rw [hrun] <;> rfl

/-- Settles O35: Horner's rule at alpha^(i+1) is the sum (R132), and there are p syndromes. -/
theorem decBlkSyndromes : Obligations.DecBlkSyndromes := by
  intro s hp hl
  obtain ⟨t, ht, hend⟩ := exec_decBlk_ends hp hl
  obtain ⟨hsyn, _⟩ := hend.pipeline
  rw [State.blockRun, decodeBlock_syn] at hsyn
  have hget (i : Fin 256) : t.syn[i] = (syndromes (s.inSymbols 0 s.n.toNat) (s.n.toNat - s.k.toNat)).getD i 0 := by
    rw [hsyn]
    exact RegFile.load_getElem _ _ i.isLt
  refine ⟨t, ht, fun i hi => ?_, fun i hi => ?_⟩
  · rw [hget, syndromes_getD _ hi, State.inSymbols_zero, hornerPos_map_range_alphaPow]
  · rw [hget, List.getD_eq_default _ _ (by rwa [syndromes_length])]

end Sys2Proof.Machine
end

section
/-! SUPPORT. Locator and evaluator polynomials over any field: a set of powers, the error locator of each and a value for
each (R139 to R141). -/

namespace Sys2Proof.Machine

open Polynomial

variable {F : Type} [Field F] {M : Finset ℕ} {loc val : ℕ → F}

/-- The polynomial whose roots are the inverse locators. -/
noncomputable def locatorPoly (M : Finset ℕ) (loc : ℕ → F) : F[X] := ∏ m ∈ M, (1 - C (loc m) * X)

/-- The error evaluator that belongs to the values: the numerator of the sum of val * loc / (1 - loc x). -/
noncomputable def evaluatorPoly (M : Finset ℕ) (loc val : ℕ → F) : F[X] :=
  ∑ m ∈ M, C (val m * loc m) * locatorPoly (M.erase m) loc

theorem coeff_locatorPoly_of_lt {j : ℕ} (h : M.card < j) : (locatorPoly M loc).coeff j = 0 := by
  refine coeff_eq_zero_of_natDegree_lt (lt_of_le_of_lt (natDegree_prod_le _ _) (lt_of_le_of_lt ?_ h))
  refine (Finset.sum_le_card_nsmul _ _ 1 fun m _ => ?_).trans_eq (smul_eq_mul ..|>.trans (mul_one _))
  compute_degree

theorem coeff_evaluatorPoly_of_le {j : ℕ} (h : M.card ≤ j) : (evaluatorPoly M loc val).coeff j = 0 := by
  rw [evaluatorPoly, finsetSum_coeff]
  refine Finset.sum_eq_zero fun m hm => ?_
  have hcard : (M.erase m).card < j := (Finset.card_erase_lt_of_mem hm).trans_le h
  rw [coeff_C_mul, coeff_locatorPoly_of_lt hcard, mul_zero]

theorem eval_locatorPoly (z : F) : (locatorPoly M loc).eval z = ∏ m ∈ M, (1 - loc m * z) := by
  simp [locatorPoly, eval_prod]

theorem coeff_zero_locatorPoly : (locatorPoly M loc).coeff 0 = 1 := by
  simp [coeff_zero_eq_eval_zero, eval_locatorPoly]

theorem eval_locatorPoly_eq_zero {m : ℕ} (hm : m ∈ M) (hne : loc m ≠ 0) : (locatorPoly M loc).eval (loc m)⁻¹ = 0 := by
  rw [eval_locatorPoly]
  exact Finset.prod_eq_zero hm (by rw [mul_inv_cancel₀ hne, sub_self])

theorem exists_loc_of_eval_locatorPoly_eq_zero {z : F} (h : (locatorPoly M loc).eval z = 0) : ∃ m ∈ M, loc m * z = 1 := by
  rw [eval_locatorPoly] at h
  obtain ⟨m, hm, hzero⟩ := Finset.prod_eq_zero_iff.mp h
  exact ⟨m, hm, (sub_eq_zero.mp hzero).symm⟩

/-- The formal derivative is the evaluator of the values -1. -/
theorem derivative_locatorPoly : Polynomial.derivative (locatorPoly M loc) = -evaluatorPoly M loc 1 := by
  rw [locatorPoly, derivative_prod_finset, evaluatorPoly, ← Finset.sum_neg_distrib]
  refine Finset.sum_congr rfl fun m _ => ?_
  have hfactor : Polynomial.derivative (1 - C (loc m) * X) = -C (loc m) := by simp
  rw [hfactor, Pi.one_apply, one_mul, mul_neg, mul_comm]
  rfl

section Locators

variable (hne : ∀ m ∈ M, loc m ≠ 0) (hinj : Set.InjOn loc M)
include hne

/-- At an inverse locator only that locator's term of the evaluator is left. -/
theorem eval_evaluatorPoly {m : ℕ} (hm : m ∈ M) : (evaluatorPoly M loc val).eval (loc m)⁻¹ =
    val m * (loc m * (locatorPoly (M.erase m) loc).eval (loc m)⁻¹) := by
  rw [evaluatorPoly, eval_finsetSum, Finset.sum_eq_single m]
  · simp [mul_assoc]
  · intro j _ hjm
    rw [eval_mul, eval_locatorPoly_eq_zero (Finset.mem_erase.mpr ⟨hjm.symm, hm⟩) (hne m hm), mul_zero]
  · exact fun h => absurd hm h

theorem eval_evaluatorPoly_eq_mul {m : ℕ} (hm : m ∈ M) :
    (evaluatorPoly M loc val).eval (loc m)⁻¹ = val m * (evaluatorPoly M loc 1).eval (loc m)⁻¹ := by
  rw [eval_evaluatorPoly hne hm, eval_evaluatorPoly hne hm, Pi.one_apply, one_mul]

include hinj

theorem eval_evaluatorPoly_one_ne_zero {m : ℕ} (hm : m ∈ M) : (evaluatorPoly M loc 1).eval (loc m)⁻¹ ≠ 0 := by
  rw [eval_evaluatorPoly hne hm, Pi.one_apply, one_mul]
  refine mul_ne_zero (hne m hm) fun h => ?_
  obtain ⟨j, hj, hloc⟩ := exists_loc_of_eval_locatorPoly_eq_zero h
  obtain ⟨hjm, hjM⟩ := Finset.mem_erase.mp hj
  exact hjm (hinj hjM hm (by rwa [← div_eq_mul_inv, div_eq_one_iff_eq (hne m hm)] at hloc))

/-- A polynomial of degree at most the number of locators, with constant term 1, that vanishes at every inverse locator is
the locator polynomial. -/
theorem eq_locatorPoly {f : F[X]} (hdeg : ∀ j, M.card < j → f.coeff j = 0) (hconst : f.coeff 0 = 1)
    (hroot : ∀ m ∈ M, f.eval (loc m)⁻¹ = 0) : f = locatorPoly M loc := by
  classical
  have hinvs : Set.InjOn (fun m => (loc m)⁻¹) M := fun i hi j hj h => hinj hi hj (inv_injective h)
  have hzero : (0 : F) ∉ M.image fun m => (loc m)⁻¹ := fun h => by
    obtain ⟨m, hm, h0⟩ := Finset.mem_image.mp h
    exact inv_ne_zero (hne m hm) h0
  have hcard : (insert 0 (M.image fun m => (loc m)⁻¹)).card = M.card + 1 := by
    rw [Finset.card_insert_of_notMem hzero, Finset.card_image_of_injOn hinvs]
  refine eq_of_degrees_lt_of_eval_finset_eq (insert 0 (M.image fun m => (loc m)⁻¹)) ?_ ?_ fun z hz => ?_
  · rw [hcard, degree_lt_iff_coeff_zero]
    exact fun j hj => hdeg j hj
  · rw [hcard, degree_lt_iff_coeff_zero]
    exact fun j hj => coeff_locatorPoly_of_lt hj
  · rcases Finset.mem_insert.mp hz with rfl | hz
    · rw [← coeff_zero_eq_eval_zero, ← coeff_zero_eq_eval_zero, hconst, coeff_zero_locatorPoly]
    · obtain ⟨m, hm, rfl⟩ := Finset.mem_image.mp hz
      rw [hroot m hm, eval_locatorPoly_eq_zero hm (hne m hm)]

/-- A polynomial of lower degree than the number of locators is the evaluator of its values at the inverse locators. -/
theorem eq_evaluatorPoly {f : F[X]} (hdeg : ∀ j, M.card ≤ j → f.coeff j = 0)
    (hval : ∀ m ∈ M, f.eval (loc m)⁻¹ = val m * (evaluatorPoly M loc 1).eval (loc m)⁻¹) : f = evaluatorPoly M loc val := by
  refine eq_of_degrees_lt_of_eval_index_eq (v := fun m => (loc m)⁻¹) M
    (fun i hi j hj h => hinj hi hj (inv_injective h)) ?_ ?_ fun m hm => ?_
  · exact (degree_lt_iff_coeff_zero _ _).mpr fun j hj => hdeg j hj
  · exact (degree_lt_iff_coeff_zero _ _).mpr fun j hj => coeff_evaluatorPoly_of_le hj
  · exact (hval m hm).trans (eval_evaluatorPoly_eq_mul hne hm).symm

end Locators

/-- The first p sums of val * loc^(i+1), as a polynomial: the syndromes that errors with these values leave (R132). -/
noncomputable def powerSumPoly (M : Finset ℕ) (loc val : ℕ → F) (p : ℕ) : F[X] :=
  ∑ i ∈ Finset.range p, C (∑ m ∈ M, val m * loc m ^ (i + 1)) * X ^ i

theorem coeff_powerSumPoly (p j : ℕ) :
    (powerSumPoly M loc val p).coeff j = if j < p then ∑ m ∈ M, val m * loc m ^ (j + 1) else 0 := by
  simp only [powerSumPoly, finsetSum_coeff, coeff_C_mul_X_pow, Finset.sum_ite_eq, Finset.mem_range]

/-- The sums times the locator polynomial are the evaluator up to degree p, by the geometric series of each locator (R139). -/
theorem X_pow_dvd_powerSumPoly_mul (M : Finset ℕ) (loc val : ℕ → F) (p : ℕ) :
    X ^ p ∣ powerSumPoly M loc val p * locatorPoly M loc - evaluatorPoly M loc val := by
  have hswap : powerSumPoly M loc val p = ∑ m ∈ M, C (val m * loc m) * ∑ i ∈ Finset.range p, (C (loc m) * X) ^ i := by
    simp only [powerSumPoly, map_sum, Finset.sum_mul, Finset.mul_sum]
    rw [Finset.sum_comm]
    refine Finset.sum_congr rfl fun m _ => Finset.sum_congr rfl fun i _ => ?_
    simp only [C_mul, C_pow]
    ring
  rw [hswap, evaluatorPoly, Finset.sum_mul, ← Finset.sum_sub_distrib]
  refine Finset.dvd_sum fun m hm => ?_
  have hsplit : locatorPoly M loc = (1 - C (loc m) * X) * locatorPoly (M.erase m) loc :=
    (Finset.mul_prod_erase M (fun m => 1 - C (loc m) * X) hm).symm
  have hgeom := geom_sum_mul_neg (C (loc m) * X) p
  have hterm : C (val m * loc m) * (∑ i ∈ Finset.range p, (C (loc m) * X) ^ i) * locatorPoly M loc -
      C (val m * loc m) * locatorPoly (M.erase m) loc =
      X ^ p * -(C (val m * loc m) * C (loc m) ^ p * locatorPoly (M.erase m) loc) := by
    rw [hsplit]
    linear_combination (C (val m * loc m) * locatorPoly (M.erase m) loc) * hgeom
  exact hterm ▸ dvd_mul_right _ _

end Sys2Proof.Machine
end

section
/-! SUPPORT. The Chien and Forney stages (R137 to R141): where Lambda has as many root powers as its degree allows, it is the
locator polynomial of those powers, so its derivative vanishes at none of them and the Forney stage completes. -/

namespace Sys2Proof.Machine

/-! ### The locator polynomial of the root powers -/

/-- A sequence of at most 256 coefficients with constant term 1 and no coefficient above the number of its root powers. -/
structure IsErrorLocator (lam : List Byte) : Prop where
  length_le : lam.length ≤ 256
  constant : lam.getD 0 0 = 1
  degree : ∀ j, (rootPowers lam).length < j → lam.getD j 0 = 0

theorem rootPowers_nodup (lam : List Byte) : (rootPowers lam).Nodup := List.nodup_range.filter _

section Reading

open Polynomial

variable {F : Type} [Field F] {φ : Byte → F}

/-- The error locator alpha^m of the power m, as an element of the field. -/
def locator (φ : Byte → F) (m : ℕ) : F := φ (alphaPow m)

theorem IsFieldReading.locator_ne_zero (h : IsFieldReading φ) (m : ℕ) : locator φ m ≠ 0 := h.alphaPow_ne_zero m

theorem IsFieldReading.locator_injOn (h : IsFieldReading φ) {M : Finset ℕ} (hM : ∀ m ∈ M, m < 255) :
    Set.InjOn (locator φ) M :=
  fun _ hi _ hj hij => h.alphaPow_injOn (hM _ hi) (hM _ hj) hij

theorem IsFieldReading.map_hornerDeg_alphaPowNeg (h : IsFieldReading φ) (p : List Byte) {m : ℕ} (hm : m < 255) :
    φ (hornerDeg p (alphaPowNeg m)) = (polyOf φ p).eval (locator φ m)⁻¹ := by
  rw [← eval_polyOf h, h.map_alphaPowNeg hm, locator]

/-- The powers at which a sequence vanishes (R137), as a set. -/
def rootSet (lam : List Byte) : Finset ℕ := (rootPowers lam).toFinset

theorem mem_rootSet {lam : List Byte} {m : ℕ} : m ∈ rootSet lam ↔ m ∈ rootPowers lam := List.mem_toFinset

theorem card_rootSet (lam : List Byte) : (rootSet lam).card = (rootPowers lam).length :=
  List.toFinset_card_of_nodup (rootPowers_nodup lam)

theorem lt_of_mem_rootSet {lam : List Byte} {m : ℕ} (h : m ∈ rootSet lam) : m < 255 :=
  (mem_rootPowers.mp (mem_rootSet.mp h)).1

theorem mem_rootSet_iff_eval (h : IsFieldReading φ) {lam : List Byte} {m : ℕ} (hm : m < 255) :
    m ∈ rootSet lam ↔ (polyOf φ lam).eval (locator φ m)⁻¹ = 0 := by
  rw [mem_rootSet, mem_rootPowers, ← h.map_hornerDeg_alphaPowNeg _ hm, h.map_eq_zero]
  exact and_iff_right hm

theorem IsErrorLocator.polyOf_eq {lam : List Byte} (hlam : IsErrorLocator lam) (h : IsFieldReading φ) :
    polyOf φ lam = locatorPoly (rootSet lam) (locator φ) := by
  refine eq_locatorPoly (fun m _ => h.locator_ne_zero m) (h.locator_injOn fun m => lt_of_mem_rootSet) (fun j hj => ?_) ?_
    fun m hm => (mem_rootSet_iff_eval h (lt_of_mem_rootSet hm)).mp hm
  · rw [coeff_polyOf h, hlam.degree j (card_rootSet lam ▸ hj)]
    exact h.map_zero
  · rw [coeff_polyOf h, hlam.constant]
    exact h.map_one

theorem derivative_getD (lam : List Byte) (j : ℕ) :
    (Machine.derivative lam).getD j 0 = if j < 255 ∧ j % 2 = 0 then lam.getD (j + 1) 0 else 0 := by
  by_cases hj : j < 255
  · rw [List.getD_eq_getElem _ _ (by simpa [Machine.derivative] using hj)]
    simp [Machine.derivative, hj]
  · rw [List.getD_eq_default _ _ (by simpa [Machine.derivative] using hj), if_neg fun h => hj h.1]

/-- The formal derivative of R140 is that of the polynomial: a coefficient is multiplied by its degree, which is 0 or 1
modulo 2. -/
theorem polyOf_derivative (h : IsFieldReading φ) {lam : List Byte} (hlen : lam.length ≤ 256) :
    polyOf φ (Machine.derivative lam) = Polynomial.derivative (polyOf φ lam) := by
  have := h.charTwo
  ext j
  rw [coeff_polyOf h, coeff_derivative, coeff_polyOf h, derivative_getD]
  by_cases hj : j < 255
  · rcases Nat.mod_two_eq_zero_or_one j with hpar | hpar
    · have hodd : (j : F) + 1 = 1 := by
        rw [(CharP.cast_eq_zero_iff F 2 j).mpr (Nat.dvd_of_mod_eq_zero hpar), zero_add]
      rw [if_pos ⟨hj, hpar⟩, hodd, mul_one]
    · have heven : (j : F) + 1 = 0 := by
        rw [← Nat.cast_succ]
        exact (CharP.cast_eq_zero_iff F 2 (j + 1)).mpr (by omega)
      rw [if_neg (by omega), heven, mul_zero]
      exact h.map_zero
  · rw [if_neg (by omega), List.getD_eq_default _ _ (by omega)]
    simp [h.map_zero]

/-- The denominator of the Forney stage (R141). -/
theorem IsErrorLocator.map_denominator {lam : List Byte} (hlam : IsErrorLocator lam) (h : IsFieldReading φ) {m : ℕ}
    (hm : m < 255) : φ (hornerDeg (Machine.derivative lam) (alphaPowNeg m)) =
      (evaluatorPoly (rootSet lam) (locator φ) 1).eval (locator φ m)⁻¹ := by
  have := h.charTwo
  rw [h.map_hornerDeg_alphaPowNeg _ hm, polyOf_derivative h hlam.length_le, hlam.polyOf_eq h, derivative_locatorPoly,
    eval_neg, CharTwo.neg_eq]

end Reading

theorem IsErrorLocator.denominator_ne_zero {lam : List Byte} (hlam : IsErrorLocator lam) {m : ℕ}
    (hm : m ∈ rootPowers lam) : hornerDeg (derivative lam) (alphaPowNeg m) ≠ 0 := by
  obtain ⟨F, _, φ, h⟩ := exists_isFieldReading
  have hm := mem_rootSet.mpr hm
  refine fun h0 => eval_evaluatorPoly_one_ne_zero (fun m _ => h.locator_ne_zero m)
    (h.locator_injOn fun m => lt_of_mem_rootSet) hm ?_
  rw [← hlam.map_denominator h (lt_of_mem_rootSet hm), h0]
  exact h.map_zero

/-! ### The Forney stage -/

/-- The magnitude that the Forney stage computes for a root power (R141). -/
def magnitude (omega lp : List Byte) (m : Nat) : Byte :=
  (gfDiv (hornerDeg omega (alphaPowNeg m)) (hornerDeg lp (alphaPowNeg m))).getD 0

theorem gfDiv_eq_magnitude (omega : List Byte) {lp : List Byte} {m : Nat} (h : hornerDeg lp (alphaPowNeg m) ≠ 0) :
    gfDiv (hornerDeg omega (alphaPowNeg m)) (hornerDeg lp (alphaPowNeg m)) = some (magnitude omega lp m) := by
  obtain ⟨y, hy⟩ := Option.ne_none_iff_exists'.mp (mt gfDiv_eq_none.mp h)
  rw [magnitude, hy, Option.getD_some]

/-- What magnitudes at root powers add to the symbol at position j: position n-1-m belongs to the power m (R137). -/
def errorSum (n : Nat) (mag : Nat → Byte) (roots : List Nat) (j : Nat) : Byte :=
  xorSum (roots.map fun m => if n - 1 - m = j then mag m else 0)

theorem xorSum_cons (v : Byte) (l : List Byte) : xorSum (v :: l) = gfAdd v (xorSum l) := by
  obtain ⟨F, _, φ, h⟩ := exists_isFieldReading
  refine h.bijective.injective ?_
  rw [h.map_add, h.map_xorSum, h.map_xorSum, List.map_cons, List.sum_cons]

theorem errorSum_cons (n : Nat) (mag : Nat → Byte) (m : Nat) (roots : List Nat) (j : Nat) :
    errorSum n mag (m :: roots) j = gfAdd (if n - 1 - m = j then mag m else 0) (errorSum n mag roots j) := xorSum_cons _ _

theorem getD_set_gfAdd (w : List Byte) {q j : Nat} (v : Byte) (hj : j < w.length) :
    (w.set q (gfAdd (w.getD q 0) v)).getD j 0 = gfAdd (w.getD j 0) (if q = j then v else 0) := by
  rw [List.getD_eq_getElem _ _ (by simpa using hj), List.getElem_set, List.getD_eq_getElem _ _ hj]
  split
  · next hq => subst hq; rw [List.getD_eq_getElem _ _ hj]
  · exact BitVec.xor_zero.symm

/-- Where no denominator is zero, the stage records every root and adds every magnitude (R141). -/
theorem forney_completes {omega lp : List Byte} {roots : List Nat}
    (h : ∀ m ∈ roots, hornerDeg lp (alphaPowNeg m) ≠ 0) (n : Nat) (w : List Byte) :
    (forney omega lp n roots w).ok = true ∧
    (forney omega lp n roots w).pos = roots.map (fun m => BitVec.ofNat 8 (n - 1 - m)) ∧
    (forney omega lp n roots w).mag = roots.map (magnitude omega lp) ∧
    ∀ j, j < w.length → (forney omega lp n roots w).w.getD j 0 =
      gfAdd (w.getD j 0) (errorSum n (magnitude omega lp) roots j) := by
  induction roots generalizing w with
  | nil => exact ⟨rfl, rfl, rfl, fun j _ => BitVec.xor_zero.symm⟩
  | cons m roots ih =>
    obtain ⟨hok, hpos, hmag, hw⟩ := ih (fun m hm => h m (List.mem_cons_of_mem _ hm))
      (w.set (n - 1 - m) (gfAdd (w.getD (n - 1 - m) 0) (magnitude omega lp m)))
    simp only [forney, gfDiv_eq_magnitude omega (h m List.mem_cons_self), List.map_cons]
    refine ⟨hok, congrArg _ hpos, congrArg _ hmag, fun j hj => ?_⟩
    rw [hw j (by simpa using hj), getD_set_gfAdd _ _ hj, errorSum_cons]
    exact BitVec.xor_assoc _ _ _

/-! ### The ends of a block's decoding -/

/-- The pipeline and the result of a block whose syndromes are all zero (R133). -/
def cleanRun (r : List Byte) (n k : Nat) : BlockRun :=
  { BlockRun.cleared with syn := syndromes r (n - k), data := some (r.take k) }

/-- The root powers of the block's Lambda (R137). -/
def rootsOf (r : List Byte) (n k : Nat) : List Nat := rootPowers (solvedRun r n k).lambda

/-- `OMEGA` where the Forney stage ran (R139). -/
def evaluatorOf (r : List Byte) (n k : Nat) : List Byte :=
  evaluator (syndromes r (n - k)) (solvedRun r n k).lambda (n - k)

/-- The magnitude of a root power of the block (R141). -/
def magnitudeOf (r : List Byte) (n k : Nat) : Nat → Byte :=
  magnitude (evaluatorOf r n k) (derivative (solvedRun r n k).lambda)

/-- The block with the magnitudes added (R141). -/
def correctedBlock (r : List Byte) (n k : Nat) : List Byte :=
  (List.range n).map fun j =>
    gfAdd (r.getD j 0) (errorSum n (magnitudeOf r n k) (rootsOf r n k) j)

/-- The pipeline and the result where the Forney stage ran to its end (R141, R142). -/
def correctedRun (r : List Byte) (n k : Nat) : BlockRun :=
  let run := searchedRun r n k
  { run with
    omega := evaluatorOf r n k
    errpos := (rootsOf r n k).map (fun m => BitVec.ofNat 8 (n - 1 - m))
    errmag := (rootsOf r n k).map (magnitudeOf r n k)
    data := some ((correctedBlock r n k).take k) }

/-- The conditions for the Forney stage to run on a block (R133, R136, R138). -/
structure Correctable (r : List Byte) (n k : Nat) : Prop where
  capacity : (solvedRun r n k).ecount ≤ (n - k) / 2
  count : (rootsOf r n k).length = (solvedRun r n k).ecount
  inside : ∀ m ∈ rootsOf r n k, m < n

theorem solvedRun_inv (r : List Byte) (n k : Nat) : (berlekampMassey (syndromes r (n - k))).Inv (n - k) := by
  have hinv := berlekampMassey_inv (syndromes r (n - k))
  rwa [syndromes_length] at hinv

theorem Correctable.isErrorLocator {r : List Byte} {n k : Nat} (h : Correctable r n k) :
    IsErrorLocator (solvedRun r n k).lambda where
  length_le := (solvedRun_inv r n k).lam_length.le
  constant := (solvedRun_inv r n k).lam_zero
  degree j hj := (solvedRun_inv r n k).lam_degree j (h.count.symm.trans_lt hj)

theorem Correctable.correctBlock_eq {r : List Byte} {n k : Nat} (h : Correctable r n k) (hr : r.length = n) :
    correctBlock r n k (solvedRun r n k).lambda (rootsOf r n k) (searchedRun r n k) =
      correctedRun r n k := by
  obtain ⟨hok, hpos, hmag, hw⟩ := forney_completes (omega := evaluatorOf r n k) (roots := rootsOf r n k)
    (fun m hm => h.isErrorLocator.denominator_ne_zero hm) n r
  have hblock : (forney (evaluatorOf r n k) (derivative (solvedRun r n k).lambda) n
      (rootsOf r n k) r).w = correctedBlock r n k :=
    (map_range_eq_of_getD (by rw [forney_w_length, hr]) fun j hj => (hw j (hr ▸ hj)).symm).symm
  have hunfold : correctBlock r n k (solvedRun r n k).lambda (rootsOf r n k) (searchedRun r n k) =
      let f := forney (evaluatorOf r n k) (derivative (solvedRun r n k).lambda) n (rootsOf r n k) r
      { searchedRun r n k with
        omega := evaluatorOf r n k
        errpos := f.pos
        errmag := f.mag
        data := if f.ok then some (f.w.take k) else none } := rfl
  rw [hunfold]
  dsimp only
  rw [hok, hpos, hmag, hblock]
  rfl

/-- How the decoding of a block of n symbols can end (R130): clean; over capacity; with root powers that are too few or
outside the block; corrected. A zero denominator is no way to end. -/
inductive BlockEnd (r : List Byte) (n k : Nat) : BlockRun → Prop where
  | clean (h : IsCodeword r (n - k)) : BlockEnd r n k (cleanRun r n k)
  | overCapacity (h : (n - k) / 2 < (solvedRun r n k).ecount) : BlockEnd r n k (solvedRun r n k)
  | rootsAmiss (hcap : (solvedRun r n k).ecount ≤ (n - k) / 2)
      (h : (rootsOf r n k).length ≠ (solvedRun r n k).ecount ∨
        ∃ m ∈ rootsOf r n k, n ≤ m) : BlockEnd r n k (searchedRun r n k)
  | corrected (hne : ¬ IsCodeword r (n - k)) (h : Correctable r n k) : BlockEnd r n k (correctedRun r n k)

theorem decodeBlock_of_isCodeword {r : List Byte} {n k : Nat} (h : IsCodeword r (n - k)) :
    decodeBlock r n k = cleanRun r n k := decodeBlock_clean ((syndromes_all_zero_iff r _).mpr h)

theorem decodeBlock_end {r : List Byte} {n : Nat} (hr : r.length = n) (k : Nat) :
    BlockEnd r n k (decodeBlock r n k) := by
  by_cases hclean : IsCodeword r (n - k)
  · rw [decodeBlock_of_isCodeword hclean]
    exact .clean hclean
  · rcases decodeBlock_cases (mt (syndromes_all_zero_iff r _).mp hclean) with
      ⟨hcap, hrun⟩ | ⟨hcap, hroots, hrun⟩ | ⟨hcap, hcount, hinside, hrun⟩
    · exact hrun ▸ .overCapacity hcap
    · exact hrun ▸ .rootsAmiss hcap hroots
    · have h : Correctable r n k := ⟨hcap, hcount, hinside⟩
      rw [hrun.trans (h.correctBlock_eq hr)]
      exact .corrected hclean h

theorem State.blockRun_end (s : State) :
    BlockEnd (s.inSymbols 0 s.n.toNat) s.n.toNat s.k.toNat s.blockRun :=
  decodeBlock_end (s.inSymbols_length 0 _) _

end Sys2Proof.Machine
end

section
/-! SUPPORT. The pipeline registers read back as polynomials (R21 to R26), and what `DEC_BLK` leaves in them. -/

namespace Sys2Proof.Machine

open Polynomial in
/-- A degree-indexed sequence at alpha^(-m) as a sum (R92). -/
theorem hornerDeg_alphaPowNeg_eq_xorSum {l : List Byte} {n : Nat} (hn : 0 < n) (hl : l.length ≤ n) (m : Nat) :
    hornerDeg l (alphaPowNeg m) = xorSum ((List.range n).map fun j => gfMul (l.getD j 0) (alphaPow (j * (255 - m)))) := by
  obtain ⟨F, _, φ, h⟩ := exists_isFieldReading
  have hdegree : (polyOf φ l).natDegree < n := by
    have hle : (polyOf φ l).natDegree ≤ n - 1 := natDegree_le_iff_coeff_eq_zero.mpr fun j hj => by
      rw [coeff_polyOf h, List.getD_eq_default _ _ (by omega)]
      exact h.map_zero
    omega
  refine h.bijective.injective ?_
  rw [← eval_polyOf h, eval_eq_sum_range' hdegree, h.map_xorSum_range]
  refine Finset.sum_congr rfl fun j _ => ?_
  rw [coeff_polyOf h, h.map_mul, Nat.mul_comm, h.map_alphaPow_mul]
  rfl

theorem RegFile.valueAt_load {l : List Byte} (hl : l.length ≤ 256) (m : Nat) :
    (RegFile.load l).valueAt m = hornerDeg l (alphaPowNeg m) := by
  simp only [hornerDeg_alphaPowNeg_eq_xorSum (n := 256) (by decide) hl, RegFile.valueAt, RegFile.symbolAt_load _ _ hl]

theorem RegFile.derivativeAt_load {l : List Byte} (hl : l.length ≤ 256) (m : Nat) :
    (RegFile.load l).derivativeAt m = hornerDeg (derivative l) (alphaPowNeg m) := by
  have hlen : (derivative l).length ≤ 255 := by simp [derivative]
  rw [hornerDeg_alphaPowNeg_eq_xorSum (n := 255) (by decide) hlen, RegFile.derivativeAt]
  refine congrArg xorSum (List.map_congr_left fun j hj => ?_)
  rw [RegFile.symbolAt_load _ _ hl, derivative_getD]
  by_cases hpar : j % 2 = 0
  · rw [if_pos hpar, if_pos ⟨List.mem_range.mp hj, hpar⟩]
  · rw [if_neg hpar, if_neg fun h => hpar h.2]
    exact (zero_gfMul _).symm

theorem RegFile.load_eq_zero {l : List Byte} (h : ∀ v ∈ l, v = 0) : RegFile.load l = RegFile.zero := by
  refine Vector.ext fun i hi => ?_
  rw [RegFile.load_getElem _ _ hi, RegFile.zero_getElem _ hi, List.getD_eq_getElem?_getD]
  cases hget : l[i]? with
  | none => rfl
  | some v => exact h v (List.mem_of_getElem? hget)

theorem load_syndromes_of_isCodeword {r : List Byte} {p : Nat} (h : IsCodeword r p) :
    RegFile.load (syndromes r p) = RegFile.zero := RegFile.load_eq_zero ((syndromes_all_zero_iff r p).mpr h)

theorem xorSum_eq_zero {l : List Byte} (h : ∀ v ∈ l, v = 0) : xorSum l = 0 := by
  rw [List.eq_replicate_of_mem h]
  induction l.length with
  | zero => rfl
  | succ n ih => rw [List.replicate_succ, xorSum_cons, ih]; rfl

theorem evaluator_length (syn lam : List Byte) (p : Nat) : (evaluator syn lam p).length = p := by simp [evaluator]

theorem evaluatorOf_length (r : List Byte) (n k : Nat) : (evaluatorOf r n k).length = n - k := evaluator_length _ _ _

theorem evaluator_getD (syn lam : List Byte) (p j : Nat) : (evaluator syn lam p).getD j 0 =
    if j < p then xorSum ((List.range (j + 1)).map fun i => gfMul (syn.getD i 0) (lam.getD (j - i) 0)) else 0 := by
  split
  · next hj =>
    rw [List.getD_eq_getElem _ _ (by rwa [evaluator_length])]
    simp [evaluator, xorSum, gfAdd, List.foldl_map]
  · next hj => rw [List.getD_eq_default _ _ (by rw [evaluator_length]; omega)]

theorem rootPowers_length_le_255 (lam : List Byte) : (rootPowers lam).length ≤ 255 :=
  (List.length_filter_le _ _).trans_eq List.length_range

/-! ### The ends of `DEC_BLK`, read from the registers -/

section End

variable {s t : State} {run : BlockRun} {result : Option (List Byte)}

theorem State.DecodeEnd.ecount_eq_zero_iff (h : s.DecodeEnd run result t) : t.ecount = 0 ↔ run.ecount = 0 := by
  obtain ⟨_, _, _, _, _, hecount, _⟩ := h.pipeline
  rw [← BitVec.toNat_inj, hecount]
  rfl

theorem State.DecodeEnd.locatorPowers_eq (h : s.DecodeEnd run result t) (hlen : run.lambda.length ≤ 256) :
    t.locatorPowers = rootPowers run.lambda := by
  obtain ⟨_, hlambda, _⟩ := h.pipeline
  simp only [State.locatorPowers, hlambda, RegFile.valueAt_load hlen, rootPowers]

/-- The remainder of R139 is 0 in the registers of a clean block, whose syndromes are 0. -/
theorem State.DecodeEnd.remainder_of_clean {r : List Byte} {n k : Nat} (h : s.DecodeEnd (cleanRun r n k) result t)
    (hclean : IsCodeword r (n - k)) (j : Nat) :
    xorSum ((List.range (j + 1)).map fun i => gfMul (t.syn.symbolAt i) (t.lambda.symbolAt (j - i))) = 0 := by
  obtain ⟨hsyn, _⟩ := h.pipeline
  refine xorSum_eq_zero fun v hv => ?_
  obtain ⟨i, _, rfl⟩ := List.mem_map.mp hv
  rw [hsyn.trans (load_syndromes_of_isCodeword hclean), RegFile.symbolAt_zero]
  exact zero_gfMul _

/-- A block that fails before the Forney stage leaves nothing of that stage (R136, R138). -/
theorem State.DecodeEnd.before_forney (h : s.DecodeEnd run run.data t) (hdata : run.data = none) (homega : run.omega = [])
    (hpos : run.errpos = []) (hmag : run.errmag = []) :
    t.code = .uncorrectable ∧ t.omega = RegFile.zero ∧ t.errpos = RegFile.zero ∧ t.errmag = RegFile.zero := by
  obtain ⟨_, _, hom, hep, hem, _⟩ := h.pipeline
  rw [homega, RegFile.load_nil] at hom
  rw [hpos, RegFile.load_nil] at hep
  rw [hmag, RegFile.load_nil] at hem
  exact ⟨(h.failed hdata).1, hom, hep, hem⟩

theorem State.DecodeEnd.code_ne_ok (h : s.DecodeEnd run run.data t) (hdata : run.data = none) : t.code ≠ .ok := by
  rw [(h.failed hdata).1]
  decide

end End

theorem solvedRun_lambda_length (r : List Byte) (n k : Nat) : (solvedRun r n k).lambda.length ≤ 256 :=
  (solvedRun_inv r n k).lam_length.le

/-! ### The registers of a corrected block -/

section Corrected

variable {s t : State} {r : List Byte} {n k : Nat} {result : Option (List Byte)}

theorem magnitudeOf_mul (h : Correctable r n k) {m : Nat} (hm : m ∈ rootsOf r n k) :
    gfMul (magnitudeOf r n k m) (hornerDeg (derivative (solvedRun r n k).lambda) (alphaPowNeg m)) =
      hornerDeg (evaluatorOf r n k) (alphaPowNeg m) :=
  gfMul_of_gfDiv (gfDiv_eq_magnitude _ (h.isErrorLocator.denominator_ne_zero hm))

variable (hend : s.DecodeEnd (correctedRun r n k) result t)
include hend

theorem State.DecodeEnd.omega_eq : t.omega = RegFile.load (evaluatorOf r n k) := by
  obtain ⟨_, _, homega, _⟩ := hend.pipeline
  exact homega

theorem State.DecodeEnd.lambda_eq : t.lambda = RegFile.load (solvedRun r n k).lambda := by
  obtain ⟨_, hlambda, _⟩ := hend.pipeline
  exact hlambda

theorem State.DecodeEnd.rootcnt_eq : t.rootcnt.toNat = (rootsOf r n k).length := by
  obtain ⟨_, _, _, _, _, _, hrootcnt⟩ := hend.pipeline
  exact hrootcnt

theorem State.DecodeEnd.locatorPowers_eq_rootsOf : t.locatorPowers = rootsOf r n k :=
  hend.locatorPowers_eq (solvedRun_lambda_length r n k)

theorem State.DecodeEnd.omega_symbolAt (hp : n - k ≤ 256) (j : Nat) : t.omega.symbolAt j =
    if j < n - k then xorSum ((List.range (j + 1)).map fun i => gfMul (t.syn.symbolAt i) (t.lambda.symbolAt (j - i)))
    else 0 := by
  obtain ⟨hsyn, _⟩ := hend.pipeline
  have hsyn : t.syn = RegFile.load (syndromes r (n - k)) := hsyn
  simp only [hend.omega_eq, hend.lambda_eq, hsyn, evaluatorOf,
    RegFile.symbolAt_load _ _ ((evaluator_length _ _ _).trans_le hp), evaluator_getD,
    RegFile.symbolAt_load _ _ ((syndromes_length _ _).trans_le hp),
    RegFile.symbolAt_load _ _ (solvedRun_lambda_length r n k)]

theorem State.DecodeEnd.errpos_symbolAt (hn : n ≤ 255) {i : Nat} (hi : i < (rootsOf r n k).length) :
    (t.errpos.symbolAt i).toNat = n - 1 - (rootsOf r n k)[i] := by
  obtain ⟨_, _, _, hpos, _⟩ := hend.pipeline
  have hpos : t.errpos = RegFile.load ((rootsOf r n k).map fun m => BitVec.ofNat 8 (n - 1 - m)) := hpos
  have hlen : (rootsOf r n k).length ≤ 255 := rootPowers_length_le_255 _
  rw [hpos, RegFile.symbolAt_load _ _ (by rw [List.length_map]; omega), List.getD_eq_getElem _ _ (by simpa using hi),
    List.getElem_map, BitVec.toNat_ofNat, Nat.mod_eq_of_lt (by omega)]

theorem State.DecodeEnd.errmag_symbolAt {i : Nat} (hi : i < (rootsOf r n k).length) :
    t.errmag.symbolAt i = magnitudeOf r n k (rootsOf r n k)[i] := by
  obtain ⟨_, _, _, _, hmag, _⟩ := hend.pipeline
  have hmag : t.errmag = RegFile.load ((rootsOf r n k).map (magnitudeOf r n k)) := hmag
  have hlen : (rootsOf r n k).length ≤ 255 := rootPowers_length_le_255 _
  rw [hmag, RegFile.symbolAt_load _ _ (by rw [List.length_map]; omega), List.getD_eq_getElem _ _ (by simpa using hi),
    List.getElem_map]

end Corrected

/-! ### The obligations -/

theorem BlockEnd.data_length {r : List Byte} {n k : Nat} {run : BlockRun} (h : BlockEnd r n k run) (hr : r.length = n)
    (hkn : k ≤ n) {d : List Byte} (hd : run.data = some d) : d.length = k := by
  cases h with
  | clean _ => cases hd; simp [hr, hkn]
  | overCapacity _ => cases hd
  | rootsAmiss _ _ => cases hd
  | corrected _ _ => cases hd; simp [correctedBlock, hkn]

/-- Settles O36: the run of a codeword is the cleared one, with its first k symbols. -/
theorem decBlkCleanBlock : Obligations.DecBlkCleanBlock := by
  intro s hp hl hclean
  have ⟨_, hkn, _⟩ := hp
  obtain ⟨t, ht, hend⟩ := exec_decBlk_ends hp hl
  rw [State.blockRun, decodeBlock_of_isCodeword hclean] at hend
  obtain ⟨hsyn, hlambda, homega, hpos, hmag, hecount, hrootcnt⟩ := hend.pipeline
  obtain ⟨hcode, hout⟩ := hend.ok _ rfl
  have htake : (s.inSymbols 0 s.n.toNat).take s.k.toNat = s.inSymbols 0 s.k.toNat := by
    simp only [State.inSymbols_zero, ← List.map_take, List.take_range, Nat.min_eq_left hkn]
  exact ⟨t, ht, hcode, htake ▸ hout, hsyn.trans (load_syndromes_of_isCodeword hclean), hlambda.trans RegFile.load_nil,
    homega.trans RegFile.load_nil, hpos.trans RegFile.load_nil, hmag.trans RegFile.load_nil,
    BitVec.eq_of_toNat_eq hecount, BitVec.eq_of_toNat_eq hrootcnt, hend.gpoly, hend.frame⟩

/-- Settles O37, by the ways the block's decoding can end. -/
theorem decBlkOutcome : Obligations.DecBlkOutcome := by
  intro s hp hl
  have ⟨_, hkn, _⟩ := hp
  obtain ⟨t, ht, hend⟩ := exec_decBlk_ends hp hl
  have hcase := s.blockRun_end
  refine ⟨t, ht, hend.pipeline, fun d hd => ?_, hend.failed, ?_, ?_, ?_, hend.gpoly, hend.frame⟩
  · obtain ⟨hcode, hout⟩ := hend.ok d hd
    have hlen := hcase.data_length (s.inSymbols_length 0 _) hkn hd
    exact ⟨hcode, BitVec.eq_of_toNat_eq (hout.1.trans hlen), hout⟩
  all_goals
    generalize s.blockRun = run at hend hcase
    obtain ⟨_, _, _, _, _, hecount, hrootcnt⟩ := hend.pipeline
  · intro hcap
    rw [hecount] at hcap
    cases hcase with
    | clean _ => exact absurd hcap (Nat.not_lt_zero _)
    | overCapacity _ => exact ⟨(hend.failed rfl).1, BitVec.eq_of_toNat_eq hrootcnt⟩
    | rootsAmiss hle _ => exact absurd hcap (Nat.not_lt.mpr hle)
    | corrected _ h => exact absurd hcap (Nat.not_lt.mpr h.capacity)
  · intro hne
    cases hcase with
    | clean _ => exact absurd (BitVec.eq_of_toNat_eq (hrootcnt.trans hecount.symm)) hne
    | overCapacity _ => exact hend.before_forney rfl rfl rfl rfl
    | rootsAmiss _ _ => exact hend.before_forney rfl rfl rfl rfl
    | corrected _ h => exact absurd (BitVec.eq_of_toNat_eq (hrootcnt.trans (h.count.trans hecount.symm))) hne
  · intro hne _ hroots
    cases hcase with
    | clean _ => exact absurd (BitVec.eq_of_toNat_eq hecount) hne
    | overCapacity _ => exact hend.before_forney rfl rfl rfl rfl
    | rootsAmiss _ _ => exact hend.before_forney rfl rfl rfl rfl
    | corrected _ h =>
      obtain ⟨m, hm, hle⟩ := hroots
      rw [hend.locatorPowers_eq (solvedRun_lambda_length _ _ _)] at hm
      exact absurd (h.inside m hm) (Nat.not_lt.mpr hle)

/-- Settles O56, by the ways the block's decoding can end: with root powers amiss the count is not 0, since the Chien stage
finds at most `ECOUNT` of them. -/
theorem decBlkOkExactly : Obligations.DecBlkOkExactly := by
  intro s hp hl
  obtain ⟨t, ht, hend⟩ := exec_decBlk_ends hp hl
  have hcase := s.blockRun_end
  refine ⟨t, ht, ?_⟩
  generalize s.blockRun = run at hend hcase
  generalize s.inSymbols 0 s.n.toNat = r at hcase
  obtain ⟨_, _, _, _, _, hecount, _⟩ := hend.pipeline
  rw [hend.ecount_eq_zero_iff, hecount]
  cases hcase with
  | clean _ => exact iff_of_true (hend.ok _ rfl).1 (.inl rfl)
  | overCapacity hcap => exact iff_of_false (hend.code_ne_ok rfl) fun h => by omega
  | rootsAmiss _ hroots =>
    have hpowers : t.locatorPowers = rootsOf r _ _ := hend.locatorPowers_eq (solvedRun_lambda_length _ _ _)
    rw [hpowers]
    have hle : (rootsOf r _ _).length ≤ _ := searchedRun_rootcnt_le r s.n.toNat s.k.toNat
    refine iff_of_false (hend.code_ne_ok rfl) fun h => ?_
    rcases h with h0 | ⟨_, hcount, hinside⟩
    · have hnone := List.eq_nil_of_length_eq_zero (Nat.le_zero.mp (hle.trans_eq h0))
      rcases hroots with hne | ⟨m, hm, _⟩
      · exact hne (hnone ▸ h0.symm)
      · exact List.not_mem_nil (hnone ▸ hm)
    · rcases hroots with hne | ⟨m, hm, hmn⟩
      · exact hne hcount
      · exact absurd (hinside m hm) (Nat.not_lt.mpr hmn)
  | corrected _ h =>
    rw [hend.locatorPowers_eq_rootsOf]
    exact iff_of_true (hend.ok _ rfl).1 (.inr ⟨h.capacity, h.count, h.inside⟩)

/-- Settles O55, by the ways the block's decoding can end: a quotient times its divisor is the dividend. -/
theorem decBlkPipelineContent : Obligations.DecBlkPipelineContent := by
  intro s hp hl
  have ⟨_, _, hn⟩ := hp
  obtain ⟨t, ht, hend⟩ := exec_decBlk_ends hp hl
  have hcase := s.blockRun_end
  refine ⟨t, ht, ?_⟩
  generalize s.blockRun = run at hend hcase
  generalize s.inSymbols 0 s.n.toNat = r at hcase
  obtain ⟨_, _, homega, _, _, hecount, hrootcnt⟩ := hend.pipeline
  cases hcase with
  | clean hclean =>
    refine ⟨fun hne => absurd (BitVec.eq_of_toNat_eq hecount) hne, fun _ => ⟨fun j _ => ?_, fun i hi => ?_⟩⟩
    · rw [homega.trans RegFile.load_nil, RegFile.symbolAt_zero, hend.remainder_of_clean hclean, ite_self]
    · exact absurd (hi.trans_eq hrootcnt) (Nat.not_lt_zero i)
  | overCapacity hcap =>
    exact ⟨fun _ hle => absurd (hecount ▸ hle) (Nat.not_le.mpr hcap), fun hok => absurd hok (hend.code_ne_ok rfl)⟩
  | rootsAmiss _ _ =>
    rw [hend.locatorPowers_eq (solvedRun_lambda_length _ _ _)]
    exact ⟨fun _ _ => hrootcnt, fun hok => absurd hok (hend.code_ne_ok rfl)⟩
  | corrected _ h =>
    refine ⟨fun _ _ => hend.locatorPowers_eq_rootsOf ▸ hrootcnt, fun _ =>
      ⟨fun j _ => hend.omega_symbolAt (by omega) j, fun i hi => ?_⟩⟩
    have hi : i < (rootsOf r s.n.toNat s.k.toNat).length := hi.trans_eq hrootcnt
    have hm := List.getElem_mem hi
    have hderivative := RegFile.derivativeAt_load (solvedRun_lambda_length r s.n.toNat s.k.toNat)
    have hvalue := RegFile.valueAt_load ((evaluatorOf_length r s.n.toNat s.k.toNat).trans_le (by omega))
    refine ⟨(rootsOf r _ _)[i], by rw [hend.locatorPowers_eq_rootsOf, List.getElem?_eq_getElem hi], h.inside _ hm,
      hend.errpos_symbolAt hn hi, ?_, ?_⟩
    · rw [hend.lambda_eq, hderivative]
      exact h.isErrorLocator.denominator_ne_zero hm
    · rw [hend.lambda_eq, hderivative, hend.omega_eq, hvalue, hend.errmag_symbolAt hi]
      exact magnitudeOf_mul h hm

end Sys2Proof.Machine
end

section
/-! SUPPORT. A frame that `ENC_PKT` made comes back: its blocks are codewords, so each decodes to its block of the payload
(R115, R116, R133, R146). -/

namespace Sys2Proof.Machine

theorem payloadBlock_eq (payload : List Byte) (k b : Nat) :
    payloadBlock payload k b = (List.range k).map fun j => payload.getD (b * k + j) 0 := rfl

/-- The blocks of a payload, put together, are the first symbols of the payload continued by zeros (R115). -/
theorem flatten_payloadBlocks (payload : List Byte) (k m : Nat) :
    ((List.range m).map (payloadBlock payload k)).flatten = (List.range (m * k)).map (payload.getD · 0) := by
  induction m with
  | zero => simp
  | succ m ih =>
    rw [List.range_succ, List.map_append, List.flatten_append, ih, List.map_singleton, List.flatten_singleton,
      payloadBlock_eq, Nat.succ_mul, List.range_add, List.map_append, List.map_map]
    rfl

theorem map_range_getD (l : List Byte) {n : Nat} (h : l.length ≤ n) :
    (List.range n).map (l.getD · 0) = l ++ List.replicate (n - l.length) 0 := by
  refine List.ext_getElem (by simp [h]) fun j _ _ => ?_
  rw [List.getElem_map, List.getElem_range]
  by_cases hj : j < l.length
  · rw [List.getElem_append_left hj, List.getD_eq_getElem _ _ hj]
  · rw [List.getElem_append_right (Nat.not_lt.mp hj), List.getElem_replicate, List.getD_eq_default _ _ (Nat.not_lt.mp hj)]

theorem le_blockCount_mul (len : Nat) {k : Nat} (hk : 0 < k) : len ≤ blockCount len k * k := by
  have hmod := Nat.div_add_mod (len + k - 1) k
  have hlt := Nat.mod_lt (len + k - 1) hk
  rw [Nat.mul_comm] at hmod
  rw [blockCount]
  omega

theorem blockCount_pos {len k : Nat} (hk : 0 < k) (hlen : 0 < len) : 0 < blockCount len k :=
  Nat.div_pos (by omega) hk

/-- The codeword of k data symbols decodes to them (R113, R133). -/
theorem decodeBlock_codeword {d : List Byte} {n k : Nat} (hd : d.length = k) :
    (decodeBlock (codeword d n k) n k).data = some d := by
  rw [decodeBlock_of_isCodeword (isCodeword_codeword d n k)]
  exact congrArg some (List.take_left' hd)

/-- Block b of a frame that stands in `IN` is the codeword of block b of the payload (R116). -/
theorem State.inSymbols_of_reads_frame {u : State} {payload : List Byte} {n k : Nat} (hkn : k ≤ n)
    (hread : ∀ i, i < (encodeFrame payload n k).length → u.readIn i = (encodeFrame payload n k).getD i 0) {b : Nat}
    (hb : b < blockCount payload.length k) :
    u.inSymbols (b * n) n = codeword (payloadBlock payload k b) n k := by
  refine map_range_eq_of_getD (codeword_length _ (payloadBlock_length _ _ _) hkn) fun j hj => ?_
  have hin : (b + 1) * n ≤ blockCount payload.length k * n := Nat.mul_le_mul_right _ hb
  rw [Nat.succ_mul] at hin
  rw [hread _ (by rw [encodeFrame_length _ hkn]; omega), encodeFrame_getD _ hkn hb hj]

/-- Settles O43: the frame's blocks are the codewords of the payload's, and the padding is zeros. -/
theorem packetRoundTrip : Obligations.PacketRoundTrip := by
  intro s t u hp hpos hfit ht hn hk hlen hread
  have ⟨hk0, hkn, _⟩ := hp
  have hframe := encodeFrame_length s.operand hkn
  have hout := State.outIs_setOut (s.setGpoly (genpoly (s.n.toNat - s.k.toNat)))
    (hframe.trans_le (by rw [State.operand_length]; exact hfit)) .ok
  cases (exec_encPkt_eq hp hfit).symm.trans ht
  have hup : u.paramsValid := by rw [State.paramsValid, hn, hk]; exact hp
  have hulen : u.inLen.toNat = blockCount s.operand.length s.k.toNat * s.n.toNat := by rw [hlen, hout.1, hframe]
  have hblock := fun b => State.inSymbols_of_reads_frame (u := u) (payload := s.operand) hkn (b := b) fun i hi =>
    (hread i (hout.1 ▸ hi)).trans (hout.2 i hi)
  have hblocks : 0 < blockCount s.operand.length s.k.toNat :=
    blockCount_pos hk0 (by rwa [State.operand_length])
  have hpad := map_range_getD s.operand (le_blockCount_mul s.operand.length hk0)
  generalize blockCount s.operand.length s.k.toNat = blocks at hulen hblock hblocks hpad
  have hdata : ((List.range blocks).map (payloadBlock s.operand s.k.toNat)).length = u.inLen.toNat / u.n.toNat := by
    rw [hulen, hn, Nat.mul_div_cancel _ (by omega), List.length_map, List.length_range]
  obtain ⟨v, hv, hcode, hvout, _⟩ := decPktResult u _ hup
    (by rw [hulen]; exact Nat.mul_pos hblocks (by omega)) (by rw [hulen, hn, Nat.mul_mod_left]) hdata fun b hb => by
      have hb : b < blocks := by simpa using hb
      rw [hn, hk, hblock b hb, decodeBlock_codeword (payloadBlock_length _ _ _)]
      simp [List.getD_eq_getElem?_getD, hb]
  rw [flatten_payloadBlocks, hpad, stripZeros_append_replicate] at hvout
  exact ⟨v, hv, hcode, hvout⟩

end Sys2Proof.Machine
end

section
/-! SUPPORT. The key equation (R135, R139) over a field of characteristic 2: what the Berlekamp-Massey stage keeps of it, and
that its solutions within capacity are the multiples of the one it finds. -/

namespace Sys2Proof.Machine

open Polynomial

variable {F : Type} [Field F]

theorem coeff_mul_eq_zero {f g : F[X]} {m n j : ℕ} (hf : ∀ j, m < j → f.coeff j = 0) (hg : ∀ j, n ≤ j → g.coeff j = 0)
    (hj : m + n ≤ j) : (f * g).coeff j = 0 := by
  rw [coeff_mul]
  refine Finset.sum_eq_zero fun ab hab => ?_
  have hsum := Finset.HasAntidiagonal.mem_antidiagonal.mp hab
  by_cases ha : m < ab.1
  · rw [hf _ ha, zero_mul]
  · rw [hg _ (by omega), mul_zero]

theorem eq_zero_of_X_pow_dvd {f : F[X]} {n : ℕ} (h : X ^ n ∣ f) (hdeg : ∀ j, n ≤ j → f.coeff j = 0) : f = 0 := by
  ext j
  rcases lt_or_ge j n with hj | hj
  · exact X_pow_dvd_iff.mp h j hj
  · exact hdeg j hj

theorem X_pow_dvd_of_mul {f g : F[X]} {n : ℕ} (h : X ^ n ∣ f * g) (hg : g.coeff 0 ≠ 0) : X ^ n ∣ f :=
  prime_X.pow_dvd_of_dvd_mul_right n (mt X_dvd_iff.mp hg) h

/-- Before step i with length L: the locator `lam` and the shifted saved locator x^m B, each with the evaluator that goes
with it; the saved one fails at degree i by the saved discrepancy b; and the two pairs have determinant b x^i. -/
structure KeyEquations (S lam shifted omega comp : F[X]) (i L : ℕ) (b : F) : Prop where
  current : X ^ i ∣ S * lam + omega
  saved : X ^ (i + 1) ∣ S * shifted + comp + C b * X ^ i
  det : lam * comp + omega * shifted = C b * X ^ i
  omega_degree : ∀ j, L ≤ j → omega.coeff j = 0
  comp_degree : ∀ j, i + 1 ≤ L + j → comp.coeff j = 0

section Steps

variable {S lam shifted omega comp : F[X]} {i L : ℕ} {b d : F}

theorem KeyEquations.init [CharP F 2] (S : F[X]) : KeyEquations S 1 (X ^ 1 * 1) 0 1 0 0 1 where
  current := by simp
  saved := by
    have h : S * (X ^ 1 * 1) + 1 + C 1 * X ^ 0 = X ^ (0 + 1) * S := by
      rw [C_1]
      linear_combination (CharTwo.two_eq_zero : (2 : F[X]) = 0)
    exact h ▸ dvd_mul_right _ _
  det := by simp
  omega_degree j _ := coeff_zero j
  comp_degree j hj := by rw [coeff_one, if_neg (by omega)]

theorem X_mul_coeff_eq_zero {f : F[X]} {n j : ℕ} (hf : ∀ j, n ≤ j → f.coeff j = 0) (hj : n + 1 ≤ j) :
    (X * f).coeff j = 0 := by
  obtain ⟨j, rfl⟩ := Nat.exists_eq_succ_of_ne_zero (Nat.ne_zero_of_lt hj)
  rw [coeff_X_mul]
  exact hf j (by omega)

variable (h : KeyEquations S lam shifted omega comp i L b)
include h

theorem KeyEquations.saved_shift : X ^ (i + 1 + 1) ∣ S * (X * shifted) + X * comp + C b * X ^ (i + 1) := by
  have hshift := mul_dvd_mul_left X h.saved
  rw [← pow_succ'] at hshift
  exact hshift.trans (dvd_of_eq (by ring))

theorem KeyEquations.comp_shift_degree (j : ℕ) (hj : i + 1 + 1 ≤ L + j) (hi : L ≤ i + 1) : (X * comp).coeff j = 0 :=
  X_mul_coeff_eq_zero (n := i + 1 - L) (fun j hj => h.comp_degree j (by omega)) (by omega)

/-- A step without a discrepancy. -/
theorem KeyEquations.keep (hi : L ≤ i + 1) (hd : X ^ (i + 1) ∣ S * lam + omega) :
    KeyEquations S lam (X * shifted) omega (X * comp) (i + 1) L b where
  current := hd
  saved := h.saved_shift
  det := by
    rw [pow_succ]
    linear_combination X * h.det
  omega_degree := h.omega_degree
  comp_degree j hj := h.comp_shift_degree j hj hi

variable [CharP F 2]

/-- The discrepancy of a step is the coefficient at which the current locator fails. -/
theorem KeyEquations.discrepancy (hi : L ≤ i) (hd : (S * lam).coeff i = d) :
    X ^ (i + 1) ∣ S * lam + omega + C d * X ^ i := by
  refine X_pow_dvd_iff.mpr fun j hj => ?_
  rw [coeff_add, coeff_C_mul_X_pow]
  rcases Nat.lt_succ_iff_lt_or_eq.mp hj with hj | rfl
  · rw [X_pow_dvd_iff.mp h.current j hj, if_neg hj.ne, add_zero]
  · rw [coeff_add, hd, h.omega_degree j hi, if_pos rfl, add_zero, CharTwo.add_self_eq_zero]

variable (hb : b ≠ 0) (hd : X ^ (i + 1) ∣ S * lam + omega + C d * X ^ i)
include hb hd

/-- The update makes up for the discrepancy (R134). -/
theorem KeyEquations.update_current :
    X ^ (i + 1) ∣ S * (lam + C (d / b) * shifted) + (omega + C (d / b) * comp) := by
  have hcancel : C (d / b) * C b = C d := by rw [← C_mul, div_mul_cancel₀ d hb]
  have hsum : S * (lam + C (d / b) * shifted) + (omega + C (d / b) * comp) =
      S * lam + omega + C d * X ^ i + C (d / b) * (S * shifted + comp + C b * X ^ i) := by
    linear_combination -(C d * X ^ i) * (CharTwo.two_eq_zero : (2 : F[X]) = 0) - X ^ i * hcancel
  exact hsum ▸ dvd_add hd (h.saved.mul_left _)

/-- A step with a discrepancy that leaves the length. -/
theorem KeyEquations.update (hi : L ≤ i + 1) (hL : i < 2 * L) :
    KeyEquations S (lam + C (d / b) * shifted) (X * shifted) (omega + C (d / b) * comp) (X * comp) (i + 1) L b where
  current := h.update_current hb hd
  saved := h.saved_shift
  det := by
    rw [pow_succ]
    linear_combination X * h.det + (C (d / b) * X * shifted * comp) * (CharTwo.two_eq_zero : (2 : F[X]) = 0)
  omega_degree j hj := by
    rw [coeff_add, coeff_C_mul, h.omega_degree j hj, h.comp_degree j (by omega), mul_zero, add_zero]
  comp_degree j hj := h.comp_shift_degree j hj hi

/-- A step with a discrepancy that grows the length: the old pair is saved. -/
theorem KeyEquations.grow (hL : 2 * L ≤ i) :
    KeyEquations S (lam + C (d / b) * shifted) (X * lam) (omega + C (d / b) * comp) (X * omega) (i + 1) (i + 1 - L) d where
  current := h.update_current hb hd
  saved := by
    have hshift := mul_dvd_mul_left X hd
    rw [← pow_succ'] at hshift
    exact hshift.trans (dvd_of_eq (by ring))
  det := by
    have hcancel : C (d / b) * C b = C d := by rw [← C_mul, div_mul_cancel₀ d hb]
    rw [pow_succ]
    linear_combination (C (d / b) * X) * h.det + (X * lam * omega) * (CharTwo.two_eq_zero : (2 : F[X]) = 0) +
      (X ^ i * X) * hcancel
  omega_degree j hj := by
    rw [coeff_add, coeff_C_mul, h.omega_degree j (by omega), h.comp_degree j (by omega), mul_zero, add_zero]
  comp_degree j hj := X_mul_coeff_eq_zero h.omega_degree (by omega)

end Steps

/-- A locator and an evaluator of degrees at most v and less than v that solve the key equation up to degree p. -/
structure KeySolution (S sigma eval : F[X]) (p v : ℕ) : Prop where
  key : X ^ p ∣ S * sigma + eval
  locator_degree : ∀ j, v < j → sigma.coeff j = 0
  evaluator_degree : ∀ j, v ≤ j → eval.coeff j = 0
  constant : sigma.coeff 0 = 1

section Solutions

variable [CharP F 2] {S lam shifted omega comp sigma eval : F[X]} {p L v : ℕ} {b : F}

/-- By Cramer's rule a solution is a combination of the two pairs. -/
theorem KeyEquations.combination (h : KeyEquations S lam shifted omega comp p L b) (hkey : X ^ p ∣ S * sigma + eval) :
    ∃ u w, sigma * comp + eval * shifted = X ^ p * u ∧ lam * eval + omega * sigma = X ^ p * w ∧
      C b * sigma = u * lam + w * shifted ∧ C b * eval = u * omega + w * comp := by
  have htwo : (2 : F[X]) = 0 := CharTwo.two_eq_zero
  have hX : (X : F[X]) ^ p ≠ 0 := pow_ne_zero _ X_ne_zero
  have hsaved : X ^ p ∣ S * shifted + comp :=
    (dvd_add_left (dvd_mul_left _ _)).mp ((pow_dvd_pow X (Nat.le_succ p)).trans h.saved)
  have hleft : X ^ p ∣ sigma * comp + eval * shifted := by
    have hsum : sigma * comp + eval * shifted = sigma * (S * shifted + comp) + shifted * (S * sigma + eval) := by
      linear_combination -(S * sigma * shifted) * htwo
    exact hsum ▸ dvd_add (hsaved.mul_left _) (hkey.mul_left _)
  have hright : X ^ p ∣ lam * eval + omega * sigma := by
    have hsum : lam * eval + omega * sigma = lam * (S * sigma + eval) + sigma * (S * lam + omega) := by
      linear_combination -(S * sigma * lam) * htwo
    exact hsum ▸ dvd_add (hkey.mul_left _) (h.current.mul_left _)
  obtain ⟨u, hu⟩ := hleft
  obtain ⟨w, hw⟩ := hright
  refine ⟨u, w, hu, hw, mul_left_cancel₀ hX ?_, mul_left_cancel₀ hX ?_⟩
  · linear_combination lam * hu + shifted * hw - sigma * h.det - lam * eval * shifted * htwo
  · linear_combination omega * hu + comp * hw - eval * h.det - sigma * omega * comp * htwo

/-- At the end of the stage, a solution within half the number p of syndromes is a multiple of the one found: the degrees
leave nothing of the saved pair. -/
theorem KeyEquations.exists_multiple (h : KeyEquations S lam shifted omega comp p L b) (hb : b ≠ 0)
    (hlam : ∀ j, L < j → lam.coeff j = 0) (hshift : ∀ j, p + 1 < L + j → shifted.coeff j = 0)
    (hshift_zero : shifted.coeff 0 = 0) (hsol : KeySolution S sigma eval p v) (hv : 2 * v ≤ p) :
    L ≤ v ∧ ∃ u, sigma = u * lam ∧ eval = u * omega := by
  have hcancel (f : F[X]) : C b⁻¹ * (C b * f) = f := by
    rw [← mul_assoc, ← C_mul, inv_mul_cancel₀ hb, C_1, one_mul]
  have hX : (X : F[X]) ^ p ≠ 0 := pow_ne_zero _ X_ne_zero
  obtain ⟨u, w, hu, hw, hsigma, heval⟩ := h.combination hsol.key
  have hL : L ≤ v := by
    by_contra hlt
    have hzero : sigma * comp + eval * shifted = 0 := by
      refine eq_zero_of_X_pow_dvd (hu ▸ dvd_mul_right _ _) fun j hj => ?_
      rw [coeff_add, coeff_mul_eq_zero (n := p + 1 - L) hsol.locator_degree (fun j hj => h.comp_degree j (by omega))
        (by omega), mul_comm, coeff_mul_eq_zero (m := p + 1 - L) (fun j hj => hshift j (by omega)) hsol.evaluator_degree
        (by omega), add_zero]
    have hu0 : u = 0 := (mul_eq_zero.mp (hu.symm.trans hzero)).resolve_left hX
    have hconst := congrArg (coeff · 0) hsigma
    simp [hu0, hshift_zero, hsol.constant, hb] at hconst
  refine ⟨hL, C b⁻¹ * u, ?_⟩
  have hzero : lam * eval + omega * sigma = 0 := by
    refine eq_zero_of_X_pow_dvd (hw ▸ dvd_mul_right _ _) fun j hj => ?_
    rw [coeff_add, coeff_mul_eq_zero hlam hsol.evaluator_degree (by omega), mul_comm,
      coeff_mul_eq_zero hsol.locator_degree h.omega_degree (by omega), add_zero]
  have hw0 : w = 0 := (mul_eq_zero.mp (hw.symm.trans hzero)).resolve_left hX
  rw [hw0, zero_mul, add_zero] at hsigma heval
  rw [mul_assoc, mul_assoc, ← hsigma, ← heval]
  exact ⟨(hcancel sigma).symm, (hcancel eval).symm⟩

end Solutions

section Errors

variable {M : Finset ℕ} {loc val : ℕ → F} (hne : ∀ m ∈ M, loc m ≠ 0) (hinj : Set.InjOn loc M)
  (hval : ∀ m ∈ M, val m ≠ 0)

/-- Errors with these locators and values solve the key equation of the syndromes they leave. -/
theorem keySolution_powerSumPoly [CharP F 2] (M : Finset ℕ) (loc val : ℕ → F) (p : ℕ) :
    KeySolution (powerSumPoly M loc val p) (locatorPoly M loc) (evaluatorPoly M loc val) p M.card where
  key := by
    rw [← CharTwo.sub_eq_add]
    exact X_pow_dvd_powerSumPoly_mul M loc val p
  locator_degree _ := coeff_locatorPoly_of_lt
  evaluator_degree _ := coeff_evaluatorPoly_of_le
  constant := coeff_zero_locatorPoly

include hne hinj hval

theorem eval_evaluatorPoly_ne_zero {m : ℕ} (hm : m ∈ M) : (evaluatorPoly M loc val).eval (loc m)⁻¹ ≠ 0 := by
  rw [eval_evaluatorPoly_eq_mul hne hm]
  exact mul_ne_zero (hval m hm) (eval_evaluatorPoly_one_ne_zero hne hinj hm)

/-- Locator and evaluator of errors have no common factor, so where both are multiples of a pair whose locator has no larger
degree, they are that pair. -/
theorem eq_of_multiple {lam omega u : F[X]} (hdeg : ∀ j, M.card < j → lam.coeff j = 0) (hconst : lam.coeff 0 = 1)
    (hlocator : locatorPoly M loc = u * lam) (hevaluator : evaluatorPoly M loc val = u * omega) :
    lam = locatorPoly M loc ∧ omega = evaluatorPoly M loc val := by
  have hlam : lam = locatorPoly M loc := eq_locatorPoly hne hinj hdeg hconst fun m hm => by
    have hroot := eval_locatorPoly_eq_zero hm (hne m hm)
    rw [hlocator, eval_mul] at hroot
    refine (mul_eq_zero.mp hroot).resolve_left fun hu => eval_evaluatorPoly_ne_zero hne hinj hval hm ?_
    rw [hevaluator, eval_mul, hu, zero_mul]
  have hlam0 : lam ≠ 0 := fun h0 => by simp [h0] at hconst
  have hu : u = 1 := mul_right_cancel₀ hlam0 (by rw [one_mul, ← hlocator, hlam])
  exact ⟨hlam, by rw [hevaluator, hu, one_mul]⟩

/-- At least one error, and no more than p, leaves a syndrome that is not 0. -/
theorem powerSumPoly_ne_zero {p : ℕ} (hp : M.card ≤ p) {m : ℕ} (hm : m ∈ M) : powerSumPoly M loc val p ≠ 0 := by
  intro h0
  have hdvd := X_pow_dvd_powerSumPoly_mul M loc val p
  rw [h0, zero_mul, zero_sub, dvd_neg] at hdvd
  have hzero := eq_zero_of_X_pow_dvd hdvd fun j hj => coeff_evaluatorPoly_of_le (hp.trans hj)
  exact eval_evaluatorPoly_ne_zero hne hinj hval hm (by rw [hzero, eval_zero])

end Errors

end Sys2Proof.Machine
end

section
/-! SUPPORT. The Berlekamp-Massey stage solves the key equation (R134, R135 (iv)), and the evaluator of R139 is the one that
goes with its locator. -/

namespace Sys2Proof.Machine

open Polynomial

variable {F : Type} [Field F] {φ : Byte → F}

/-! ### The operations of a step, as polynomials -/

theorem coeff_polyOf_mul (h : IsFieldReading φ) (a b : List Byte) (j : ℕ) :
    (polyOf φ a * polyOf φ b).coeff j = ∑ i ∈ Finset.range (j + 1), φ (a.getD i 0) * φ (b.getD (j - i) 0) := by
  rw [coeff_mul, Finset.Nat.sum_antidiagonal_eq_sum_range_succ fun i l => (polyOf φ a).coeff i * (polyOf φ b).coeff l]
  simp only [coeff_polyOf h]

theorem IsFieldReading.map_foldl_gfAdd (h : IsFieldReading φ) (f : ℕ → Byte) (a : Byte) (n : ℕ) :
    φ ((List.range n).foldl (fun d j => gfAdd d (f j)) a) = ∑ j ∈ Finset.range n, φ (f j) + φ a := by
  induction n with
  | zero => simp
  | succ n ih =>
    rw [List.range_succ, List.foldl_concat, h.map_add, ih, Finset.sum_range_succ]
    ring

/-- The discrepancy of step i is the coefficient of degree i of S times Lambda (R134). -/
theorem coeff_of_discrepancy (h : IsFieldReading φ) (syn : List Byte) {v : BmVars} {i : ℕ} (hv : v.Inv i) :
    (polyOf φ syn * polyOf φ v.lam).coeff i = φ (discrepancy syn v i) := by
  have htail : ∑ j ∈ Finset.range (i + 1), φ (v.lam.getD j 0) * φ (syn.getD (i - j) 0) =
      ∑ j ∈ Finset.range (v.len + 1), φ (v.lam.getD j 0) * φ (syn.getD (i - j) 0) := by
    refine (Finset.sum_subset (Finset.range_mono (Nat.succ_le_succ hv.len_le)) fun j _ hj => ?_).symm
    rw [hv.lam_degree j (by simpa using hj), h.map_zero', zero_mul]
  rw [mul_comm, coeff_polyOf_mul h, htail, Finset.sum_range_succ', hv.lam_zero, Nat.sub_zero, discrepancy,
    h.map_foldl_gfAdd]
  simp only [h.map_mul, h.map_one', one_mul]

/-- The update of a step (R134): no coefficient is cut off at the end of the array. -/
theorem polyOf_bmUpdate (h : IsFieldReading φ) {v : BmVars} {i : ℕ} (hv : v.Inv i) (hi : i ≤ 254) (c : Byte) :
    polyOf φ (bmUpdate v.lam v.prev v.shift c) = polyOf φ v.lam + C (φ c) * (X ^ v.shift * polyOf φ v.prev) := by
  ext j
  rw [coeff_polyOf h, coeff_add, coeff_C_mul, coeff_X_pow_mul', coeff_polyOf h, coeff_polyOf h,
    bmUpdate_getD _ _ _ _ _ (by rw [hv.lam_length, hv.prev_length]), hv.lam_length]
  by_cases hj : v.shift ≤ j
  · by_cases hlt : j < 256
    · rw [if_pos ⟨hj, hlt⟩, if_pos hj, h.map_add, h.map_mul, mul_comm (φ c)]
    · rw [if_neg fun hc => hlt hc.2, if_pos hj, hv.prev_degree _ (by omega), h.map_zero', mul_zero, add_zero]
  · rw [if_neg fun hc => hj hc.1, if_neg hj, mul_zero, add_zero]

theorem map_gfDiv_getD (h : IsFieldReading φ) (a : Byte) {b : Byte} (hb : b ≠ 0) : φ ((gfDiv a b).getD 0) = φ a / φ b := by
  have hφb : φ b ≠ 0 := fun h0 => hb (h.map_eq_zero.mp h0)
  obtain ⟨q, hq⟩ := Option.ne_none_iff_exists'.mp (mt gfDiv_eq_none.mp hb)
  rw [hq, Option.getD_some, eq_div_iff hφb, ← h.map_mul, gfMul_of_gfDiv hq]

/-! ### The loop -/

/-- The key equations that hold before step i. -/
def BmVars.Key (φ : Byte → F) (syn : List Byte) (i : ℕ) (v : BmVars) : Prop :=
  ∃ omega comp : F[X],
    KeyEquations (polyOf φ syn) (polyOf φ v.lam) (X ^ v.shift * polyOf φ v.prev) omega comp i v.len (φ v.disc)

theorem polyOf_one_zeros (h : IsFieldReading φ) (n : ℕ) : polyOf φ (0x01 :: List.replicate n 0) = 1 := by
  ext j
  rw [coeff_polyOf h, coeff_one]
  split
  · next hj => subst hj; exact h.map_one
  · next hj =>
    rw [cons_zeros_getD _ _ (Nat.pos_of_ne_zero hj)]
    exact h.map_zero

theorem bmInit_key (h : IsFieldReading φ) (syn : List Byte) : bmInit.Key φ syn 0 := by
  have := h.charTwo
  have hone : polyOf φ (0x01 :: List.replicate 255 0) = 1 := polyOf_one_zeros h 255
  have hdisc : φ bmInit.disc = 1 := h.map_one
  refine ⟨0, 1, ?_⟩
  rw [hdisc, bmInit]
  dsimp only
  rw [hone]
  exact KeyEquations.init _

theorem BmVars.Key.bmStep (h : IsFieldReading φ) {syn : List Byte} {v : BmVars} {i : ℕ} (hkey : v.Key φ syn i)
    (hv : v.Inv i) (hi : i ≤ 254) : (bmStep syn v i).Key φ syn (i + 1) := by
  have := h.charTwo
  obtain ⟨omega, comp, hkey⟩ := hkey
  have hlen := hv.len_le
  have hdisc : φ v.disc ≠ 0 := fun h0 => hv.disc_ne_zero (h.map_eq_zero.mp h0)
  have hfail := hkey.discrepancy hlen (coeff_of_discrepancy h syn hv)
  have hlam : polyOf φ (bmUpdate v.lam v.prev v.shift ((gfDiv (discrepancy syn v i) v.disc).getD 0)) =
      polyOf φ v.lam + C (φ (discrepancy syn v i) / φ v.disc) * (X ^ v.shift * polyOf φ v.prev) := by
    rw [polyOf_bmUpdate h hv hi, map_gfDiv_getD h _ hv.disc_ne_zero]
  unfold Machine.bmStep BmVars.Key
  dsimp only
  split
  · next hd =>
    rw [hd, h.map_zero', C_0, zero_mul, add_zero] at hfail
    rw [pow_succ', mul_assoc]
    exact ⟨_, _, hkey.keep (by omega) hfail⟩
  · split
    · next hgrow =>
      rw [hlam, pow_one]
      exact ⟨_, _, hkey.grow hdisc hfail hgrow⟩
    · next hgrow =>
      rw [hlam, pow_succ', mul_assoc]
      exact ⟨_, _, hkey.update hdisc hfail (by omega) (by omega)⟩

/-- The key equations at the end of the stage, with as many steps as there are syndromes. -/
theorem berlekampMassey_key (h : IsFieldReading φ) {syn : List Byte} (hsyn : syn.length ≤ 254) :
    (berlekampMassey syn).Key φ syn syn.length := by
  have hloop : ∀ i, i ≤ syn.length → ((List.range i).foldl (bmStep syn) bmInit).Inv i ∧
      ((List.range i).foldl (bmStep syn) bmInit).Key φ syn i := by
    intro i
    induction i with
    | zero => exact fun _ => ⟨bmInit_inv, bmInit_key h syn⟩
    | succ i ih =>
      intro hi
      obtain ⟨hinv, hkey⟩ := ih (by omega)
      rw [List.range_succ, List.foldl_concat]
      exact ⟨hinv.bmStep syn, hkey.bmStep h hinv (by omega)⟩
  exact (hloop _ le_rfl).2

/-! ### What the stage finds -/

/-- The evaluator of R139 is the remainder of S times Lambda modulo x^p. -/
theorem polyOf_evaluator_eq (h : IsFieldReading φ) {syn lam : List Byte} {p : ℕ} {omega : F[X]}
    (hkey : X ^ p ∣ polyOf φ syn * polyOf φ lam + omega) (hdeg : ∀ j, p ≤ j → omega.coeff j = 0) :
    polyOf φ (evaluator syn lam p) = omega := by
  have := h.charTwo
  ext j
  rw [coeff_polyOf h, evaluator_getD]
  split
  · next hj =>
    have hcoeff := X_pow_dvd_iff.mp hkey j hj
    rw [coeff_add, CharTwo.add_eq_zero] at hcoeff
    rw [h.map_xorSum_range, ← hcoeff, coeff_polyOf_mul h]
    simp only [h.map_mul]
  · next hj => rw [hdeg j (by omega)]; exact h.map_zero

/-- The locator and the evaluator that the stages leave solve the key equation of the block (R135, R139), and every solution
within capacity is a multiple of them. -/
theorem solvedRun_key (h : IsFieldReading φ) (r : List Byte) {n k : ℕ} (hp : n - k ≤ 254) :
    KeySolution (polyOf φ (syndromes r (n - k))) (polyOf φ (solvedRun r n k).lambda) (polyOf φ (evaluatorOf r n k))
      (n - k) (solvedRun r n k).ecount ∧
    ∀ (sigma eval : F[X]) (v : ℕ), KeySolution (polyOf φ (syndromes r (n - k))) sigma eval (n - k) v → 2 * v ≤ n - k →
      (solvedRun r n k).ecount ≤ v ∧
        ∃ u, sigma = u * polyOf φ (solvedRun r n k).lambda ∧ eval = u * polyOf φ (evaluatorOf r n k) := by
  have := h.charTwo
  have hinv := solvedRun_inv r n k
  have hlen := syndromes_length r (n - k)
  obtain ⟨omega, comp, hkey⟩ := berlekampMassey_key h (syn := syndromes r (n - k)) (by omega)
  rw [hlen] at hkey
  have hle := hinv.len_le
  have homega : polyOf φ (evaluatorOf r n k) = omega :=
    polyOf_evaluator_eq h hkey.current fun j hj => hkey.omega_degree j (by omega)
  have hlam : ∀ j, (solvedRun r n k).ecount < j → (polyOf φ (solvedRun r n k).lambda).coeff j = 0 := fun j hj => by
    rw [coeff_polyOf h]
    exact (congrArg φ (hinv.lam_degree j hj)).trans h.map_zero
  have hconst : (polyOf φ (solvedRun r n k).lambda).coeff 0 = 1 := by
    rw [coeff_polyOf h]
    exact (congrArg φ hinv.lam_zero).trans h.map_one
  rw [homega]
  refine ⟨⟨hkey.current, hlam, hkey.omega_degree, hconst⟩, fun sigma eval v hsol hv => ?_⟩
  refine hkey.exists_multiple (fun h0 => hinv.disc_ne_zero (h.map_eq_zero.mp h0)) hlam (fun j hj => ?_) ?_ hsol hv
  · rw [coeff_X_pow_mul', coeff_polyOf h]
    split
    · exact (congrArg φ (hinv.prev_degree _ (by omega))).trans h.map_zero
    · rfl
  · rw [coeff_X_pow_mul', if_neg (by have := hinv.shift_pos; omega)]

end Sys2Proof.Machine
end

section
/-! SUPPORT. A corrected block is a codeword (R143 (iii)): the magnitudes at the root powers leave the syndromes of the received
block, so the two cancel. -/

namespace Sys2Proof.Machine

section Reading

variable {F : Type} [Field F] {φ : Byte → F}

/-- A block at a power of alpha, as a sum over the powers of its positions (R130, R132). -/
theorem IsFieldReading.map_hornerPos_alphaPow (h : IsFieldReading φ) (f : ℕ → Byte) (i n : ℕ) :
    φ (hornerPos ((List.range n).map f) (alphaPow i)) =
      ∑ m ∈ Finset.range n, φ (f (n - 1 - m)) * locator φ m ^ i := by
  rw [hornerPos_map_range_alphaPow, h.map_xorSum_range, ← Finset.sum_range_reflect]
  refine Finset.sum_congr rfl fun m hm => ?_
  have hm := Finset.mem_range.mp hm
  rw [h.map_mul, show n - 1 - (n - 1 - m) = m by omega, Nat.mul_comm, h.map_alphaPow_mul, locator]

open Polynomial

theorem polyOf_syndromes_eq_powerSumPoly (h : IsFieldReading φ) {r : List Byte} {p : ℕ} {M : Finset ℕ} {e : ℕ → Byte}
    (hsyn : ∀ i, i < p → φ (hornerPos r (alphaPow (i + 1))) = ∑ m ∈ M, φ (e m) * locator φ m ^ (i + 1)) :
    polyOf φ (syndromes r p) = powerSumPoly M (locator φ) (φ ∘ e) p := by
  ext i
  rw [coeff_polyOf h, coeff_powerSumPoly]
  split
  · next hi =>
    rw [syndromes_getD _ hi]
    exact hsyn i hi
  · next hi => rw [List.getD_eq_default _ _ (by rw [syndromes_length]; omega), h.map_zero']

variable {r : List Byte} {n k : ℕ}

theorem Correctable.card_rootSet_eq (hr : Correctable r n k) :
    (rootSet (solvedRun r n k).lambda).card = (solvedRun r n k).ecount :=
  (card_rootSet _).trans hr.count

/-- `OMEGA` is the evaluator of the magnitudes that the Forney stage computes from it (R141). -/
theorem Correctable.polyOf_evaluatorOf (hr : Correctable r n k) (h : IsFieldReading φ) (hp : n - k ≤ 254) :
    polyOf φ (evaluatorOf r n k) =
      evaluatorPoly (rootSet (solvedRun r n k).lambda) (locator φ) (φ ∘ magnitudeOf r n k) := by
  obtain ⟨hsol, _⟩ := solvedRun_key h r hp
  refine eq_evaluatorPoly (fun m _ => h.locator_ne_zero m) (h.locator_injOn fun m => lt_of_mem_rootSet)
    (fun j hj => hsol.evaluator_degree j (hr.card_rootSet_eq ▸ hj)) fun m hm => ?_
  have hlt := lt_of_mem_rootSet hm
  rw [← h.map_hornerDeg_alphaPowNeg _ hlt, ← hr.isErrorLocator.map_denominator h hlt, Function.comp_apply, ← h.map_mul,
    magnitudeOf_mul hr (mem_rootSet.mp hm)]

/-- Each syndrome is that of the magnitudes at the root powers. -/
theorem Correctable.syndrome_eq (hr : Correctable r n k) (h : IsFieldReading φ) (hp : n - k ≤ 254) {i : ℕ}
    (hi : i < n - k) : φ (hornerPos r (alphaPow (i + 1))) =
      ∑ m ∈ rootSet (solvedRun r n k).lambda, φ (magnitudeOf r n k m) * locator φ m ^ (i + 1) := by
  have := h.charTwo
  obtain ⟨hsol, _⟩ := solvedRun_key h r hp
  have hkey := hsol.key
  have hsum := X_pow_dvd_powerSumPoly_mul (rootSet (solvedRun r n k).lambda) (locator φ) (φ ∘ magnitudeOf r n k) (n - k)
  rw [hr.polyOf_evaluatorOf h hp, hr.isErrorLocator.polyOf_eq h] at hkey
  rw [CharTwo.sub_eq_add] at hsum
  have hdiff := dvd_sub hkey hsum
  rw [add_sub_add_right_eq_sub, ← sub_mul] at hdiff
  have hcoeff := X_pow_dvd_iff.mp (X_pow_dvd_of_mul hdiff (by rw [coeff_zero_locatorPoly]; exact one_ne_zero)) i hi
  rw [coeff_sub, sub_eq_zero, coeff_polyOf h, syndromes_getD _ hi, coeff_powerSumPoly, if_pos hi] at hcoeff
  exact hcoeff

end Reading

/-! ### What the magnitudes add to a symbol -/

/-- The position of the power m takes the magnitude of m if m is a root power, and no other. -/
theorem errorSum_at_power (mag : ℕ → Byte) {roots : List ℕ} (hnodup : roots.Nodup) {n m : ℕ}
    (hinside : ∀ l ∈ roots, l < n) (hm : m < n) :
    errorSum n mag roots (n - 1 - m) = if m ∈ roots then mag m else 0 := by
  obtain ⟨F, _, φ, h⟩ := exists_isFieldReading
  have hterm : ∀ l ∈ roots.toFinset, φ (if n - 1 - l = n - 1 - m then mag l else 0) = if l = m then φ (mag m) else 0 := by
    intro l hl
    have hl := hinside l (List.mem_toFinset.mp hl)
    have hiff : n - 1 - l = n - 1 - m ↔ l = m := by omega
    simp only [hiff]
    split
    · next heq => rw [heq]
    · exact h.map_zero'
  refine h.bijective.injective ?_
  rw [errorSum, h.map_xorSum, List.map_map, ← List.sum_toFinset _ hnodup]
  refine (Finset.sum_congr rfl hterm).trans ?_
  rw [Finset.sum_ite_eq', apply_ite φ, h.map_zero']
  simp only [List.mem_toFinset]

variable {r : List Byte} {n k : ℕ}

theorem Correctable.errorSum_at_power (hr : Correctable r n k) {m : ℕ} (hm : m < n) :
    errorSum n (magnitudeOf r n k) (rootsOf r n k) (n - 1 - m) =
      if m ∈ rootSet (solvedRun r n k).lambda then magnitudeOf r n k m else 0 := by
  simp only [mem_rootSet]
  exact Machine.errorSum_at_power _ (rootPowers_nodup _) hr.inside hm

/-- The corrected block vanishes where a codeword does (R143 (iii)). -/
theorem Correctable.isCodeword_correctedBlock (hr : Correctable r n k) (hlen : r.length = n) (hp : n - k ≤ 254) :
    IsCodeword (correctedBlock r n k) (n - k) := by
  obtain ⟨F, _, φ, h⟩ := exists_isFieldReading
  have := h.charTwo
  intro i hi
  have hsub : rootSet (solvedRun r n k).lambda ⊆ Finset.range n := fun m hm =>
    Finset.mem_range.mpr (hr.inside m (mem_rootSet.mp hm))
  have herr : ∑ m ∈ Finset.range n, φ (errorSum n (magnitudeOf r n k) (rootsOf r n k) (n - 1 - m)) * locator φ m ^ (i + 1) =
      ∑ m ∈ rootSet (solvedRun r n k).lambda, φ (magnitudeOf r n k m) * locator φ m ^ (i + 1) := by
    rw [← Finset.sum_subset hsub fun m hm hroot => ?_]
    · refine Finset.sum_congr rfl fun m hm => ?_
      rw [hr.errorSum_at_power (hr.inside m (mem_rootSet.mp hm)), if_pos hm]
    · rw [hr.errorSum_at_power (Finset.mem_range.mp hm), if_neg hroot, h.map_zero', zero_mul]
  have hreceived : r = (List.range n).map fun j => r.getD j 0 := (map_range_eq_of_getD hlen fun _ _ => rfl).symm
  refine h.map_eq_zero.mp ?_
  rw [correctedBlock, h.map_hornerPos_alphaPow]
  simp only [h.map_add, add_mul, Finset.sum_add_distrib]
  rw [herr, ← h.map_hornerPos_alphaPow (fun j => r.getD j 0), ← hreceived, hr.syndrome_eq h hp hi,
    CharTwo.add_self_eq_zero]

/-! ### The registers name the magnitudes -/

theorem State.DecodeEnd.errorAt_eq {s t : State} {result : Option (List Byte)}
    (hend : s.DecodeEnd (correctedRun r n k) result t) (hn : n ≤ 255) (j : ℕ) :
    t.errorAt j = errorSum n (magnitudeOf r n k) (rootsOf r n k) j := by
  rw [State.errorAt, errorSum, hend.rootcnt_eq]
  refine congrArg xorSum (List.ext_getElem (by simp) fun i hi _ => ?_)
  have hi : i < (rootsOf r n k).length := by simpa using hi
  simp only [List.getElem_map, List.getElem_range, hend.errpos_symbolAt hn hi, hend.errmag_symbolAt hi]

theorem State.errorAt_of_rootcnt_zero {t : State} (h : t.rootcnt.toNat = 0) (j : ℕ) : t.errorAt j = 0 := by
  rw [State.errorAt, h]
  rfl

theorem State.corrected_of_rootcnt_zero (s : State) {t : State} (h : t.rootcnt.toNat = 0) :
    s.corrected t = s.inSymbols 0 s.n.toNat := by
  simp only [State.corrected, State.errorAt_of_rootcnt_zero h, State.inSymbols_zero]
  exact List.map_congr_left fun j _ => BitVec.xor_zero

theorem State.DecodeEnd.corrected_eq {s t : State} {k : ℕ} {result : Option (List Byte)}
    (hend : s.DecodeEnd (correctedRun (s.inSymbols 0 s.n.toNat) s.n.toNat k) result t) (hn : s.n.toNat ≤ 255) :
    s.corrected t = correctedBlock (s.inSymbols 0 s.n.toNat) s.n.toNat k := by
  refine List.map_congr_left fun j hj => ?_
  rw [hend.errorAt_eq hn, State.inSymbols_getD _ _ _ _ (List.mem_range.mp hj), Nat.zero_add]
  rfl

/-- A position is changed only where some `ERRPOS[i]`, i < `ROOTCNT`, names it. -/
theorem State.exists_errpos_of_errorAt_ne_zero {t : State} {j : ℕ} (h : t.errorAt j ≠ 0) :
    ∃ i, i < t.rootcnt.toNat ∧ (t.errpos.symbolAt i).toNat = j := by
  by_contra hnone
  refine h (xorSum_eq_zero fun v hv => ?_)
  obtain ⟨i, hi, rfl⟩ := List.mem_map.mp hv
  exact if_neg fun hpos => hnone ⟨i, List.mem_range.mp hi, hpos⟩

theorem State.distanceTo_corrected_le (s t : State) : s.distanceTo (s.corrected t) ≤ t.rootcnt.toNat := by
  have hlen : (s.corrected t).length = s.n.toNat := by simp [State.corrected]
  have hsub : (List.range s.n.toNat).filter (fun j => s.readIn j != (s.corrected t).getD j 0) ⊆
      (List.range t.rootcnt.toNat).map fun i => (t.errpos.symbolAt i).toNat := by
    intro j hj
    obtain ⟨hj, hdiff⟩ := List.mem_filter.mp hj
    have hget : (s.corrected t).getD j 0 = s.readIn j ^^^ t.errorAt j := by
      rw [List.getD_eq_getElem _ _ (hlen ▸ List.mem_range.mp hj)]
      simp [State.corrected]
    obtain ⟨i, hi, hpos⟩ := State.exists_errpos_of_errorAt_ne_zero (t := t) (j := j) fun h0 => by
      rw [hget, h0] at hdiff
      simp at hdiff
    exact List.mem_map.mpr ⟨i, List.mem_range.mpr hi, hpos⟩
  have hle := ((List.nodup_range.filter _).subperm hsub).length_le
  rw [List.length_map, List.length_range] at hle
  rwa [State.distanceTo, hlen, List.countP_eq_length_filter]

/-- Settles O58: the block is clean and nothing is changed, or it is the corrected one. -/
theorem correctedBlockIsCodeword : Obligations.CorrectedBlockIsCodeword := by
  intro s t hp hl ht hok
  have ⟨_, hkn, hn⟩ := hp
  obtain ⟨u, hu, hend⟩ := exec_decBlk_ends hp hl
  cases hu.symm.trans ht
  have hcase := s.blockRun_end
  have hlen := s.inSymbols_length 0 s.n.toNat
  have hdist := s.distanceTo_corrected_le t
  generalize s.blockRun = run at hend hcase
  obtain ⟨_, _, homega, _, _, hecount, hrootcnt⟩ := hend.pipeline
  cases hcase with
  | clean hclean =>
    rw [s.corrected_of_rootcnt_zero hrootcnt] at hdist ⊢
    refine ⟨hclean, hdist, hrootcnt.trans_le (Nat.zero_le _), (hend.ok _ rfl).2, fun j _ => ?_⟩
    rw [homega.trans RegFile.load_nil, RegFile.symbolAt_zero]
  | overCapacity _ => exact absurd hok (hend.code_ne_ok rfl)
  | rootsAmiss _ _ => exact absurd hok (hend.code_ne_ok rfl)
  | corrected _ h =>
    rw [hend.corrected_eq hn] at hdist ⊢
    refine ⟨h.isCodeword_correctedBlock hlen (by omega), hdist, hrootcnt.trans_le (h.count.trans_le h.capacity),
      (hend.ok _ rfl).2, fun j hj => ?_⟩
    obtain ⟨F, _, φ, hφ⟩ := exists_isFieldReading
    obtain ⟨hsol, _⟩ := solvedRun_key hφ (s.inSymbols 0 s.n.toNat) (n := s.n.toNat) (k := s.k.toNat) (by omega)
    have hcoeff := hsol.evaluator_degree j (hecount ▸ hj)
    rw [coeff_polyOf hφ, hφ.map_eq_zero] at hcoeff
    rw [hend.omega_eq, RegFile.symbolAt_load _ _ ((evaluatorOf_length _ _ _).trans_le (by omega))]
    exact hcoeff

end Sys2Proof.Machine
end

section
/-! SUPPORT. Alterations within capacity are recovered (R143 (i)): their locator and evaluator solve the key equation of the
block, so they are the ones that the stages find. -/

namespace Sys2Proof.Machine

section Block

open Polynomial

variable {F : Type} [Field F] {φ : Byte → F} {r : List Byte} {n k : ℕ} {M : Finset ℕ} {e : ℕ → Byte}

variable (h : IsFieldReading φ) (hp : n - k ≤ 254) (hM : ∀ m ∈ M, m < 255) (he : ∀ m ∈ M, e m ≠ 0)
  (hcard : M.card ≤ (n - k) / 2)
  (hsyn : ∀ i, i < n - k → φ (hornerPos r (alphaPow (i + 1))) = ∑ m ∈ M, φ (e m) * locator φ m ^ (i + 1))
include h hM he hcard hsyn

/-- Errors e at the powers M, no more than half the number of syndromes, leave no codeword unless there are none. -/
theorem eq_empty_of_isCodeword (hclean : IsCodeword r (n - k)) : M = ∅ := by
  by_contra hne
  obtain ⟨m, hm⟩ := Finset.nonempty_iff_ne_empty.mpr hne
  refine powerSumPoly_ne_zero (M := M) (loc := locator φ) (val := φ ∘ e) (p := n - k) (fun m _ => h.locator_ne_zero m)
    (h.locator_injOn hM) (fun m hm h0 => he m hm (h.map_eq_zero.mp h0)) (by omega) hm ?_
  ext i
  rw [coeff_powerSumPoly, coeff_zero]
  split
  · next hi => exact (hsyn i hi).symm.trans ((congrArg φ (hclean i hi)).trans h.map_zero)
  · rfl

include hp

/-- The stages find the locator and the evaluator of the errors. -/
theorem solvedRun_of_errors : rootSet (solvedRun r n k).lambda = M ∧ (solvedRun r n k).ecount = M.card ∧
    polyOf φ (evaluatorOf r n k) = evaluatorPoly M (locator φ) (φ ∘ e) := by
  have := h.charTwo
  have hne : ∀ m ∈ M, locator φ m ≠ 0 := fun m _ => h.locator_ne_zero m
  have hval : ∀ m ∈ M, (φ ∘ e) m ≠ 0 := fun m hm h0 => he m hm (h.map_eq_zero.mp h0)
  obtain ⟨hsol, hmultiple⟩ := solvedRun_key h r hp
  have herrors := keySolution_powerSumPoly M (locator φ) (φ ∘ e) (n - k)
  rw [← polyOf_syndromes_eq_powerSumPoly h hsyn] at herrors
  obtain ⟨hle, u, hlocator, hevaluator⟩ := hmultiple _ _ _ herrors (by omega)
  obtain ⟨hlam, homega⟩ := eq_of_multiple hne (h.locator_injOn hM) hval
    (fun j hj => hsol.locator_degree j (hle.trans_lt hj)) hsol.constant hlocator hevaluator
  have hroots : rootSet (solvedRun r n k).lambda = M := by
    ext m
    constructor
    · intro hm
      have hlt := lt_of_mem_rootSet hm
      have hzero := (mem_rootSet_iff_eval h hlt).mp hm
      rw [hlam] at hzero
      obtain ⟨l, hl, hone⟩ := exists_loc_of_eval_locatorPoly_eq_zero hzero
      rw [← div_eq_mul_inv, div_eq_one_iff_eq (h.locator_ne_zero m)] at hone
      rwa [← h.alphaPow_injOn (hM l hl) hlt hone]
    · intro hm
      rw [mem_rootSet_iff_eval h (hM m hm), hlam]
      exact eval_locatorPoly_eq_zero hm (hne m hm)
  have hcount : M.card ≤ (solvedRun r n k).ecount := by
    rw [← hroots, card_rootSet]
    exact searchedRun_rootcnt_le r n k
  exact ⟨hroots, Nat.le_antisymm hle hcount, homega⟩

theorem correctable_of_errors (hinside : ∀ m ∈ M, m < n) : Correctable r n k := by
  obtain ⟨hroots, hcount, _⟩ := solvedRun_of_errors h hp hM he hcard hsyn
  refine ⟨hcount.trans_le hcard, ?_, fun m hm => hinside m (hroots ▸ mem_rootSet.mpr hm)⟩
  rw [rootsOf, ← card_rootSet, hroots, hcount]

theorem magnitudeOf_of_errors (hr : Correctable r n k) {m : ℕ} (hm : m ∈ M) : magnitudeOf r n k m = e m := by
  obtain ⟨hroots, _, homega⟩ := solvedRun_of_errors h hp hM he hcard hsyn
  have hne : ∀ m ∈ M, locator φ m ≠ 0 := fun m _ => h.locator_ne_zero m
  have hsame := hr.polyOf_evaluatorOf h hp
  rw [homega, hroots] at hsame
  have hval := congrArg (eval (locator φ m)⁻¹) hsame
  have hproducts := (eval_evaluatorPoly_eq_mul hne hm).symm.trans (hval.trans (eval_evaluatorPoly_eq_mul hne hm))
  have hvals := mul_right_cancel₀ (eval_evaluatorPoly_one_ne_zero hne (h.locator_injOn hM) hm) hproducts
  exact (h.bijective.injective hvals).symm

end Block

/-! ### The alterations of a codeword -/

/-- By what the symbol at the position of power m in `IN` differs from that of the block c. -/
def State.alterationAt (s : State) (c : List Byte) (m : ℕ) : Byte :=
  gfAdd (s.readIn (s.n.toNat - 1 - m)) (c.getD (s.n.toNat - 1 - m) 0)

/-- The powers of the positions in which the block in `IN` differs from the block c. -/
def State.alteredPowers (s : State) (c : List Byte) : Finset ℕ :=
  (Finset.range s.n.toNat).filter fun m => s.alterationAt c m ≠ 0

theorem State.mem_alteredPowers {s : State} {c : List Byte} {m : ℕ} :
    m ∈ s.alteredPowers c ↔ m < s.n.toNat ∧ s.alterationAt c m ≠ 0 := by
  rw [State.alteredPowers, Finset.mem_filter, Finset.mem_range]

theorem countP_range_eq_sum (p : ℕ → Bool) (n : ℕ) :
    (List.range n).countP p = ∑ j ∈ Finset.range n, if p j then 1 else 0 := by
  induction n with
  | zero => rfl
  | succ n ih => rw [List.range_succ, List.countP_append, ih, Finset.sum_range_succ, List.countP_singleton]

theorem State.card_alteredPowers (s : State) {c : List Byte} (hc : c.length = s.n.toNat) :
    (s.alteredPowers c).card = s.distanceTo c := by
  rw [State.distanceTo, hc, countP_range_eq_sum, ← Finset.sum_range_reflect, State.alteredPowers, Finset.card_filter]
  refine Finset.sum_congr rfl fun m _ => ?_
  have hdiff : s.alterationAt c m ≠ 0 ↔
      (s.readIn (s.n.toNat - 1 - m) != c.getD (s.n.toNat - 1 - m) 0) = true := by
    rw [bne_iff_ne]
    exact not_congr BitVec.xor_eq_zero_iff
  simp only [hdiff]

/-- The codeword's own share of a syndrome is 0. -/
theorem State.syndrome_of_alterations (s : State) {F : Type} [Field F] {φ : Byte → F} (h : IsFieldReading φ)
    {c : List Byte} (hc : c.length = s.n.toNat) {p i : ℕ} (hcode : IsCodeword c p) (hi : i < p) :
    φ (hornerPos (s.inSymbols 0 s.n.toNat) (alphaPow (i + 1))) =
      ∑ m ∈ s.alteredPowers c, φ (s.alterationAt c m) * locator φ m ^ (i + 1) := by
  have hclist : c = (List.range s.n.toNat).map fun j => c.getD j 0 := (map_range_eq_of_getD hc fun _ _ => rfl).symm
  have hzero : φ (hornerPos c (alphaPow (i + 1))) = 0 := (congrArg φ (hcode i hi)).trans h.map_zero
  rw [hclist, h.map_hornerPos_alphaPow] at hzero
  rw [State.inSymbols_zero, h.map_hornerPos_alphaPow, State.alteredPowers, Finset.sum_filter_of_ne, ← add_zero (∑ _ ∈ _, _),
    ← hzero, ← Finset.sum_add_distrib]
  · simp only [State.alterationAt, h.map_add, add_mul]
  · intro m _ hterm h0
    rw [h0, h.map_zero', zero_mul] at hterm
    exact hterm rfl

/-- A position j < n has the power n-1-j, whose position it is. -/
theorem State.alterationAt_power (s : State) (c : List Byte) {j : ℕ} (hj : j < s.n.toNat) :
    s.alterationAt c (s.n.toNat - 1 - j) = gfAdd (s.readIn j) (c.getD j 0) := by
  rw [State.alterationAt, show s.n.toNat - 1 - (s.n.toNat - 1 - j) = j by omega]

theorem State.corrected_eq_of_errorAt {s t : State} {c : List Byte} (hc : c.length = s.n.toNat)
    (herr : ∀ j, j < s.n.toNat → t.errorAt j = s.readIn j ^^^ c.getD j 0) : s.corrected t = c := by
  refine map_range_eq_of_getD hc fun j hj => ?_
  rw [herr j hj, ← BitVec.xor_assoc, BitVec.xor_self, BitVec.zero_xor]

/-- The block in `IN` differs from a codeword c in no more positions than can be corrected. -/
structure State.WithinCapacity (s : State) (c : List Byte) : Prop where
  params : s.paramsValid
  length : c.length = s.n.toNat
  isCodeword : IsCodeword c (s.n.toNat - s.k.toNat)
  distance : s.distanceTo c ≤ (s.n.toNat - s.k.toNat) / 2

section WithinCapacity

variable {s : State} {c : List Byte} (hs : s.WithinCapacity c)
include hs

theorem State.WithinCapacity.parity_le : s.n.toNat - s.k.toNat ≤ 254 := by
  obtain ⟨_, _, hn⟩ := hs.params
  omega

theorem State.WithinCapacity.power_lt {m : ℕ} (hm : m ∈ s.alteredPowers c) : m < 255 := by
  obtain ⟨_, _, hn⟩ := hs.params
  exact (State.mem_alteredPowers.mp hm).1.trans_le hn

theorem State.WithinCapacity.card_le : (s.alteredPowers c).card ≤ (s.n.toNat - s.k.toNat) / 2 :=
  (s.card_alteredPowers hs.length).trans_le hs.distance

theorem State.WithinCapacity.alteredPowers_eq_empty (hclean : IsCodeword (s.inSymbols 0 s.n.toNat) (s.n.toNat - s.k.toNat)) :
    s.alteredPowers c = ∅ := by
  obtain ⟨F, _, φ, h⟩ := exists_isFieldReading
  exact eq_empty_of_isCodeword h (fun _ => hs.power_lt) (fun m hm => (State.mem_alteredPowers.mp hm).2) hs.card_le
    (fun _ => s.syndrome_of_alterations h hs.length hs.isCodeword) hclean

theorem State.WithinCapacity.solvedRun_eq :
    rootSet (solvedRun (s.inSymbols 0 s.n.toNat) s.n.toNat s.k.toNat).lambda = s.alteredPowers c ∧
    (solvedRun (s.inSymbols 0 s.n.toNat) s.n.toNat s.k.toNat).ecount = s.distanceTo c := by
  obtain ⟨F, _, φ, h⟩ := exists_isFieldReading
  obtain ⟨hroots, hcount, _⟩ := solvedRun_of_errors h hs.parity_le (fun _ => hs.power_lt)
    (fun m hm => (State.mem_alteredPowers.mp hm).2) hs.card_le
    (fun _ => s.syndrome_of_alterations h hs.length hs.isCodeword)
  exact ⟨hroots, hcount.trans (s.card_alteredPowers hs.length)⟩

theorem State.WithinCapacity.correctable : Correctable (s.inSymbols 0 s.n.toNat) s.n.toNat s.k.toNat := by
  obtain ⟨F, _, φ, h⟩ := exists_isFieldReading
  exact correctable_of_errors h hs.parity_le (fun _ => hs.power_lt) (fun m hm => (State.mem_alteredPowers.mp hm).2)
    hs.card_le (fun _ => s.syndrome_of_alterations h hs.length hs.isCodeword)
    fun m hm => (State.mem_alteredPowers.mp hm).1

theorem State.WithinCapacity.magnitudeOf_eq {m : ℕ} (hm : m ∈ s.alteredPowers c) :
    magnitudeOf (s.inSymbols 0 s.n.toNat) s.n.toNat s.k.toNat m = s.alterationAt c m := by
  obtain ⟨F, _, φ, h⟩ := exists_isFieldReading
  exact magnitudeOf_of_errors h hs.parity_le (fun _ => hs.power_lt) (fun m hm => (State.mem_alteredPowers.mp hm).2)
    hs.card_le (fun _ => s.syndrome_of_alterations h hs.length hs.isCodeword) hs.correctable hm

/-- What the magnitudes add at a position is its alteration. -/
theorem State.WithinCapacity.errorSum_eq {j : ℕ} (hj : j < s.n.toNat) :
    errorSum s.n.toNat (magnitudeOf (s.inSymbols 0 s.n.toNat) s.n.toNat s.k.toNat)
      (rootsOf (s.inSymbols 0 s.n.toNat) s.n.toNat s.k.toNat) j = s.readIn j ^^^ c.getD j 0 := by
  obtain ⟨hroots, _⟩ := hs.solvedRun_eq
  have hpower : s.n.toNat - 1 - (s.n.toNat - 1 - j) = j := by omega
  have hsum := hs.correctable.errorSum_at_power (m := s.n.toNat - 1 - j) (by omega)
  rw [hpower, hroots] at hsum
  refine hsum.trans (Eq.trans ?_ (s.alterationAt_power c hj))
  split
  · next hm => exact hs.magnitudeOf_eq hm
  · next hm =>
    by_contra hne
    exact hm (State.mem_alteredPowers.mpr ⟨by omega, fun h0 => hne h0.symm⟩)

/-- The decoding of such a block ends in success, and the registers name the alterations. -/
theorem State.DecodeEnd.of_withinCapacity {t : State} (hend : s.DecodeEnd s.blockRun s.blockRun.data t) :
    t.code = .ok ∧ t.ecount.toNat = s.distanceTo c ∧ t.rootcnt.toNat = s.distanceTo c ∧
      ∀ j, j < s.n.toNat → t.errorAt j = s.readIn j ^^^ c.getD j 0 := by
  have hcase := s.blockRun_end
  obtain ⟨_, hcount⟩ := hs.solvedRun_eq
  have hr := hs.correctable
  generalize s.blockRun = run at hend hcase
  obtain ⟨_, _, _, _, _, hecount, hrootcnt⟩ := hend.pipeline
  cases hcase with
  | clean hclean =>
    have hnone := hs.alteredPowers_eq_empty hclean
    have hzero : s.distanceTo c = 0 := by rw [← s.card_alteredPowers hs.length, hnone, Finset.card_empty]
    refine ⟨(hend.ok _ rfl).1, hecount.trans hzero.symm, hrootcnt.trans hzero.symm, fun j hj => ?_⟩
    rw [State.errorAt_of_rootcnt_zero hrootcnt]
    by_contra hdiff
    have hmem : s.n.toNat - 1 - j ∈ s.alteredPowers c := State.mem_alteredPowers.mpr
      ⟨by omega, fun h0 => hdiff (h0.symm.trans (s.alterationAt_power c hj))⟩
    rw [hnone] at hmem
    exact Finset.notMem_empty _ hmem
  | overCapacity hcap => exact absurd hcap (Nat.not_lt.mpr hr.capacity)
  | rootsAmiss _ hamiss =>
    rcases hamiss with hne | ⟨m, hm, hmn⟩
    · exact absurd hr.count hne
    · exact absurd (hr.inside m hm) (Nat.not_lt.mpr hmn)
  | corrected _ _ =>
    obtain ⟨_, _, hn⟩ := hs.params
    exact ⟨(hend.ok _ rfl).1, hecount.trans hcount, hrootcnt.trans (hr.count.trans hcount),
      fun j hj => (hend.errorAt_eq hn j).trans (hs.errorSum_eq hj)⟩

end WithinCapacity

/-- Settles O57: the registers name the alterations, so the corrected block, whose first k symbols are in `OUT` by O58, is
the codeword. -/
theorem errorsUpToCapacityCorrected : Obligations.ErrorsUpToCapacityCorrected := by
  intro s c hp hl hc hcode hdist
  have hs : s.WithinCapacity c := ⟨hp, hc, hcode, hdist⟩
  obtain ⟨t, ht, hend⟩ := exec_decBlk_ends hp hl
  obtain ⟨hok, hecount, hrootcnt, herr⟩ := hend.of_withinCapacity hs
  obtain ⟨_, _, _, hout, _⟩ := correctedBlockIsCodeword s t hp hl ht hok
  rw [State.corrected_eq_of_errorAt hc herr] at hout
  exact ⟨t, ht, hok, hout, hecount, hrootcnt, herr⟩

theorem State.distanceTo_eq_one {s : State} {c : List Byte} {q : ℕ} {e : Byte} (hc : c.length = s.n.toNat)
    (hq : q < s.n.toNat) (he : e ≠ 0)
    (hread : ∀ j, j < s.n.toNat → s.readIn j = if j = q then c.getD j 0 ^^^ e else c.getD j 0) : s.distanceTo c = 1 := by
  have hdiff : ∀ j ∈ List.range s.n.toNat, (s.readIn j != c.getD j 0) = true ↔ (j == q) = true := by
    intro j hj
    rw [hread j (List.mem_range.mp hj), bne_iff_ne, beq_iff_eq]
    rcases eq_or_ne j q with rfl | hjq
    · rw [if_pos rfl]
      exact iff_of_true (fun h0 => he (by simpa using h0)) rfl
    · rw [if_neg hjq]
      exact iff_of_false (fun h0 => h0 rfl) hjq
  rw [State.distanceTo, hc, List.countP_congr hdiff]
  exact List.count_eq_one_of_mem List.nodup_range (List.mem_range.mpr hq)

theorem State.errorAt_of_rootcnt_one {t : State} (h : t.rootcnt.toNat = 1) (j : ℕ) :
    t.errorAt j = if t.errpos[0].toNat = j then t.errmag[0] else 0 := by
  rw [State.errorAt, h, ← RegFile.symbolAt_eq t.errpos 0 (by decide), ← RegFile.symbolAt_eq t.errmag 0 (by decide)]
  exact BitVec.zero_xor

/-- Settles O38: one alteration is within capacity, and a single entry of `ERRPOS` and `ERRMAG` is the whole of it. -/
theorem singleErrorCorrected : Obligations.SingleErrorCorrected := by
  intro s c q e hp hcap hl hc hcode hq he hread
  have hdist := State.distanceTo_eq_one hc hq he hread
  obtain ⟨t, ht, hok, hout, hecount, hrootcnt, herr⟩ :=
    errorsUpToCapacityCorrected s c hp hl hc hcode (by omega)
  rw [hdist] at hecount hrootcnt
  have hentry : (if t.errpos[0].toNat = q then t.errmag[0] else 0) = e :=
    calc (if t.errpos[0].toNat = q then t.errmag[0] else 0)
      _ = s.readIn q ^^^ c.getD q 0 := (State.errorAt_of_rootcnt_one hrootcnt q).symm.trans (herr q hq)
      _ = c.getD q 0 ^^^ e ^^^ c.getD q 0 := by rw [hread q hq, if_pos rfl]
      _ = e := by rw [BitVec.xor_comm, ← BitVec.xor_assoc, BitVec.xor_self, BitVec.zero_xor]
  have hpos : t.errpos[0].toNat = q := by
    by_contra hne
    exact he (hentry.symm.trans (if_neg hne))
  rw [if_pos hpos] at hentry
  exact ⟨t, ht, hok, hout, BitVec.eq_of_toNat_eq hecount, BitVec.eq_of_toNat_eq hrootcnt,
    by rw [← hpos, BitVec.ofNat_toNat, BitVec.setWidth_eq], hentry⟩

end Sys2Proof.Machine
end

section
/-! PROOFS. The code ladder: what level a number names, and the level after it (43_code_ladder.md, R170 to R172;
family '43_code_ladder.md'). -/

namespace Sys2Proof.Machine

theorem ladder_length : ladder.length = 6 := by rw [ladder_eq]; rfl

theorem ladder_getElem?_of_lt {i : Nat} (hi : i < 6) : ladder[i]? = some ⟨223 + 2 ^ i, 223⟩ := by
  rw [ladder_eq]
  interval_cases i <;> rfl

theorem ladder_getElem?_of_ge {i : Nat} (hi : 6 ≤ i) : ladder[i]? = none :=
  List.getElem?_eq_none (ladder_length.trans_le hi)

/-- The highest level is 5 (R172), in one expression with the step below it. -/
theorem nextLevel_eq_min (a : Nat) : nextLevel a = min (a + 1) 5 := by
  rw [nextLevel, ladderLen, ladder_length]
  split <;> omega

/-- Settles O25: the parameters of each of the six levels are read off the table. -/
theorem ladderTable : Obligations.LadderTable := by
  refine ⟨ladder_length, fun i hi => ladder_getElem?_of_lt hi, ?_⟩
  rw [ladder_eq]
  decide

/-- Settles O26, by whether the level exists. -/
theorem ladderGetResult : Obligations.LadderGetResult := by
  refine fun a => ⟨decode_encode (.ladderGet a), fun s => ?_⟩
  show execLadderGet a s = _
  unfold execLadderGet
  split_ifs with ha
  · rw [ladder_getElem?_of_lt ha]
    rfl
  · rw [ladder_getElem?_of_ge (Nat.not_lt.mp ha)]
    rfl

/-- Settles O27: the level left in `R` is the saturated one. -/
theorem ladderNextResult : Obligations.LadderNextResult := by
  refine fun a => ⟨decode_encode (.ladderNext a), fun s => ?_⟩
  show execLadderNext a s = _
  rw [execLadderNext, nextLevel_eq_min]
  rfl

end Sys2Proof.Machine
end

section
/-! PROOFS. What each command leaves unchanged (44_control_memory_system.md section 2, R222; family
'44_control_memory_system.md'): how a command of each class can end, and from that its frame. -/

namespace Sys2Proof.Machine

/-! ### How a command of each class ends -/

/-- A quotient is delivered, or the code alone is recorded (R95, R96). -/
theorem deliverQuotient_cases (q : Option Byte) (s : State) :
    (∃ c, deliverQuotient q s = .next (s.complete c)) ∨
    ∃ v, deliverQuotient q s = .next ((s.setR v).complete .ok) := by
  cases q with
  | none => exact .inl ⟨_, deliverQuotient_none s⟩
  | some v => exact .inr ⟨v, deliverQuotient_some v s⟩

/-- A command that is not a codec command records a code, after writing `R` or the parameters where it is one that may. -/
theorem exec_cases_of_not_codec {i : Instr} (hi : isCodec i = false) (s : State) :
    (∃ c, exec i s = .next (s.complete c)) ∨
    (writesR i = true ∧ ∃ v, exec i s = .next ((s.setR v).complete .ok)) ∨
    (isLadderGet i = true ∧ ∃ n k, exec i s = .next ((s.setParams n k).complete .ok)) := by
  cases i with
  | nop => exact .inl ⟨_, rfl⟩
  | gfAdd a b => exact .inr (.inl ⟨rfl, _, rfl⟩)
  | gfMul a b => exact .inr (.inl ⟨rfl, _, rfl⟩)
  | gfDiv a b => exact (deliverQuotient_cases (gfDiv a b) s).imp_right fun h => .inl ⟨rfl, h⟩
  | gfInv a => exact (deliverQuotient_cases (gfInv a) s).imp_right fun h => .inl ⟨rfl, h⟩
  | polyEval a => exact .inr (.inl ⟨rfl, _, rfl⟩)
  | ladderGet a =>
    simp only [exec, execLadderGet]
    cases ladder[a.toNat]? with
    | none => exact .inl ⟨_, rfl⟩
    | some c => exact .inr (.inr ⟨rfl, _, _, rfl⟩)
  | ladderNext a => exact .inr (.inl ⟨rfl, _, rfl⟩)
  | encBlk => cases hi
  | decBlk => cases hi
  | encPkt => cases hi
  | decPkt => cases hi

/-- The shape of a codec command: two checks, each with its error, and then the work (R110, R114, R115, R144, R145). -/
theorem cases_of_checks {p q : Prop} [Decidable p] [Decidable q] {c d : Completion} {s : State}
    {o work : Host.Outcome State Fault Refusal}
    (h : o = if p then .next (s.fail c) else if q then .next (s.fail d) else work) :
    (∃ e, o = .next (s.fail e)) ∨ o = work := by
  split_ifs at h
  · exact .inl ⟨c, h⟩
  · exact .inl ⟨d, h⟩
  · exact .inr h

/-- An encoder fails, or writes `GPOLY` and a result (R114, R115). -/
theorem exec_cases_of_encoder {i : Instr} (hi : isEncoder i = true) (s : State) :
    (∃ c, exec i s = .next (s.fail c)) ∨
    ∃ g out, exec i s = .next (((s.setGpoly g).setOut out).complete .ok) := by
  have hi : i = .encBlk ∨ i = .encPkt := by simpa [isEncoder] using hi
  rcases hi with rfl | rfl
  · exact (cases_of_checks (o := exec .encBlk s) rfl).imp_right fun h => ⟨_, _, h⟩
  · exact (cases_of_checks (o := exec .encPkt s) rfl).imp_right fun h => ⟨_, _, h⟩

/-- A decoder fails before any block, or ends with some block's run (R144, R145). -/
theorem exec_cases_of_decoder {i : Instr} (hi : isDecoder i = true) (s : State) :
    (∃ c, exec i s = .next (s.fail c)) ∨ ∃ run result, exec i s = finishDecode run result s := by
  have hi : i = .decBlk ∨ i = .decPkt := by simpa [isDecoder] using hi
  rcases hi with rfl | rfl
  · exact (cases_of_checks (o := exec .decBlk s) rfl).imp_right fun h => ⟨_, _, h⟩
  · exact (cases_of_checks (o := exec .decPkt s) rfl).imp_right fun h => ⟨_, _, h⟩

/-! ### The frames -/

/-- A command that is not a codec command rewrites the code, and beside it only `R` or the parameters. -/
theorem exec_frame_of_not_codec {i : Instr} (hi : isCodec i = false) (s : State) :
    ∃ c r n k, exec i s = .next { s with code := c, r := r, n := n, k := k } ∧
      (writesR i = false → r = s.r) ∧ (isLadderGet i = false → n = s.n ∧ k = s.k) := by
  rcases exec_cases_of_not_codec hi s with ⟨c, hend⟩ | ⟨hw, v, hend⟩ | ⟨hw, n, k, hend⟩
  · exact ⟨c, s.r, s.n, s.k, hend, fun _ => rfl, fun _ => ⟨rfl, rfl⟩⟩
  · exact ⟨.ok, v, s.n, s.k, hend, fun hnot => absurd hw (Bool.eq_false_iff.mp hnot), fun _ => ⟨rfl, rfl⟩⟩
  · exact ⟨.ok, s.r, .ofNat 16 n, .ofNat 16 k, hend, fun _ => rfl, fun hnot => absurd hw (Bool.eq_false_iff.mp hnot)⟩

theorem finishDecode_frame {run : BlockRun} {result : Option (List Byte)} {s t : State}
    (h : finishDecode run result s = .next t) : s.codecFrame t ∧ t.gpoly = s.gpoly := by
  cases result with
  | none => cases h; exact ⟨(s.setPipeline run).codecFrame_setOut [] _, rfl⟩
  | some data => cases h; exact ⟨(s.setPipeline run).codecFrame_setOut data _, rfl⟩

theorem exec_encoder_frame {i : Instr} (hi : isEncoder i = true) {s t : State} (h : exec i s = .next t) :
    s.codecFrame t ∧ s.samePipeline t := by
  rcases exec_cases_of_encoder hi s with ⟨c, hend⟩ | ⟨g, out, hend⟩ <;> cases hend.symm.trans h
  · exact ⟨s.codecFrame_setOut [] c, .refl s⟩
  · exact ⟨(s.setGpoly g).codecFrame_setOut out .ok, .refl s⟩

theorem exec_decoder_frame {i : Instr} (hi : isDecoder i = true) {s t : State} (h : exec i s = .next t) :
    s.codecFrame t ∧ t.gpoly = s.gpoly := by
  rcases exec_cases_of_decoder hi s with ⟨c, hend⟩ | ⟨run, result, hend⟩
  · cases hend.symm.trans h
    exact ⟨s.codecFrame_setOut [] c, rfl⟩
  · exact finishDecode_frame (hend.symm.trans h)

theorem exec_codec_frame {i : Instr} (hi : isCodec i = true) {s t : State} (h : exec i s = .next t) :
    s.codecFrame t ∧ (isDecoder i = false → s.samePipeline t) ∧ (isEncoder i = false → t.gpoly = s.gpoly) := by
  rcases Bool.or_eq_true_iff.mp hi with he | hd
  · obtain ⟨hframe, hpipe⟩ := exec_encoder_frame he h
    exact ⟨hframe, fun _ => hpipe, fun hne => absurd he (Bool.eq_false_iff.mp hne)⟩
  · obtain ⟨hframe, hgpoly⟩ := exec_decoder_frame hd h
    exact ⟨hframe, fun hnd => absurd hd (Bool.eq_false_iff.mp hnd), fun _ => hgpoly⟩

/-- Settles O44, by the class of the command: the frame of a codec command, or that of the others. -/
theorem commandsWriteOnlyTheirOwn : Obligations.CommandsWriteOnlyTheirOwn := by
  intro i s t h
  cases hi : isCodec i with
  | true =>
    obtain ⟨⟨hcmd, hr, hn, hk, hlen, hepoch, hpending, hresponse, hin⟩, hpipe, hgpoly⟩ := exec_codec_frame hi h
    exact ⟨⟨hcmd, hlen, hepoch, hpending, hresponse, hin⟩, fun _ => hr, fun _ => ⟨hn, hk⟩, nofun, hpipe, hgpoly⟩
  | false =>
    obtain ⟨c, r, n, k, hend, hr, hnk⟩ := exec_frame_of_not_codec hi s
    cases hend.symm.trans h
    exact ⟨⟨rfl, rfl, rfl, rfl, rfl, fun _ _ => rfl⟩, hr, hnk, fun _ => ⟨rfl, rfl, rfl, fun _ _ => rfl⟩,
      fun _ => .refl s, fun _ => rfl⟩

end Sys2Proof.Machine
end

section
/-! PROOFS. Abnormal events (60_exceptions.md, R180 to R187; family '60_exceptions.md'): a refused transaction only answers,
no transaction stops the engine, and the ends of a command that reports an error. -/

namespace Sys2Proof.Machine

/-! ### Refused transactions (R186) -/

/-- Among the scalar registers only `CMD`, `N`, `K` and `IN_LEN`, indices 0 and 3 to 5, can be written (R40). -/
theorem scalarAt_not_writable (s : State) (v : Word) {x : Nat} (h : x = 1 ∨ x = 2 ∨ 6 ≤ x) :
    (scalarAt x).bind (s.writeLocation v) = none := by
  rcases h with rfl | rfl | h
  · rfl
  · rfl
  · obtain ⟨y, rfl⟩ := Nat.exists_eq_add_of_le' h
    match y with
    | 0 | 1 | 2 | 3 => rfl
    | _ + 4 => rfl

theorem scalarAt_of_ge {x : Nat} (h : 10 ≤ x) : scalarAt x = none := by
  obtain ⟨y, rfl⟩ := Nat.exists_eq_add_of_le' h
  rfl

theorem fileAt_of_ge {p : Nat} (h : 7 ≤ p) : fileAt p = none := by
  obtain ⟨q, rfl⟩ := Nat.exists_eq_add_of_le' h
  rfl

/-- The table of R40 and the map agree on where nothing is. -/
theorem locate_of_unmapped {idx : RegIndex} (h : unmappedIndex idx.toNat) : locate idx = none := by
  rcases h with ⟨hlo, hhi⟩ | ⟨hlo, hhi⟩ | hhole | ⟨hhole, _⟩
  · rw [locate_scalar (by omega), scalarAt_of_ge hlo]
  · rw [locate_file (by omega) (by omega), fileAt_of_ge (by omega)]
    rfl
  · exact locate_hole (.inl hhole)
  · exact locate_hole (.inr hhole)

/-- The table of R40 and the map agree on where a write stores nothing: some scalars, every file, `OUT`, the holes. -/
theorem not_writable {idx : RegIndex} (h : unmappedIndex idx.toNat ∨ readOnlyIndex idx.toNat) (s : State) (v : Word) :
    (locate idx).bind (s.writeLocation v) = none := by
  have hrange : (idx.toNat < 0x100 ∧ (idx.toNat = 1 ∨ idx.toNat = 2 ∨ 6 ≤ idx.toNat)) ∨
      (0x100 ≤ idx.toNat ∧ idx.toNat < 0x10000) ∨ (0x20000 ≤ idx.toNat ∧ idx.toNat < 0x2FFFF) ∨
      (idx.toNat = 0x1FFFF ∨ 0x2FFFF ≤ idx.toNat) := by
    unfold unmappedIndex readOnlyIndex at h
    omega
  rcases hrange with ⟨hlt, hx⟩ | ⟨hlo, hhi⟩ | ⟨hlo, hhi⟩ | hhole
  · rw [locate_scalar hlt, scalarAt_not_writable s v hx]
  · rw [locate_file hlo hhi]
    cases fileAt (idx.toNat / 0x100) <;> rfl
  · rw [locate_out hlo hhi]
    rfl
  · rw [locate_hole hhole]
    rfl

theorem step_read_unmapped {s : State} {rest : List HostEvent} {idx : RegIndex} (hp : s.pending = .read idx :: rest)
    (hl : locate idx = none) : step s = .next { s with pending := rest, response := .busError } := by
  have hread : ({ s with pending := rest } : State).hostRead idx = ({ s with pending := rest } : State).answer .busError := by
    rw [State.hostRead, hl]
  rw [step_event hp]
  exact congrArg Host.Outcome.next hread

theorem step_write_refused {s : State} {rest : List HostEvent} {idx : RegIndex} {v : Word}
    (hp : s.pending = .write idx v :: rest)
    (hl : (locate idx).bind (({ s with pending := rest } : State).writeLocation v) = none) :
    step s = .next { s with pending := rest, response := .busError } := by
  have hcmd : locate idx ≠ some .cmd := by
    intro h
    rw [h] at hl
    cases hl
  have hwrite : ({ s with pending := rest } : State).hostWrite idx v =
      ({ s with pending := rest } : State).answer .busError := by
    rw [State.hostWrite, hl]
  rw [step_event hp, State.take, if_neg hcmd, hwrite]
  rfl

/-- Settles O8: a read finds no location at the index, and a write finds nothing to store into. -/
theorem busErrorChangesNothing : Obligations.BusErrorChangesNothing := fun _ _ _ =>
  ⟨fun hp hidx => step_read_unmapped hp (locate_of_unmapped hidx),
    fun v hp hidx => step_write_refused hp (not_writable hidx _ v)⟩

/-! ### Every step answers (R180, R205, R208) -/

theorem serve_answers (q : Request) : ∃ t, serve q = .next t := by
  cases q with
  | done s => exact ⟨s, rfl⟩
  | run i s =>
    obtain ⟨t, ht, _⟩ := exec_cases i s
    exact ⟨t, ht⟩

theorem step_answers (s : State) : ∃ t, step s = .next t := by
  cases hp : s.pending with
  | nil => exact ⟨s, step_idle hp⟩
  | cons e rest =>
    rw [step_event hp]
    exact serve_answers _

/-- No command takes or adds a host event (R11, R222). -/
theorem Effect.pending_eq {s t : State} (h : Effect s t) : t.pending = s.pending := by
  cases h <;> rfl

theorem StepResult.pending_eq {s t : State} (h : StepResult s t) : t.pending = s.pending.tail := by
  cases h with
  | idle hp => rw [hp]; rfl
  | answered e rest hp a => rw [hp]; rfl
  | parameter e rest hp n k len => rw [hp]; rfl
  | inSymbol idx v rest hp i _ _ => rw [hp]; rfl
  | command v rest hp _ he => rw [hp]; exact he.pending_eq
  | reset rest hp => rw [hp]; rfl

/-- Settles O14: every request is served, and each way a step can end takes just the first pending event. -/
theorem stepAlwaysAnswers : Obligations.StepAlwaysAnswers := by
  intro s
  obtain ⟨t, ht⟩ := step_answers s
  exact ⟨t, ht, (step_cases ht).pending_eq⟩

/-! ### What an error completion changes (R187) -/

/-- How a command ends that does not deliver its result: the code alone is recorded; or, for a codec command, `OUT` is
emptied too; or a block did not decode, and its run stays in the pipeline. -/
theorem exec_error_cases {i : Instr} {s t : State} (h : exec i s = .next t) (hcode : t.code ≠ .ok) :
    (isCodec i = false ∧ ∃ c, t = s.complete c) ∨ (∃ c, t = s.fail c) ∨
    ∃ run, t = (s.setPipeline run).fail .uncorrectable := by
  cases hi : isCodec i with
  | false =>
    rcases exec_cases_of_not_codec hi s with ⟨c, hend⟩ | ⟨_, v, hend⟩ | ⟨_, n, k, hend⟩ <;> cases hend.symm.trans h
    · exact .inl ⟨rfl, c, rfl⟩
    · exact absurd rfl hcode
    · exact absurd rfl hcode
  | true =>
    rcases Bool.or_eq_true_iff.mp hi with he | hd
    · rcases exec_cases_of_encoder he s with ⟨c, hend⟩ | ⟨g, out, hend⟩ <;> cases hend.symm.trans h
      · exact .inr (.inl ⟨c, rfl⟩)
      · exact absurd rfl hcode
    · rcases exec_cases_of_decoder hd s with ⟨c, hend⟩ | ⟨run, result, hend⟩
      · cases hend.symm.trans h
        exact .inr (.inl ⟨c, rfl⟩)
      · cases result <;> cases hend.symm.trans h
        · exact .inr (.inr ⟨run, rfl⟩)
        · exact absurd rfl hcode

theorem State.sameIn_fail (s : State) (c : Completion) : s.sameIn (s.fail c) :=
  fun _ hi => (s.readIn_fail c (Nat.lt_succ_of_lt hi)).symm

/-- Settles O45, by the three ends of a command that reports an error. -/
theorem errorCompletionChanges : Obligations.ErrorCompletionChanges := by
  intro i s t h hcode
  rcases exec_error_cases h hcode with ⟨hi, c, rfl⟩ | ⟨c, rfl⟩ | ⟨run, rfl⟩
  · exact ⟨rfl, rfl, rfl, rfl, fun _ _ => rfl, rfl, fun _ => .refl s, fun hnot => absurd hnot (Bool.eq_false_iff.mp hi)⟩
  · exact ⟨rfl, rfl, rfl, rfl, s.sameIn_fail c, rfl, fun _ => .refl s, fun _ =>
      ⟨rfl, rfl, fun j _ => s.readOut_fail c j⟩⟩
  · exact ⟨rfl, rfl, rfl, rfl, (s.setPipeline run).sameIn_fail _, rfl, fun hnot => absurd rfl hnot, fun _ =>
      ⟨rfl, rfl, fun j _ => (s.setPipeline run).readOut_fail _ j⟩⟩

/-! ### The codes of each command (R181) -/

section Codes

variable {s t : State} {codes : List Completion}

theorem code_of_deliverQuotient {q : Option Byte} (h : deliverQuotient q s = .next t) :
    t.code ∈ [.ok, .divideByZero] := by
  cases q with
  | none => cases h; exact .tail _ (.head _)
  | some v => cases h; exact .head _

theorem code_mem_of_finishDecode (hok : .ok ∈ codes) (hfailed : .uncorrectable ∈ codes) {run : BlockRun}
    {result : Option (List Byte)} (h : finishDecode run result s = .next t) : t.code ∈ codes := by
  cases result with
  | none => cases h; exact hfailed
  | some data => cases h; exact hok

/-- The codes of a codec command are those of its two checks and those of its work (R184). -/
theorem code_mem_of_checks {p q : Prop} [Decidable p] [Decidable q] {c d : Completion}
    {work : Host.Outcome State Fault Refusal} (hc : c ∈ codes) (hd : d ∈ codes) (hwork : work = .next t → t.code ∈ codes)
    (h : (if p then .next (s.fail c) else if q then .next (s.fail d) else work) = .next t) : t.code ∈ codes := by
  split_ifs at h
  · cases h; exact hc
  · cases h; exact hd
  · exact hwork h

end Codes

/-- Settles O46, command by command: the code comes from one of its checks, or from the end of its work. -/
theorem codesEachCommandRaises : Obligations.CodesEachCommandRaises := by
  intro i s t h
  cases i with
  | nop => cases h; exact .head _
  | gfAdd a b => cases h; exact .head _
  | gfMul a b => cases h; exact .head _
  | gfDiv a b => exact code_of_deliverQuotient h
  | gfInv a => exact code_of_deliverQuotient h
  | polyEval a => cases h; exact .head _
  | encBlk => exact code_mem_of_checks (by decide) (by decide) (fun h => by cases h; exact .head _) h
  | decBlk => exact code_mem_of_checks (by decide) (by decide) (code_mem_of_finishDecode (by decide) (by decide)) h
  | encPkt => exact code_mem_of_checks (by decide) (by decide) (fun h => by cases h; exact .head _) h
  | decPkt => exact code_mem_of_checks (by decide) (by decide) (code_mem_of_finishDecode (by decide) (by decide)) h
  | ladderGet a =>
    simp only [exec, execLadderGet] at h
    cases hlevel : ladder[a.toNat]? with
    | none => rw [hlevel] at h; cases h; exact .tail _ (.head _)
    | some c => rw [hlevel] at h; cases h; exact .head _
  | ladderNext a => cases h; exact .head _

end Sys2Proof.Machine
end

section
/-! PROOFS. Reset (70_reset_and_hazards.md section 1, R200) and what a command's effect depends on (R206; family
'70_reset_and_hazards.md'): two states with the same inputs are taken through each command side by side. -/

namespace Sys2Proof.Machine

/-- Settles O12: the event is taken from the pending ones, and the reset leaves the others. -/
theorem resetEventRestores : Obligations.ResetEventRestores :=
  fun _ _ hp => step_event hp

/-! ### Operands of states with the same inputs (R63) -/

section Operands

variable {s t : State}

theorem State.sameInputs.inSymbols_eq (h : s.sameInputs t) {start len : Nat} (hle : start + len ≤ s.inLen.toNat) :
    s.inSymbols start len = t.inSymbols start len := by
  obtain ⟨_, _, _, hin⟩ := h
  exact State.inSymbols_congr fun i hi => hin i (hi.trans_le hle)

theorem State.sameInputs.operand_eq (h : s.sameInputs t) : s.operand = t.operand := by
  have ⟨_, _, hlen, _⟩ := h
  rw [State.operand, State.operand, ← hlen]
  exact h.inSymbols_eq (Nat.zero_add _).le

/-- A frame is cut into whole blocks, so no block reaches beyond `IN_LEN` (R145). -/
theorem State.sameInputs.frameBlocks_eq (h : s.sameInputs t) (n : Nat) : s.frameBlocks n = t.frameBlocks n := by
  have ⟨_, _, hlen, _⟩ := h
  rw [State.frameBlocks, State.frameBlocks, ← hlen]
  refine List.map_congr_left fun b hb => h.inSymbols_eq ?_
  calc b * n + n = (b + 1) * n := (Nat.succ_mul b n).symm
    _ ≤ s.inLen.toNat / n * n := Nat.mul_le_mul_right n (List.mem_range.mp hb)
    _ ≤ s.inLen.toNat := Nat.div_mul_le_self _ _

end Operands

/-! ### The same results (R206) -/

/-- Two states that the command `i` left agree in the code, `N`, `K` and everything that `i` has written: what R206 says
of two runs on the same inputs. -/
structure SameResults (i : Instr) (s t : State) : Prop where
  code : s.code = t.code
  n : s.n = t.n
  k : s.k = t.k
  r : writesR i = true → s.code = .ok → s.r = t.r
  out : isCodec i = true → s.outLen = t.outLen ∧ ∀ j, j < s.outLen.toNat → s.readOut j = t.readOut j
  pipeline : isDecoder i = true → s.code = .ok ∨ s.code = .uncorrectable → s.samePipeline t
  gpoly : isEncoder i = true → s.code = .ok → s.gpoly = t.gpoly

/-- Both runs answer, with the same results. -/
def EndAlike (i : Instr) (a b : Host.Outcome State Fault Refusal) : Prop :=
  ∃ s t, a = .next s ∧ b = .next t ∧ SameResults i s t

/-- A command that is not a codec command has no result but the code, the parameters and `R`. -/
theorem SameResults.of_not_codec {i : Instr} (hi : isCodec i = false) {s t : State} (hcode : s.code = t.code)
    (hn : s.n = t.n) (hk : s.k = t.k) (hr : writesR i = true → s.code = .ok → s.r = t.r) : SameResults i s t := by
  obtain ⟨henc, hdec⟩ := Bool.or_eq_false_iff.mp hi
  exact {
    code := hcode
    n := hn
    k := hk
    r := hr
    out := fun hyes => absurd hyes (Bool.eq_false_iff.mp hi)
    pipeline := fun hyes => absurd hyes (Bool.eq_false_iff.mp hdec)
    gpoly := fun hyes => absurd hyes (Bool.eq_false_iff.mp henc) }

/-- A result written to `OUT` reads the same whatever was there before. -/
theorem State.setOut_agree (s t : State) (l : List Byte) : (s.setOut l).outLen = (t.setOut l).outLen ∧
    ∀ j, j < (s.setOut l).outLen.toNat → (s.setOut l).readOut j = (t.setOut l).readOut j := by
  refine ⟨rfl, fun j hj => ?_⟩
  rw [State.setOut_outLen, BitVec.toNat_ofNat] at hj
  have hlt : j < l.length := hj.trans_le (Nat.mod_le _ _)
  rw [State.readOut_setOut, State.readOut_setOut, List.getElem?_eq_getElem hlt]
  rfl

/-! ### The ends of a command in two states with the same inputs -/

section Ends

variable {i : Instr} {s t : State}

theorem State.sameInputs.complete_alike (h : s.sameInputs t) (hi : isCodec i = false) {c : Completion}
    (hw : writesR i = true → c ≠ .ok) : EndAlike i (.next (s.complete c)) (.next (t.complete c)) := by
  obtain ⟨hn, hk, _⟩ := h
  exact ⟨_, _, rfl, rfl, .of_not_codec hi rfl hn hk fun hwrites hok => absurd hok (hw hwrites)⟩

theorem State.sameInputs.deliver_alike (h : s.sameInputs t) (hi : isCodec i = false) (v : Byte) :
    EndAlike i (deliver v s) (deliver v t) := by
  obtain ⟨hn, hk, _⟩ := h
  exact ⟨_, _, rfl, rfl, .of_not_codec hi rfl hn hk fun _ _ => rfl⟩

theorem State.sameInputs.deliverQuotient_alike (h : s.sameInputs t) (hi : isCodec i = false) (q : Option Byte) :
    EndAlike i (deliverQuotient q s) (deliverQuotient q t) := by
  cases q with
  | none => exact h.complete_alike hi fun _ => by decide
  | some v => exact h.deliver_alike hi v

theorem State.sameInputs.fail_alike (h : s.sameInputs t) {c : Completion} (hok : c ≠ .ok) (hunc : c ≠ .uncorrectable) :
    EndAlike i (.next (s.fail c)) (.next (t.fail c)) := by
  obtain ⟨hn, hk, _⟩ := h
  exact ⟨_, _, rfl, rfl, {
    code := rfl
    n := hn
    k := hk
    r := fun _ hcode => absurd hcode hok
    out := fun _ => s.setOut_agree t []
    pipeline := fun _ hcode => (hcode.elim hok hunc).elim
    gpoly := fun _ hcode => absurd hcode hok }⟩

/-- The end of an encoder, with the same generator polynomial and the same result (R114, R115). -/
theorem State.sameInputs.encoded_alike (h : s.sameInputs t) (hw : writesR i = false) (hdec : isDecoder i = false)
    (g : List Byte) {out out' : List Byte} (hout : out = out') :
    EndAlike i (.next (((s.setGpoly g).setOut out).complete .ok)) (.next (((t.setGpoly g).setOut out').complete .ok)) := by
  obtain ⟨hn, hk, _⟩ := h
  subst hout
  exact ⟨_, _, rfl, rfl, {
    code := rfl
    n := hn
    k := hk
    r := fun hyes => absurd hyes (Bool.eq_false_iff.mp hw)
    out := fun _ => (s.setGpoly g).setOut_agree (t.setGpoly g) out
    pipeline := fun hyes => absurd hyes (Bool.eq_false_iff.mp hdec)
    gpoly := fun _ _ => rfl }⟩

/-- The end of a decoder, with the same last run and the same result: whether there is data or not, it is a code, the run's
pipeline, and an `OUT` (R144, R145). -/
theorem State.sameInputs.finishDecode_alike (h : s.sameInputs t) (hw : writesR i = false) (henc : isEncoder i = false)
    (run : BlockRun) (result : Option (List Byte)) :
    EndAlike i (finishDecode run result s) (finishDecode run result t) := by
  obtain ⟨hn, hk, _⟩ := h
  have hend (l : List Byte) (c : Completion) :
      SameResults i (((s.setPipeline run).setOut l).complete c) (((t.setPipeline run).setOut l).complete c) := {
    code := rfl
    n := hn
    k := hk
    r := fun hyes => absurd hyes (Bool.eq_false_iff.mp hw)
    out := fun _ => (s.setPipeline run).setOut_agree (t.setPipeline run) l
    pipeline := fun _ _ => ⟨rfl, rfl, rfl, rfl, rfl, rfl, rfl⟩
    gpoly := fun hyes => absurd hyes (Bool.eq_false_iff.mp henc) }
  cases result with
  | none => exact ⟨_, _, rfl, rfl, hend [] .uncorrectable⟩
  | some data => exact ⟨_, _, rfl, rfl, hend data .ok⟩

/-- The shape of a codec command: two checks, made alike, and then the work (R110, R114, R115, R144, R145). -/
theorem State.sameInputs.checks_alike (h : s.sameInputs t) {p q : Prop} [Decidable p] [Decidable q] {c d : Completion}
    (hc : c ≠ .ok ∧ c ≠ .uncorrectable) (hd : d ≠ .ok ∧ d ≠ .uncorrectable)
    {work work' : Host.Outcome State Fault Refusal} (hwork : ¬q → EndAlike i work work') :
    EndAlike i (if p then .next (s.fail c) else if q then .next (s.fail d) else work)
      (if p then .next (t.fail c) else if q then .next (t.fail d) else work') := by
  split_ifs with hp hq
  · exact h.fail_alike hc.1 hc.2
  · exact h.fail_alike hd.1 hd.2
  · exact hwork hq

end Ends

/-! ### The commands on the same inputs -/

section Commands

variable {s t : State}

theorem State.sameInputs.encBlk_alike (h : s.sameInputs t) : EndAlike .encBlk (exec .encBlk s) (exec .encBlk t) := by
  have ⟨hn, hk, hlen, _⟩ := h
  simp only [exec, execEncBlk, ← hn, ← hk, ← hlen]
  refine h.checks_alike (by decide) (by decide) fun hsize => h.encoded_alike rfl rfl _ ?_
  rw [h.inSymbols_eq (by omega)]

theorem State.sameInputs.encPkt_alike (h : s.sameInputs t) : EndAlike .encPkt (exec .encPkt s) (exec .encPkt t) := by
  have ⟨hn, hk, hlen, _⟩ := h
  simp only [exec, execEncPkt, ← hn, ← hk, ← hlen, ← h.operand_eq]
  exact h.checks_alike (by decide) (by decide) fun _ => h.encoded_alike rfl rfl _ rfl

theorem State.sameInputs.decBlk_alike (h : s.sameInputs t) : EndAlike .decBlk (exec .decBlk s) (exec .decBlk t) := by
  have ⟨hn, hk, hlen, _⟩ := h
  simp only [exec, execDecBlk, ← hn, ← hk, ← hlen]
  refine h.checks_alike (by decide) (by decide) fun hsize => ?_
  rw [← h.inSymbols_eq (by omega)]
  exact h.finishDecode_alike rfl rfl _ _

theorem State.sameInputs.decPkt_alike (h : s.sameInputs t) : EndAlike .decPkt (exec .decPkt s) (exec .decPkt t) := by
  have ⟨hn, hk, hlen, _⟩ := h
  simp only [exec, execDecPkt, ← hn, ← hk, ← hlen, ← h.frameBlocks_eq]
  exact h.checks_alike (by decide) (by decide) fun _ => h.finishDecode_alike rfl rfl _ _

theorem State.sameInputs.ladderGet_alike (h : s.sameInputs t) (a : Byte) :
    EndAlike (.ladderGet a) (exec (.ladderGet a) s) (exec (.ladderGet a) t) := by
  simp only [exec, execLadderGet]
  cases ladder[a.toNat]? with
  | none => exact h.complete_alike rfl nofun
  | some c => exact ⟨_, _, rfl, rfl, .of_not_codec rfl rfl rfl rfl nofun⟩

theorem State.sameInputs.exec_alike (h : s.sameInputs t) (i : Instr) : EndAlike i (exec i s) (exec i t) := by
  cases i with
  | nop => exact h.complete_alike rfl nofun
  | gfAdd a b => exact h.deliver_alike rfl _
  | gfMul a b => exact h.deliver_alike rfl _
  | gfDiv a b => exact h.deliverQuotient_alike rfl (gfDiv a b)
  | gfInv a => exact h.deliverQuotient_alike rfl (gfInv a)
  | polyEval a =>
    simp only [exec, execPolyEval, ← h.operand_eq]
    exact h.deliver_alike rfl _
  | encBlk => exact h.encBlk_alike
  | decBlk => exact h.decBlk_alike
  | encPkt => exact h.encPkt_alike
  | decPkt => exact h.decPkt_alike
  | ladderGet a => exact h.ladderGet_alike a
  | ladderNext a => exact h.deliver_alike rfl _

end Commands

/-- Settles O48: the two runs end alike, command by command. -/
theorem commandsAreFunctions : Obligations.CommandsAreFunctions := by
  intro i s t h
  obtain ⟨s', t', hs, ht, hres⟩ := h.exec_alike i
  exact ⟨s', t', hs, ht, hres.code, hres.n, hres.k, hres.r, hres.out, hres.pipeline, hres.gpoly⟩

end Sys2Proof.Machine
end
